-- ==== Sys2Proof/Word.lean ====
section
/-! DEFINITION. The word and byte types and the plainest arithmetic on them (spec/00_scope.md R7). -/

namespace Sys2Proof

/-- A 32-bit pattern: the contents of a register, of a RAM word, of an instruction word (R5, R7, R20). -/
abbrev Word := BitVec 32

/-- An 8-bit pattern: the contents of one byte of RAM (R56). -/
abbrev Byte := BitVec 8

/-- `wrap32(n)`: the 32-bit pattern of the integer `n` modulo 2^32 (R7). -/
def wrap32 (n : Int) : Word := BitVec.ofInt 32 n

/-- `INT_MAX` = 2^31 - 1 (R7). -/
def intMax : Int := 2147483647

end Sys2Proof
end

