-- ==== Sys2Proof/Config.lean ====
section
/-! DEFINITION. What an implementation fixes: the alternatives of the spec's parameters (spec/00_scope.md R5), the
parameters it leaves OPEN, and the free values. The value each closed parameter has here stands in
Machine/Params.lean. -/

namespace Sys2Proof

/-- `BYTE_ORDER` (spec/20_memory.md R52): which byte of a word has the lowest address. -/
inductive ByteOrder where
  | little
  | big
  deriving DecidableEq, Repr

/-- `NEG_MODE` (spec/41_logical.md R142): what `NEG` computes. -/
inductive NegMode where
  | bitwiseNot
  | twosComplement
  deriving DecidableEq, Repr

/-- `HALT_REAL` (spec/44_machine_state.md R205): what `HALT` does in real mode. -/
inductive HaltReal where
  | stop
  | invalid
  deriving DecidableEq, Repr

/-- The five addresses of device cells, which the spec leaves `OPEN` (spec/20_memory.md R62; D25). -/
structure DeviceMap where
  wallclockAddr : Nat
  kbdLatchAddr : Nat
  termLatchAddr : Nat
  storageWrBase : Nat
  storageRdBase : Nat
  deriving DecidableEq, Repr, Inhabited

namespace Config

/-- `WALLCLOCK_ADDR`, `KBD_LATCH_ADDR`, `TERM_LATCH_ADDR`, `STORAGE_WR_BASE`, `STORAGE_RD_BASE`: `OPEN` (R5). It has no body, so
nothing can be proved of an address. Log entry 17. -/
opaque deviceMap : DeviceMap

/-- The period of the periodic timer: `OPEN`, and no rule depends on it (R5, spec/60_exceptions.md R247). Log entry 19. -/
opaque timerPeriod : Nat

/-- DESIGN CHOICE (log entry 12). A free value: what R0 holds after step (a) of the interrupt entry (spec/60_exceptions.md R231)
when the physical address the table gives, the argument, does not fit the 32 bits of R0. The spec states no result
there, and nothing constrains this one. -/
opaque widePointer : Nat → Word

end Config

end Sys2Proof
end

