-- ==== Sys2Proof/Machine/Bytes.lean ====
section
/-! DEFINITION. The bytes of a word in memory (spec/20_memory.md R52). -/

namespace Sys2Proof.Machine

/-- The byte of `w` that lies `k` bytes above the word's lowest address, `k` in 0..3 (R52). -/
def byteOfWord (order : ByteOrder) (w : Word) (k : Nat) : Byte :=
  match order with
  | .little => w.extractLsb' (8 * k) 8
  | .big => w.extractLsb' (8 * (3 - k)) 8

/-- The word whose bytes, from the lowest address up, are `b0` to `b3` (R52). -/
def wordOfBytes (order : ByteOrder) (b0 b1 b2 b3 : Byte) : Word :=
  match order with
  | .little => b3 ++ b2 ++ b1 ++ b0
  | .big => b0 ++ b1 ++ b2 ++ b3

end Sys2Proof.Machine
end

