-- ==== Sys2Proof/Syntax.lean ====
section
/-! DEFINITION. The registers and the instructions: one constructor of `Instr` per row of spec/opcode_table.json
(spec/30_encoding.md R102). -/

namespace Sys2Proof

/-- The closed enumeration of registers (spec/10_state.md R20). -/
inductive Reg where
  | r0 | r1 | r2 | r3 | r4 | r5 | r6 | r7
  | sp | pc | ptbr | fr
  deriving DecidableEq, Repr

/-- The instructions, in the order of the opcode map (R102). A register operand is any `Reg` here; the class its field
accepts is WellFormed's business (spec/10_state.md R23). -/
inductive Instr where
  -- arithmetic family (spec/40_arithmetic.md)
  | add (rd rs : Reg)
  | sub (rd rs : Reg)
  | mul (rd rs : Reg)
  | div (rd rs : Reg)
  | cmp (ra rb : Reg)
  -- logical family (spec/41_logical.md)
  | neg (rd : Reg)
  | and (rd rs : Reg)
  | or (rd rs : Reg)
  | xor (rd rs : Reg)
  -- control-flow family (spec/42_control_flow.md)
  | jmp (target : BitVec 24)
  | jc (target : BitVec 24)
  | je (target : BitVec 24)
  | jne (target : BitVec 24)
  | jnc (target : BitVec 24)
  | jl (target : BitVec 24)
  | jm (target : BitVec 24)
  | loop (rc : Reg) (target : BitVec 19)
  | call (target : BitVec 24)
  | ret
  -- memory family (spec/43_memory_ops.md)
  | load (rd ra : Reg)
  | store (ra rs : Reg)
  | loadb (rd ra : Reg)
  | storeb (ra rs : Reg)
  | mov (xd xs : Reg)
  | movd (rd : Reg) (value : BitVec 19)
  | push (rs : Reg)
  | pop (rd : Reg)
  | pushall
  | popall
  | popint
  -- machine-state family (spec/44_machine_state.md)
  | int (code : BitVec 24)
  | enter
  | exit
  | halt
  deriving DecidableEq, Repr

/-- The mnemonic, as the opcode map spells it (R102). -/
def Instr.mnemonic : Instr → String
  | .add _ _ => "ADD"
  | .sub _ _ => "SUB"
  | .mul _ _ => "MUL"
  | .div _ _ => "DIV"
  | .cmp _ _ => "CMP"
  | .neg _ => "NEG"
  | .and _ _ => "AND"
  | .or _ _ => "OR"
  | .xor _ _ => "XOR"
  | .jmp _ => "JMP"
  | .jc _ => "JC"
  | .je _ => "JE"
  | .jne _ => "JNE"
  | .jnc _ => "JNC"
  | .jl _ => "JL"
  | .jm _ => "JM"
  | .loop _ _ => "LOOP"
  | .call _ => "CALL"
  | .ret => "RET"
  | .load _ _ => "LOAD"
  | .store _ _ => "STORE"
  | .loadb _ _ => "LOADB"
  | .storeb _ _ => "STOREB"
  | .mov _ _ => "MOV"
  | .movd _ _ => "MOVD"
  | .push _ => "PUSH"
  | .pop _ => "POP"
  | .pushall => "PUSHALL"
  | .popall => "POPALL"
  | .popint => "POPINT"
  | .int _ => "INT"
  | .enter => "ENTER"
  | .exit => "EXIT"
  | .halt => "HALT"

end Sys2Proof
end

