-- ==== Sys2Proof/Machine/Params.lean ====
section
/-! DEFINITION. The value each closed parameter of the spec has in this model (spec/00_scope.md R5) and the interrupt codes
(spec/60_exceptions.md R221). -/

namespace Sys2Proof.Machine

/-- `RAM_SIZE`, bytes of physical RAM: 2^30, the spec's default (spec/20_memory.md R51, D23). Log entry 4. -/
def ramSize : Nat := 0x40000000

/-- `PAGE_SIZE` (R5). -/
def pageSize : Nat := 4096

/-- `BYTE_ORDER`: little, the spec's default (spec/20_memory.md R52, D20). Log entry 5. -/
def byteOrder : ByteOrder := .little

/-- `NEG_MODE`: `bitwise_not`, the spec's default (spec/41_logical.md R142, D6). Log entry 6. -/
def negMode : NegMode := .bitwiseNot

/-- `HALT_REAL`: `stop`, the spec's default (spec/44_machine_state.md R205, D32). Log entry 7. -/
def haltReal : HaltReal := .stop

/-- `PTR_XLATE_CODES` (spec/60_exceptions.md R231, D29). Log entry 8. -/
def ptrXlateCodes : List Nat := [4]

/-- `PTR_XLATE_REG` (spec/60_exceptions.md R231, D29). Log entry 8. -/
def ptrXlateReg : Reg := .r0

/-- `IVT_BASE` (spec/20_memory.md R61). -/
def ivtBase : Nat := 0

/-- The physical address of the vector of a code: `4 * code` (spec/20_memory.md R61). -/
def vectorAddr (code : Nat) : Nat := ivtBase + 4 * code

/-- `REAL_PC_SLOT` (spec/10_state.md R36, D24). Log entry 9. -/
def realPcSlot : Nat := 0x40

/-- `REAL_SP_SLOT` (spec/10_state.md R36, D24). Log entry 9. -/
def realSpSlot : Nat := 0x44

/-- `VIRT_PC_SLOT` (spec/10_state.md R36, D24). Log entry 9. -/
def virtPcSlot : Nat := 0x48

/-- `VIRT_SP_SLOT` (spec/10_state.md R36, D24). Log entry 9. -/
def virtSpSlot : Nat := 0x4C

/-- `CODE_ORIGIN`, the real-mode load address and reset PC (R5, D26). Log entry 9. -/
def codeOrigin : Word := 0x100#32

/-! The interrupt codes the hardware itself raises (spec/60_exceptions.md R221, R223). -/

/-- Code 0: DIV with a zero divisor. -/
def divideByZeroCode : Nat := 0

/-- Code 2: an invalid opcode, or a mode-switch instruction in the wrong mode. -/
def invalidOpcodeCode : Nat := 2

/-- Code 3: a translation failure. -/
def pageFaultCode : Nat := 3

end Sys2Proof.Machine
end

