-- ==== Sys2Proof/WellFormed.lean ====
section
/-! DEFINITION. Which terms of `Instr` are instructions: the register classes (spec/10_state.md R23). Immediates need no
check: their types have the widths of their fields. -/

namespace Sys2Proof

/-- Class `GPR`: R0 to R7 (R23). -/
def Reg.isGpr : Reg → Bool
  | .r0 | .r1 | .r2 | .r3 | .r4 | .r5 | .r6 | .r7 => true
  | .sp | .pc | .ptbr | .fr => false

/-- Class `GPR_SP`: R0 to R7 and SP (R23). -/
def Reg.isGprSp : Reg → Bool
  | .r0 | .r1 | .r2 | .r3 | .r4 | .r5 | .r6 | .r7 | .sp => true
  | .pc | .ptbr | .fr => false

/-- Every register field is of class `GPR`, except both fields of MOV, of class `GPR_SP` (R23). -/
def Instr.wellFormed : Instr → Bool
  | .add rd rs => rd.isGpr && rs.isGpr
  | .sub rd rs => rd.isGpr && rs.isGpr
  | .mul rd rs => rd.isGpr && rs.isGpr
  | .div rd rs => rd.isGpr && rs.isGpr
  | .cmp ra rb => ra.isGpr && rb.isGpr
  | .neg rd => rd.isGpr
  | .and rd rs => rd.isGpr && rs.isGpr
  | .or rd rs => rd.isGpr && rs.isGpr
  | .xor rd rs => rd.isGpr && rs.isGpr
  | .jmp _ => true
  | .jc _ => true
  | .je _ => true
  | .jne _ => true
  | .jnc _ => true
  | .jl _ => true
  | .jm _ => true
  | .loop rc _ => rc.isGpr
  | .call _ => true
  | .ret => true
  | .load rd ra => rd.isGpr && ra.isGpr
  | .store ra rs => ra.isGpr && rs.isGpr
  | .loadb rd ra => rd.isGpr && ra.isGpr
  | .storeb ra rs => ra.isGpr && rs.isGpr
  | .mov xd xs => xd.isGprSp && xs.isGprSp
  | .movd rd _ => rd.isGpr
  | .push rs => rs.isGpr
  | .pop rd => rd.isGpr
  | .pushall => true
  | .popall => true
  | .popint => true
  | .int _ => true
  | .enter => true
  | .exit => true
  | .halt => true

end Sys2Proof
end

