-- ==== Sys2Proof/Decode.lean ====
section
/-! DEFINITION. The decoder, total on every word and on every list of bytes, rejecting by name, and after it the encoder,
both from the opcode map (spec/30_encoding.md R90 to R109). -/

namespace Sys2Proof

/-- Why a word is an invalid opcode: the four cases of R104, and a list of bytes too short for a word. The names are the
model's; the hardware raises code 2 for each of (a) to (d). Log entry 23. -/
inductive DecodeError where
  /-- R104 (a): the family nibble is 0x0 or 0x6 to 0xF. -/
  | noSuchFamily
  /-- R104 (b): the index nibble is beyond the family's last instruction. -/
  | noSuchIndex
  /-- R104 (c): a register field holds a code outside its class. -/
  | badRegister
  /-- R104 (d): a reserved bit of the format is 1. -/
  | reservedBit
  /-- Fewer than four bytes were given (no word, so no instruction). -/
  | truncated
  deriving DecidableEq, Repr

/-! ## Fields (R91, R93 to R97) -/

/-- `w[31:24]`. -/
def opField (w : Word) : BitVec 8 := w.extractLsb' 24 8

/-- `r1 = w[23:19]`. -/
def r1Field (w : Word) : BitVec 5 := w.extractLsb' 19 5

/-- `r2 = w[18:14]`. -/
def r2Field (w : Word) : BitVec 5 := w.extractLsb' 14 5

/-- `imm24 = w[23:0]`; the reserved bits of format N. -/
def imm24Field (w : Word) : BitVec 24 := w.extractLsb' 0 24

/-- `imm19 = w[18:0]`; the reserved bits of format R. -/
def imm19Field (w : Word) : BitVec 19 := w.extractLsb' 0 19

/-- `w[13:0]`: the reserved bits of format RR. -/
def low14Field (w : Word) : BitVec 14 := w.extractLsb' 0 14

/-! ## Register codes (spec/10_state.md R22) -/

/-- The register a 5-bit code names; codes 12 to 31 name none. -/
def regOfCode (c : BitVec 5) : Option Reg :=
  match c.toNat with
  | 0 => some .r0
  | 1 => some .r1
  | 2 => some .r2
  | 3 => some .r3
  | 4 => some .r4
  | 5 => some .r5
  | 6 => some .r6
  | 7 => some .r7
  | 8 => some .sp
  | 9 => some .pc
  | 10 => some .ptbr
  | 11 => some .fr
  | _ => none

/-- The 5-bit code of a register. -/
def codeOfReg : Reg → BitVec 5
  | .r0 => 0
  | .r1 => 1
  | .r2 => 2
  | .r3 => 3
  | .r4 => 4
  | .r5 => 5
  | .r6 => 6
  | .r7 => 7
  | .sp => 8
  | .pc => 9
  | .ptbr => 10
  | .fr => 11

/-- A field of class `GPR` (R101). -/
def gprField (c : BitVec 5) : Option Reg := (regOfCode c).filter Reg.isGpr

/-- A field of class `GPR_SP` (R101). -/
def gprSpField (c : BitVec 5) : Option Reg := (regOfCode c).filter Reg.isGprSp

/-! ## The opcode map (R102) -/

/-- An instruction's format with the instruction it builds from the fields (R93 to R97). -/
inductive Layout where
  /-- Format N. -/
  | bare (i : Instr)
  /-- Format R. -/
  | oneReg (f : Reg → Instr)
  /-- Format RR, both fields of class `GPR`. -/
  | twoRegs (f : Reg → Reg → Instr)
  /-- Format RR, both fields of class `GPR_SP` (MOV). -/
  | twoRegsSp (f : Reg → Reg → Instr)
  /-- Format I. -/
  | imm (f : BitVec 24 → Instr)
  /-- Format RI. -/
  | regImm (f : Reg → BitVec 19 → Instr)

/-- The arithmetic family, selector 0x1 (R92, R102). -/
def arithmeticRows : List (BitVec 8 × Layout) :=
  [(0x10#8, .twoRegs .add), (0x11#8, .twoRegs .sub), (0x12#8, .twoRegs .mul), (0x13#8, .twoRegs .div), (0x14#8, .twoRegs .cmp)]

/-- The logical family, selector 0x2 (R92, R102). -/
def logicalRows : List (BitVec 8 × Layout) :=
  [(0x20#8, .oneReg .neg), (0x21#8, .twoRegs .and), (0x22#8, .twoRegs .or), (0x23#8, .twoRegs .xor)]

/-- The control-flow family, selector 0x3 (R92, R102). -/
def controlFlowRows : List (BitVec 8 × Layout) :=
  [(0x30#8, .imm .jmp), (0x31#8, .imm .jc), (0x32#8, .imm .je), (0x33#8, .imm .jne), (0x34#8, .imm .jnc),
   (0x35#8, .imm .jl), (0x36#8, .imm .jm), (0x37#8, .regImm .loop), (0x38#8, .imm .call), (0x39#8, .bare .ret)]

/-- The memory family, selector 0x4 (R92, R102). -/
def memoryRows : List (BitVec 8 × Layout) :=
  [(0x40#8, .twoRegs .load), (0x41#8, .twoRegs .store), (0x42#8, .twoRegs .loadb), (0x43#8, .twoRegs .storeb),
   (0x44#8, .twoRegsSp .mov), (0x45#8, .regImm .movd), (0x46#8, .oneReg .push), (0x47#8, .oneReg .pop),
   (0x48#8, .bare .pushall), (0x49#8, .bare .popall), (0x4A#8, .bare .popint)]

/-- The machine-state family, selector 0x5 (R92, R102). -/
def machineStateRows : List (BitVec 8 × Layout) :=
  [(0x50#8, .imm .int), (0x51#8, .bare .enter), (0x52#8, .bare .exit), (0x53#8, .bare .halt)]

/-- The opcode byte of each instruction and its format (R92, R102). -/
def opcodeMap : List (BitVec 8 × Layout) :=
  arithmeticRows ++ logicalRows ++ controlFlowRows ++ memoryRows ++ machineStateRows

/-- The layout of an opcode byte, if an instruction has it. -/
def layoutOf (op : BitVec 8) : Option Layout := opcodeMap.lookup op

/-- The families are the nibbles 1 to 5 (R92). -/
def unknownOpcode (op : BitVec 8) : DecodeError :=
  if 1 ≤ op.toNat / 16 ∧ op.toNat / 16 ≤ 5 then .noSuchIndex else .noSuchFamily

/-- The fields of `w` read by a format: register classes first, then the reserved bits (R98, R101, R103). -/
def readFields (l : Layout) (w : Word) : Except DecodeError Instr :=
  match l with
  | .bare i => if imm24Field w = 0 then .ok i else .error .reservedBit
  | .oneReg f =>
    match gprField (r1Field w) with
    | none => .error .badRegister
    | some r => if imm19Field w = 0 then .ok (f r) else .error .reservedBit
  | .twoRegs f =>
    match gprField (r1Field w), gprField (r2Field w) with
    | some r, some q => if low14Field w = 0 then .ok (f r q) else .error .reservedBit
    | _, _ => .error .badRegister
  | .twoRegsSp f =>
    match gprSpField (r1Field w), gprSpField (r2Field w) with
    | some r, some q => if low14Field w = 0 then .ok (f r q) else .error .reservedBit
    | _, _ => .error .badRegister
  | .imm f => .ok (f (imm24Field w))
  | .regImm f =>
    match gprField (r1Field w) with
    | none => .error .badRegister
    | some r => .ok (f r (imm19Field w))

/-- The decoding procedure, total on all 2^32 words (R103). It reads no machine state (R90). -/
def decode (w : Word) : Except DecodeError Instr :=
  match layoutOf (opField w) with
  | none => .error (unknownOpcode (opField w))
  | some l => readFields l w

/-- The first instruction of a list of bytes, lowest address first, and the bytes after it: four bytes make the word
(R90, R107; spec/20_memory.md R52). -/
def decodeBytes (order : ByteOrder) : List Byte → Except DecodeError (Instr × List Byte)
  | b0 :: b1 :: b2 :: b3 :: rest =>
    match decode (Machine.wordOfBytes order b0 b1 b2 b3) with
    | .ok i => .ok (i, rest)
    | .error e => .error e
  | _ => .error .truncated

/-! ## The encoder (R109) -/

/-- Format N (R93). -/
def packBare (op : BitVec 8) : Word := op ++ 0#24

/-- Format R (R94). -/
def packReg (op : BitVec 8) (r : Reg) : Word := op ++ codeOfReg r ++ 0#19

/-- Format RR (R95). -/
def packRegs (op : BitVec 8) (r q : Reg) : Word := op ++ codeOfReg r ++ codeOfReg q ++ 0#14

/-- Format I (R96). -/
def packImm (op : BitVec 8) (v : BitVec 24) : Word := op ++ v

/-- Format RI (R97). -/
def packRegImm (op : BitVec 8) (r : Reg) (v : BitVec 19) : Word := op ++ codeOfReg r ++ v

/-- The fields of an instruction placed in its format, zeros elsewhere (R109). -/
def encodeWord : Instr → Word
  | .add rd rs => packRegs 0x10 rd rs
  | .sub rd rs => packRegs 0x11 rd rs
  | .mul rd rs => packRegs 0x12 rd rs
  | .div rd rs => packRegs 0x13 rd rs
  | .cmp ra rb => packRegs 0x14 ra rb
  | .neg rd => packReg 0x20 rd
  | .and rd rs => packRegs 0x21 rd rs
  | .or rd rs => packRegs 0x22 rd rs
  | .xor rd rs => packRegs 0x23 rd rs
  | .jmp t => packImm 0x30 t
  | .jc t => packImm 0x31 t
  | .je t => packImm 0x32 t
  | .jne t => packImm 0x33 t
  | .jnc t => packImm 0x34 t
  | .jl t => packImm 0x35 t
  | .jm t => packImm 0x36 t
  | .loop rc t => packRegImm 0x37 rc t
  | .call t => packImm 0x38 t
  | .ret => packBare 0x39
  | .load rd ra => packRegs 0x40 rd ra
  | .store ra rs => packRegs 0x41 ra rs
  | .loadb rd ra => packRegs 0x42 rd ra
  | .storeb ra rs => packRegs 0x43 ra rs
  | .mov xd xs => packRegs 0x44 xd xs
  | .movd rd v => packRegImm 0x45 rd v
  | .push rs => packReg 0x46 rs
  | .pop rd => packReg 0x47 rd
  | .pushall => packBare 0x48
  | .popall => packBare 0x49
  | .popint => packBare 0x4A
  | .int c => packImm 0x50 c
  | .enter => packBare 0x51
  | .exit => packBare 0x52
  | .halt => packBare 0x53

/-- The word of a well-formed instruction; a register outside its field's class has no encoding (R109). -/
def encode (i : Instr) : Option Word := if i.wellFormed then some (encodeWord i) else none

/-- The bytes of a word as memory holds them, lowest address first (spec/20_memory.md R52). -/
def bytesOfWord (order : ByteOrder) (w : Word) : List Byte :=
  [Machine.byteOfWord order w 0, Machine.byteOfWord order w 1, Machine.byteOfWord order w 2, Machine.byteOfWord order w 3]

/-- The instruction the decoder reads from an instruction whose bits are `w` as the opcode table numbers them, `nbits` of
them given and the rest 0: the word is laid out as memory holds it and given to the decoder. -/
def decodeTableWord (nbits w : Nat) : Option Instr :=
  match decodeBytes Machine.byteOrder (bytesOfWord Machine.byteOrder (BitVec.ofNat 32 (w % 2 ^ nbits))) with
  | .ok (i, _) => some i
  | .error _ => none

end Sys2Proof
end

