-- ==== Sys2Proof/Machine/State.lean ====
section
/-! DEFINITION. The state of the machine as plain data, the reasons a step can stop, and the state after reset
(spec/10_state.md). -/

namespace Sys2Proof.Machine

/-- RAM (spec/10_state.md R35): the address and value of every byte that differs from what an unlisted address reads as
(`Memory.unlisted` in Machine/Memory.lean), addresses strictly rising. -/
abbrev Memory := List Host.Cell

/-- Everything the spec gives the machine: the twelve registers (R20), RAM (R35), the pending-interrupt queue (R37) and the
halted flag (R38), and one field of the model's own, `raised`. -/
structure State where
  /-- R0 (R21). -/
  r0 : Word
  /-- R1 (R21). -/
  r1 : Word
  /-- R2 (R21). -/
  r2 : Word
  /-- R3 (R21). -/
  r3 : Word
  /-- R4 (R21). -/
  r4 : Word
  /-- R5 (R21). -/
  r5 : Word
  /-- R6 (R21). -/
  r6 : Word
  /-- R7 (R21). -/
  r7 : Word
  /-- The stack pointer (R24). -/
  sp : Word
  /-- The program counter (R32). -/
  pc : Word
  /-- The page-table base register (R25). -/
  ptbr : Word
  /-- The flags register: bit 0 C, bit 1 Z, bit 2 M, bit 3 S, bits 31:4 plain data (R26, R31). -/
  fr : Word
  /-- RAM (R35). -/
  mem : Memory
  /-- The halted flag (R38). -/
  halted : Bool
  /-- The pending-interrupt queue, oldest first (R37). -/
  irq : List Nat
  /-- The model's own: the code passed to the interrupt entry by the last step, if any, which spec/70_reset_and_hazards.md
  R272 calls an output of the step. No instruction reads it. Log entry 14. -/
  raised : Option Nat
  deriving DecidableEq, Repr

/-- Why a step stops. -/
inductive Fault where
  /-- `MachineFault(OutOfRange)`: raised by every physical access at or above `RAM_SIZE`: fetch, data access, page-table walk,
  slot, frame or vector (spec/20_memory.md R57, spec/60_exceptions.md R246). Safe: the spec places it outside the
  architecture and promises no effect of the step. Log entry 11. -/
  | outOfRange
  /-- Raised by `step` alone, in a state whose `halted` is set: there is no step (spec/60_exceptions.md R222). It is the end
  of a run, not an error (spec/70_reset_and_hazards.md R275). Safe. Log entry 10. -/
  | halted
  deriving DecidableEq, Repr

/-- Why a step is refused. -/
inductive Refusal where
  /-- Raised by an arm of `exec` whose instruction has no meaning yet; no arm is left so. Safe. -/
  | notModelled (mnemonic : String)
  deriving DecidableEq, Repr

/-- What an instruction or a step answers. -/
abbrev Result := Host.Outcome State Fault Refusal

/-- Right after reset (R41, spec/70_reset_and_hazards.md R260): real mode, flags clear, `pc` at `CODE_ORIGIN`, not halted, no
interrupt pending. R0 to R7, SP and PTBR are unspecified there: DESIGN CHOICE zero, log entries 1 and 2. -/
def State.reset : State :=
  { r0 := 0, r1 := 0, r2 := 0, r3 := 0, r4 := 0, r5 := 0, r6 := 0, r7 := 0
    sp := 0, pc := codeOrigin, ptbr := 0, fr := 0
    mem := [], halted := false, irq := [], raised := none }

end Sys2Proof.Machine
end

