-- ==== Sys2Proof/Machine/Memory.lean ====
section
/-! DEFINITION. RAM as a list of cells: bytes, words, and the canonical form (spec/20_memory.md R51 to R56, R83). Ranges are
checked in Machine/Ops.lean. -/

namespace Sys2Proof.Machine

/-- What a byte of RAM that is not listed reads as. DESIGN CHOICE (log entry 3): the spec leaves RAM after reset
unspecified (spec/10_state.md R41). -/
def Memory.unlisted : Byte := 0#8

/-- The byte at an address. -/
def Memory.readByte : Memory → Nat → Byte
  | [], _ => Memory.unlisted
  | (k, v) :: m, a => if k = a then v else Memory.readByte m a

/-- No cell of `a` is left. -/
def Memory.erase (m : Memory) (a : Nat) : Memory := m.filter (fun c => decide (c.1 ≠ a))

/-- A cell put before the first cell of a higher address. -/
def Memory.insert : Memory → Nat → Byte → Memory
  | [], a, b => [(a, b)]
  | (k, v) :: m, a, b => if a < k then (a, b) :: (k, v) :: m else (k, v) :: Memory.insert m a b

/-- The byte at an address replaced; the canonical form is kept (Laws/Memory.lean). -/
def Memory.writeByte (m : Memory) (a : Nat) (b : Byte) : Memory :=
  if b = Memory.unlisted then m.erase a else (m.erase a).insert a b

/-- The address of the lowest byte of the word that holds `a`: a word accessor computes `address/4` (R51, R55). -/
def wordBase (a : Nat) : Nat := 4 * (a / 4)

/-- The word that holds `a`; the two low bits of `a` are ignored (R54, R55). -/
def Memory.readWord (m : Memory) (a : Nat) : Word :=
  wordOfBytes byteOrder (m.readByte (wordBase a)) (m.readByte (wordBase a + 1)) (m.readByte (wordBase a + 2))
    (m.readByte (wordBase a + 3))

/-- All 32 bits of the word that holds `a` replaced (R54, R55). -/
def Memory.writeWord (m : Memory) (a : Nat) (w : Word) : Memory :=
  (((m.writeByte (wordBase a) (byteOfWord byteOrder w 0)).writeByte (wordBase a + 1) (byteOfWord byteOrder w 1)).writeByte
    (wordBase a + 2) (byteOfWord byteOrder w 2)).writeByte (wordBase a + 3) (byteOfWord byteOrder w 3)

/-- The canonical form: addresses strictly rising, no cell equal to what an unlisted address reads as. -/
abbrev Memory.wf (m : Memory) : Prop :=
  m.Pairwise (fun c d => c.1 < d.1) ∧ ∀ c ∈ m, c.2 ≠ Memory.unlisted

end Sys2Proof.Machine
end

