-- ==== Sys2Proof/Machine/Flags.lean ====
section
/-! DEFINITION. The bits of FR and every flag computation (spec/10_state.md R26 to R31, spec/40_arithmetic.md R121,
spec/41_logical.md R141). -/

namespace Sys2Proof.Machine

/-- C, bit 0 of FR (R26). -/
def carryBit : Nat := 0

/-- Z, bit 1 of FR (R26). -/
def zeroBit : Nat := 1

/-- M, bit 2 of FR (R26). -/
def modeBit : Nat := 2

/-- S, bit 3 of FR (R26). -/
def signBit : Nat := 3

/-- One bit of FR replaced, the others kept. -/
def putBit (v : Word) (k : Nat) (b : Bool) : Word :=
  if b then v ||| (1#32 <<< k) else v &&& ~~~(1#32 <<< k)

/-- Z and S from the 32-bit result (R28, R29). -/
def setZeroSign (res fr : Word) : Word :=
  putBit (putBit fr zeroBit (decide (res = 0#32))) signBit (res.getLsbD 31)

/-- `SetFlagsArith(W, res)`: C from the wide result, Z and S from the 32-bit one (R121). -/
def setFlagsArith (wide : Int) (res fr : Word) : Word :=
  setZeroSign res (putBit fr carryBit (decide (intMax < wide)))

/-- `SetFlagsLogic(res)`: Z and S; C is kept (R141). -/
def setFlagsLogic (res fr : Word) : Word := setZeroSign res fr

end Sys2Proof.Machine
end

