-- ==== Sys2Proof/Machine/Operands.lean ====
section
/-! DEFINITION. Every operand form: registers by name (spec/00_scope.md R8, spec/10_state.md R22), the two immediates
(spec/30_encoding.md R99, R100), the fields of FR. The one place where registers are read and written by name. -/

namespace Sys2Proof.Machine

/-- `reg[c]`: the register read (R8). -/
def State.reg (s : State) : Reg → Word
  | .r0 => s.r0
  | .r1 => s.r1
  | .r2 => s.r2
  | .r3 => s.r3
  | .r4 => s.r4
  | .r5 => s.r5
  | .r6 => s.r6
  | .r7 => s.r7
  | .sp => s.sp
  | .pc => s.pc
  | .ptbr => s.ptbr
  | .fr => s.fr

/-- `reg[c] <- v` (R8). None is hardwired (spec/10_state.md R20). -/
def State.setReg (s : State) (r : Reg) (v : Word) : State :=
  match r with
  | .r0 => { s with r0 := v }
  | .r1 => { s with r1 := v }
  | .r2 => { s with r2 := v }
  | .r3 => { s with r3 := v }
  | .r4 => { s with r4 := v }
  | .r5 => { s with r5 := v }
  | .r6 => { s with r6 := v }
  | .r7 => { s with r7 := v }
  | .sp => { s with sp := v }
  | .pc => { s with pc := v }
  | .ptbr => { s with ptbr := v }
  | .fr => { s with fr := v }

/-- `x[0]` to `x[7]` (R8). -/
def State.gprs (s : State) : List Word := [s.r0, s.r1, s.r2, s.r3, s.r4, s.r5, s.r6, s.r7]

/-- `x[0]` to `x[7]` written, in order, from the words given. -/
def State.setGprs (s : State) (ws : List Word) : State :=
  ([Reg.r0, .r1, .r2, .r3, .r4, .r5, .r6, .r7].zip ws).foldl (fun t p => t.setReg p.1 p.2) s

/-- `fr.C`. -/
def State.carry (s : State) : Bool := s.fr.getLsbD carryBit

/-- `fr.Z`. -/
def State.zero (s : State) : Bool := s.fr.getLsbD zeroBit

/-- `fr.M`: 1 is virtual mode, 0 real mode (R26, R30). -/
def State.isVirtual (s : State) : Bool := s.fr.getLsbD modeBit

/-- `fr.S`. -/
def State.sign (s : State) : Bool := s.fr.getLsbD signBit

/-- `fr.M <- b`; the other bits of FR are kept (R30). -/
def State.setMode (s : State) (virtual : Bool) : State := { s with fr := putBit s.fr modeBit virtual }

/-- `zext_32(imm24)` (R99). -/
def zext24 (v : BitVec 24) : Word := v.setWidth 32

/-- `zext_32(imm19)` (R100). -/
def zext19 (v : BitVec 19) : Word := v.setWidth 32

end Sys2Proof.Machine
end

