-- ==== Sys2Proof/Machine/Ops.lean ====
section
/-! DEFINITION. The shared operations over memory and registers: physical accesses, translation, translated accesses, fetch,
taking an interrupt and returning from one (spec/20_memory.md, spec/60_exceptions.md). -/

namespace Sys2Proof.Machine

/-- How an instruction's body ends when it does not complete: the pseudocode's `raise Interrupt(c)` and
`MachineFault(reason)` (spec/00_scope.md R10). An operation that can only end in a `MachineFault` has `Fault` for its error. -/
inductive Raise where
  | interrupt (code : Nat)
  | machineFault (reason : Fault)
  deriving DecidableEq, Repr

/-- An operation whose only stop is a `MachineFault`, inside one that may also raise an interrupt. -/
def orFault {α : Type} : Except Fault α → Except Raise α
  | .ok a => .ok a
  | .error f => .error (.machineFault f)

/-! ## Physical accessors (spec/20_memory.md R54 to R57) -/

/-- `PhysRead(pa, 4)` (R54). -/
def physReadWord (pa : Nat) (s : State) : Except Fault Word :=
  if pa < ramSize then .ok (s.mem.readWord pa) else .error .outOfRange

/-- `PhysWrite(pa, 4, v)` (R54). -/
def physWriteWord (pa : Nat) (v : Word) (s : State) : Except Fault State :=
  if pa < ramSize then .ok { s with mem := s.mem.writeWord pa v } else .error .outOfRange

/-- `PhysRead(pa, 1)` (R56). -/
def physReadByte (pa : Nat) (s : State) : Except Fault Byte :=
  if pa < ramSize then .ok (s.mem.readByte pa) else .error .outOfRange

/-- `PhysWrite(pa, 1, b)` (R56). -/
def physWriteByte (pa : Nat) (b : Byte) (s : State) : Except Fault State :=
  if pa < ramSize then .ok { s with mem := s.mem.writeByte pa b } else .error .outOfRange

/-- Words read at each of the addresses, in order. -/
def physReadWords : List Nat → State → Except Fault (List Word)
  | [], _ => .ok []
  | pa :: pas, s =>
    match physReadWord pa s with
    | .error e => .error e
    | .ok w =>
      match physReadWords pas s with
      | .error e => .error e
      | .ok ws => .ok (w :: ws)

/-- Words written at the addresses paired with them, in order. -/
def physWriteWords : List (Nat × Word) → State → Except Fault State
  | [], s => .ok s
  | (pa, w) :: rest, s =>
    match physWriteWord pa w s with
    | .error e => .error e
    | .ok t => physWriteWords rest t

/-! ## Translation (spec/20_memory.md R64 to R66) -/

/-- What `Translate` returns (R66). A physical address is an unbounded integer there. -/
inductive Translation where
  | mapped (pa : Nat)
  | pageFault
  deriving DecidableEq, Repr

/-- The valid bit of a page-table entry (R65). -/
def entryValid (entry : Word) : Bool := entry.getLsbD 0

/-- The physical page index of a page-table entry, bits 31:1 (R65). -/
def entryPage (entry : Word) : Nat := (entry >>> 1).toNat

/-- The physical address of the entry of a virtual page in the table at `ptbr` (R64). -/
def entryAddr (ptbr : Word) (vpage : Nat) : Nat := ptbr.toNat + 4 + 4 * vpage

/-- `Translate(va)` under the current mode (R66). -/
def translate (va : Word) (s : State) : Except Fault Translation :=
  if s.isVirtual then
    match physReadWord s.ptbr.toNat s with
    | .error e => .error e
    | .ok length =>
      if length.toNat ≤ va.toNat / pageSize then .ok .pageFault
      else
        match physReadWord (entryAddr s.ptbr (va.toNat / pageSize)) s with
        | .error e => .error e
        | .ok entry =>
          if entryValid entry then .ok (.mapped (entryPage entry * pageSize + va.toNat % pageSize))
          else .ok .pageFault
  else .ok (.mapped va.toNat)

/-- `Translate`, with a page fault raised as interrupt 3: the first half of `MemRead` and `MemWrite` (R58, R59). -/
def resolve (va : Word) (s : State) : Except Raise Nat :=
  match translate va s with
  | .error f => .error (.machineFault f)
  | .ok .pageFault => .error (.interrupt pageFaultCode)
  | .ok (.mapped pa) => .ok pa

/-- `Translate` of every address before any of them is judged (R69, spec/43_memory_ops.md R182, R183). -/
def translateAll : List Word → State → Except Fault (List Translation)
  | [], _ => .ok []
  | va :: vas, s =>
    match translate va s with
    | .error e => .error e
    | .ok t =>
      match translateAll vas s with
      | .error e => .error e
      | .ok ts => .ok (t :: ts)

/-- The physical addresses, if no translation is a page fault. -/
def allMapped : List Translation → Option (List Nat)
  | [] => some []
  | .pageFault :: _ => none
  | .mapped pa :: ts =>
    match allMapped ts with
    | none => none
    | some pas => some (pa :: pas)

/-- All the addresses translated first; then, if any is a page fault, interrupt 3 (R69). -/
def resolveAll (vas : List Word) (s : State) : Except Raise (List Nat) :=
  match translateAll vas s with
  | .error f => .error (.machineFault f)
  | .ok ts =>
    match allMapped ts with
    | none => .error (.interrupt pageFaultCode)
    | some pas => .ok pas

/-! ## Translated accessors (spec/20_memory.md R58, R59) -/

/-- `MemRead(addr, 4)`. -/
def memReadWord (addr : Word) (s : State) : Except Raise Word :=
  match resolve addr s with
  | .error e => .error e
  | .ok pa => orFault (physReadWord pa s)

/-- `MemWrite(addr, 4, v)`. -/
def memWriteWord (addr v : Word) (s : State) : Except Raise State :=
  match resolve addr s with
  | .error e => .error e
  | .ok pa => orFault (physWriteWord pa v s)

/-- `MemRead(addr, 1)`. -/
def memReadByte (addr : Word) (s : State) : Except Raise Byte :=
  match resolve addr s with
  | .error e => .error e
  | .ok pa => orFault (physReadByte pa s)

/-- `MemWrite(addr, 1, b)`. -/
def memWriteByte (addr : Word) (b : Byte) (s : State) : Except Raise State :=
  match resolve addr s with
  | .error e => .error e
  | .ok pa => orFault (physWriteByte pa b s)

/-- `MemRead(addr, 4)` of each address, in order. -/
def memReadWords : List Word → State → Except Raise (List Word)
  | [], _ => .ok []
  | va :: vas, s =>
    match memReadWord va s with
    | .error e => .error e
    | .ok w =>
      match memReadWords vas s with
      | .error e => .error e
      | .ok ws => .ok (w :: ws)

/-- The addresses of `n` words in a row from `base`, in the 32-bit address arithmetic of the stack instructions. -/
def wordsFrom (base : Word) (n : Nat) : List Word := (List.range n).map (fun i => base + BitVec.ofNat 32 (4 * i))

/-! ## The stack (spec/10_state.md R24) -/

/-- Write at `sp`, then `sp` advances by 4 (PUSH, CALL). -/
def pushWord (v : Word) (s : State) : Except Raise State :=
  match memWriteWord s.sp v s with
  | .error e => .error e
  | .ok t => .ok { t with sp := s.sp + 4#32 }

/-- Read at `sp - 4`, which `sp` becomes (POP, RET). -/
def popWord (s : State) : Except Raise (Word × State) :=
  match memReadWord (s.sp - 4#32) s with
  | .error e => .error e
  | .ok v => .ok (v, { s with sp := s.sp - 4#32 })

/-! ## Fetch (spec/10_state.md R32, R33; spec/60_exceptions.md R222) -/

/-- The instruction word at `pc`, translated as a data access is (spec/20_memory.md R68). -/
def fetchWord (s : State) : Except Raise Word := memReadWord s.pc s

/-- `pc <- wrap32(pc + 4)` (R32). -/
def advancePc (s : State) : State := { s with pc := s.pc + 4#32 }

/-! ## Taking an interrupt (spec/60_exceptions.md R230 to R234) -/

/-- Step (b): from virtual mode, `pc` and `sp` go to the virtual slots and `sp` comes from the real one (R232). -/
def leaveVirtualStack (s : State) : Except Fault State :=
  if s.isVirtual then
    match physWriteWords [(virtPcSlot, s.pc), (virtSpSlot, s.sp)] s with
    | .error e => .error e
    | .ok t =>
      match physReadWord realSpSlot t with
      | .error e => .error e
      | .ok v => .ok { t with sp := v }
  else .ok s

/-- The ten words of the frame and where they go, ascending from `sp` (R233). -/
def frameCells (s : State) : List (Nat × Word) :=
  let b := s.sp.toNat
  [ (b, s.r0), (b + 4, s.r1), (b + 8, s.r2), (b + 12, s.r3), (b + 16, s.r4), (b + 20, s.r5), (b + 24, s.r6), (b + 28, s.r7),
    (b + 32, s.fr), (b + 36, s.pc) ]

/-- Step (c): the frame, by physical writes, then `sp` advances by 40 (R233). -/
def pushFrame (s : State) : Except Fault State :=
  match physWriteWords (frameCells s) s with
  | .error e => .error e
  | .ok t => .ok { t with sp := s.sp + 40#32 }

/-- Steps (b) to (e) for a code, which the step's output then names (R230, R234; spec/70_reset_and_hazards.md R272). -/
def deliver (code : Nat) (s : State) : Except Fault State :=
  match leaveVirtualStack s with
  | .error e => .error e
  | .ok s1 =>
    match pushFrame s1 with
    | .error e => .error e
    | .ok s2 =>
      match physReadWord (vectorAddr code) (s2.setMode false) with
      | .error e => .error e
      | .ok v => .ok { s2.setMode false with pc := v, raised := some code }

/-- What the register of step (a) takes: the physical address, or, where that does not fit 32 bits, a free value
(log entry 12). -/
def pointerWord (pa : Nat) : Word := if pa < 2 ^ 32 then BitVec.ofNat 32 pa else Config.widePointer pa

/-- Step (a): for a code of `PTR_XLATE_CODES` the pointer is translated under the current mode; if it does not translate,
the entry is a page fault's, which skips step (a) (R231). The code and the state that steps (b) to (e) go on with. -/
def translatePointer (code : Nat) (s : State) : Except Fault (Nat × State) :=
  if code ∈ ptrXlateCodes then
    match translate (s.reg ptrXlateReg) s with
    | .error e => .error e
    | .ok .pageFault => .ok (pageFaultCode, s)
    | .ok (.mapped pa) => .ok (code, s.setReg ptrXlateReg (pointerWord pa))
  else .ok (code, s)

/-- All of `InterruptEntry(code)` as an operation (R230). -/
def enterInterrupt (code : Nat) (s : State) : Except Fault State :=
  match translatePointer code s with
  | .error e => .error e
  | .ok (c, t) => deliver c t

/-- `InterruptEntry(code)`: the uniform entry sequence, the one way any interrupt is taken (R220, R230). -/
def interruptEntry (code : Nat) (s : State) : Result :=
  match enterInterrupt code s with
  | .ok t => .next t
  | .error f => .fault f

/-- An instruction's body run on the state after the fetch: `raise Interrupt(c)` abandons it with none of its effects and
enters the interrupt from that same state (spec/00_scope.md R10, spec/60_exceptions.md R235). -/
def perform (body : State → Except Raise State) (s : State) : Result :=
  match body s with
  | .ok t => .next t
  | .error (.interrupt code) => interruptEntry code s
  | .error (.machineFault reason) => .fault reason

/-! ## Returning from an interrupt (spec/43_memory_ops.md R184, spec/60_exceptions.md R236) -/

/-- The end of POPINT: from a frame of virtual mode, the real `sp` goes to its slot and `sp` comes from the virtual one. -/
def resumeStack (savedFr : Word) (s : State) : Except Fault State :=
  if savedFr.getLsbD modeBit then
    match physWriteWord realSpSlot s.sp s with
    | .error e => .error e
    | .ok t =>
      match physReadWord virtSpSlot t with
      | .error e => .error e
      | .ok v => .ok { t with sp := v }
  else .ok s

/-- The ten words at `sp - 40` popped into R0 to R7, FR and `pc`, and the interrupted stack resumed (R184). -/
def popFrame (s : State) : Except Raise State :=
  match memReadWords (wordsFrom (s.sp - 40#32) 10) s with
  | .error e => .error e
  | .ok ws =>
    match resumeStack (ws.getD 8 0#32) { s.setGprs (ws.take 8) with sp := s.sp - 40#32 } with
    | .error f => .error (.machineFault f)
    | .ok t => .ok { t with fr := ws.getD 8 0#32, pc := ws.getD 9 0#32 }

/-! ## Mode switches (spec/44_machine_state.md R203 to R205) -/

/-- ENTER's effect: real `pc` and `sp` saved, virtual ones loaded, M set (R203). -/
def enterVirtual (s : State) : Except Fault State :=
  match physWriteWords [(realPcSlot, s.pc), (realSpSlot, s.sp)] s with
  | .error e => .error e
  | .ok t =>
    match physReadWords [virtPcSlot, virtSpSlot] t with
    | .error e => .error e
    | .ok ws => .ok ({ t with pc := ws.getD 0 0#32, sp := ws.getD 1 0#32 }.setMode true)

/-- EXIT's effect: real `pc` and `sp` loaded, M cleared (R204). -/
def leaveVirtual (s : State) : Except Fault State :=
  match physReadWords [realPcSlot, realSpSlot] s with
  | .error e => .error e
  | .ok ws => .ok ({ s with pc := ws.getD 0 0#32, sp := ws.getD 1 0#32 }.setMode false)

end Sys2Proof.Machine
end

