-- ==== Sys2Proof/Machine/Arithmetic.lean ====
section
/-! DEFINITION. The arithmetic family: ADD, SUB, MUL, DIV, CMP (spec/40_arithmetic.md). -/

namespace Sys2Proof.Machine

/-- The end of an arithmetic instruction with the wide result: the wrapped result written, flags set (R121, R122). -/
def writeArith (rd : Reg) (wide : Int) (s : State) : State :=
  let t := s.setReg rd (wrap32 wide)
  { t with fr := setFlagsArith wide (wrap32 wide) t.fr }

/-- `ADD Rd, Rs` (R124). -/
def execAdd (rd rs : Reg) (s : State) : Result :=
  .next (writeArith rd ((s.reg rd).toInt + (s.reg rs).toInt) s)

/-- `SUB Rd, Rs` (R125). -/
def execSub (rd rs : Reg) (s : State) : Result :=
  .next (writeArith rd ((s.reg rd).toInt - (s.reg rs).toInt) s)

/-- `MUL Rd, Rs` (R126). -/
def execMul (rd rs : Reg) (s : State) : Result :=
  .next (writeArith rd ((s.reg rd).toInt * (s.reg rs).toInt) s)

/-- `DIV Rd, Rs` (R127): a zero divisor raises interrupt 0; the quotient is rounded toward zero. -/
def execDiv (rd rs : Reg) (s : State) : Result :=
  if s.reg rs = 0#32 then interruptEntry divideByZeroCode s
  else .next (writeArith rd ((s.reg rd).toInt.tdiv (s.reg rs).toInt) s)

/-- `CMP Ra, Rb` (R128): the flags of SUB, no register written. -/
def execCmp (ra rb : Reg) (s : State) : Result :=
  let wide := (s.reg ra).toInt - (s.reg rb).toInt
  .next { s with fr := setFlagsArith wide (wrap32 wide) s.fr }

end Sys2Proof.Machine
end

