-- ==== Sys2Proof/Machine/ControlFlow.lean ====
section
/-! DEFINITION. The control-flow family: JMP, JC, JE, JNE, JNC, JL, JM, LOOP, CALL, RET (spec/42_control_flow.md). `pc` already
holds the address of the next instruction when one of them executes (R150). -/

namespace Sys2Proof.Machine

/-- `pc <- target` if the jump is taken, else `pc` as it is (R150). -/
def jumpIf (taken : Bool) (target : Word) (s : State) : State := if taken then { s with pc := target } else s

/-- `JMP target` (R152). -/
def execJmp (target : BitVec 24) (s : State) : Result := .next (jumpIf true (zext24 target) s)

/-- `JC target` (R153). -/
def execJc (target : BitVec 24) (s : State) : Result := .next (jumpIf s.carry (zext24 target) s)

/-- `JE target` (R154). -/
def execJe (target : BitVec 24) (s : State) : Result := .next (jumpIf s.zero (zext24 target) s)

/-- `JNE target` (R155). -/
def execJne (target : BitVec 24) (s : State) : Result := .next (jumpIf (!s.zero) (zext24 target) s)

/-- `JNC target` (R156). -/
def execJnc (target : BitVec 24) (s : State) : Result := .next (jumpIf (!s.carry) (zext24 target) s)

/-- `JL target` (R157). -/
def execJl (target : BitVec 24) (s : State) : Result := .next (jumpIf s.sign (zext24 target) s)

/-- `JM target` (R158). -/
def execJm (target : BitVec 24) (s : State) : Result := .next (jumpIf (!s.sign && !s.zero) (zext24 target) s)

/-- `LOOP Rc, target` (R159): decremented first, taken while the new value is not zero; no flag written. -/
def execLoop (rc : Reg) (target : BitVec 19) (s : State) : Result :=
  let v := s.reg rc - 1#32
  .next (jumpIf (v != 0#32) (zext19 target) (s.setReg rc v))

/-- `CALL target` (R162). -/
def execCall (target : BitVec 24) (s : State) : Result :=
  perform (fun s =>
    match pushWord s.pc s with
    | .error e => .error e
    | .ok t => .ok { t with pc := zext24 target }) s

/-- `RET` (R163). -/
def execRet (s : State) : Result :=
  perform (fun s =>
    match popWord s with
    | .error e => .error e
    | .ok (v, t) => .ok { t with pc := v }) s

end Sys2Proof.Machine
end

