-- ==== Sys2Proof/Machine/Logical.lean ====
section
/-! DEFINITION. The logical family: NEG, AND, OR, XOR (spec/41_logical.md). -/

namespace Sys2Proof.Machine

/-- The end of a logical instruction: the result written, Z and S set, C kept (R141). -/
def writeLogic (rd : Reg) (res : Word) (s : State) : State :=
  let t := s.setReg rd res
  { t with fr := setFlagsLogic res t.fr }

/-- What NEG computes under each `NEG_MODE` (R142). -/
def negate (mode : NegMode) (v : Word) : Word :=
  match mode with
  | .bitwiseNot => ~~~v
  | .twosComplement => wrap32 (-v.toInt)

/-- `NEG Rd` (R142). -/
def execNeg (rd : Reg) (s : State) : Result := .next (writeLogic rd (negate negMode (s.reg rd)) s)

/-- `AND Rd, Rs` (R143). -/
def execAnd (rd rs : Reg) (s : State) : Result := .next (writeLogic rd (s.reg rd &&& s.reg rs) s)

/-- `OR Rd, Rs` (R144). -/
def execOr (rd rs : Reg) (s : State) : Result := .next (writeLogic rd (s.reg rd ||| s.reg rs) s)

/-- `XOR Rd, Rs` (R145). -/
def execXor (rd rs : Reg) (s : State) : Result := .next (writeLogic rd (s.reg rd ^^^ s.reg rs) s)

end Sys2Proof.Machine
end

