-- ==== Sys2Proof/Machine/MachineState.lean ====
section
/-! DEFINITION. The machine-state family: INT, ENTER, EXIT, HALT (spec/44_machine_state.md). -/

namespace Sys2Proof.Machine

/-- `INT code` (R202). -/
def execInt (code : BitVec 24) (s : State) : Result := interruptEntry (zext24 code).toNat s

/-- `ENTER`: interrupt 2 in virtual mode (R203). -/
def execEnter (s : State) : Result :=
  if s.isVirtual then interruptEntry invalidOpcodeCode s else perform (fun s => orFault (enterVirtual s)) s

/-- `EXIT`: interrupt 2 in real mode (R204). -/
def execExit (s : State) : Result :=
  if s.isVirtual then perform (fun s => orFault (leaveVirtual s)) s else interruptEntry invalidOpcodeCode s

/-- What HALT does in real mode under each `HALT_REAL` (R205). -/
def haltInRealMode (mode : HaltReal) (s : State) : Result :=
  match mode with
  | .stop => .next { s with halted := true }
  | .invalid => interruptEntry invalidOpcodeCode s

/-- `HALT`: in virtual mode exactly EXIT (R205). -/
def execHalt (s : State) : Result :=
  if s.isVirtual then perform (fun s => orFault (leaveVirtual s)) s else haltInRealMode haltReal s

end Sys2Proof.Machine
end

