-- ==== Sys2Proof/Machine/MemoryOps.lean ====
section
/-! DEFINITION. The memory family: LOAD, STORE, LOADB, STOREB, MOV, MOVD, PUSH, POP, PUSHALL, POPALL, POPINT
(spec/43_memory_ops.md). -/

namespace Sys2Proof.Machine

/-- `LOAD Rd, Ra` (R174). -/
def execLoad (rd ra : Reg) (s : State) : Result :=
  perform (fun s =>
    match memReadWord (s.reg ra) s with
    | .error e => .error e
    | .ok v => .ok (s.setReg rd v)) s

/-- `STORE Ra, Rs` (R175). -/
def execStore (ra rs : Reg) (s : State) : Result := perform (fun s => memWriteWord (s.reg ra) (s.reg rs) s) s

/-- `LOADB Rd, Ra`: the byte is zero-extended (R176). -/
def execLoadb (rd ra : Reg) (s : State) : Result :=
  perform (fun s =>
    match memReadByte (s.reg ra) s with
    | .error e => .error e
    | .ok b => .ok (s.setReg rd (b.setWidth 32))) s

/-- `STOREB Ra, Rs`: the low 8 bits of Rs (R177). -/
def execStoreb (ra rs : Reg) (s : State) : Result :=
  perform (fun s => memWriteByte (s.reg ra) ((s.reg rs).extractLsb' 0 8) s) s

/-- `MOV Xd, Xs` (R178). -/
def execMov (xd xs : Reg) (s : State) : Result := .next (s.setReg xd (s.reg xs))

/-- `MOVD Rd, value` (R179). -/
def execMovd (rd : Reg) (value : BitVec 19) (s : State) : Result := .next (s.setReg rd (zext19 value))

/-- `PUSH Rs` (R180). -/
def execPush (rs : Reg) (s : State) : Result := perform (fun s => pushWord (s.reg rs) s) s

/-- `POP Rd` (R181). -/
def execPop (rd : Reg) (s : State) : Result :=
  perform (fun s =>
    match popWord s with
    | .error e => .error e
    | .ok (v, t) => .ok (t.setReg rd v)) s

/-- `PUSHALL`: R0 lowest, all eight addresses translated first (R182). -/
def execPushall (s : State) : Result :=
  perform (fun s =>
    match resolveAll (wordsFrom s.sp 8) s with
    | .error e => .error e
    | .ok pas =>
      match physWriteWords (pas.zip s.gprs) s with
      | .error f => .error (.machineFault f)
      | .ok t => .ok { t with sp := s.sp + 32#32 }) s

/-- `POPALL`: the inverse of PUSHALL (R183). -/
def execPopall (s : State) : Result :=
  perform (fun s =>
    match resolveAll (wordsFrom (s.sp - 32#32) 8) s with
    | .error e => .error e
    | .ok pas =>
      match physReadWords pas s with
      | .error f => .error (.machineFault f)
      | .ok ws => .ok { s.setGprs ws with sp := s.sp - 32#32 }) s

/-- `POPINT`: the return from an interrupt; interrupt 2 in virtual mode (R184). -/
def execPopint (s : State) : Result :=
  if s.isVirtual then interruptEntry invalidOpcodeCode s else perform popFrame s

end Sys2Proof.Machine
end

