-- ==== Sys2Proof/Machine/Dispatch.lean ====
section
/-! DEFINITION. One arm per instruction: the meaning it runs. -/

namespace Sys2Proof.Machine

open Sys2Proof

def exec (i : Instr) (s : State) : Host.Outcome State Fault Refusal :=
  match i with
  -- arithmetic family
  | .add rd rs => Sys2Proof.Machine.execAdd rd rs s
  | .sub rd rs => Sys2Proof.Machine.execSub rd rs s
  | .mul rd rs => Sys2Proof.Machine.execMul rd rs s
  | .div rd rs => Sys2Proof.Machine.execDiv rd rs s
  | .cmp ra rb => Sys2Proof.Machine.execCmp ra rb s
  -- logical family
  | .neg rd => Sys2Proof.Machine.execNeg rd s
  | .and rd rs => Sys2Proof.Machine.execAnd rd rs s
  | .or rd rs => Sys2Proof.Machine.execOr rd rs s
  | .xor rd rs => Sys2Proof.Machine.execXor rd rs s
  -- control-flow family
  | .jmp target => Sys2Proof.Machine.execJmp target s
  | .jc target => Sys2Proof.Machine.execJc target s
  | .je target => Sys2Proof.Machine.execJe target s
  | .jne target => Sys2Proof.Machine.execJne target s
  | .jnc target => Sys2Proof.Machine.execJnc target s
  | .jl target => Sys2Proof.Machine.execJl target s
  | .jm target => Sys2Proof.Machine.execJm target s
  | .loop rc target => Sys2Proof.Machine.execLoop rc target s
  | .call target => Sys2Proof.Machine.execCall target s
  | .ret => Sys2Proof.Machine.execRet s
  -- memory family
  | .load rd ra => Sys2Proof.Machine.execLoad rd ra s
  | .store ra rs => Sys2Proof.Machine.execStore ra rs s
  | .loadb rd ra => Sys2Proof.Machine.execLoadb rd ra s
  | .storeb ra rs => Sys2Proof.Machine.execStoreb ra rs s
  | .mov xd xs => Sys2Proof.Machine.execMov xd xs s
  | .movd rd value => Sys2Proof.Machine.execMovd rd value s
  | .push rs => Sys2Proof.Machine.execPush rs s
  | .pop rd => Sys2Proof.Machine.execPop rd s
  | .pushall => Sys2Proof.Machine.execPushall s
  | .popall => Sys2Proof.Machine.execPopall s
  | .popint => Sys2Proof.Machine.execPopint s
  -- machine-state family
  | .int code => Sys2Proof.Machine.execInt code s
  | .enter => Sys2Proof.Machine.execEnter s
  | .exit => Sys2Proof.Machine.execExit s
  | .halt => Sys2Proof.Machine.execHalt s

end Sys2Proof.Machine
end

