-- ==== Sys2Proof/Machine/Cycle.lean ====
section
/-! DEFINITION. One step of the core (spec/60_exceptions.md R222, R229), and the placing of an instruction where the next
step fetches. -/

namespace Sys2Proof.Machine

/-- An instruction word run on the state after the fetch: an invalid opcode is interrupt 2 (R222, spec/30_encoding.md R103,
R104). -/
def runWord (w : Word) (s : State) : Result :=
  match decode w with
  | .error _ => interruptEntry invalidOpcodeCode s
  | .ok i => exec i s

/-- The fetch, and the word it gives run on the state whose `pc` has advanced; a fetch page fault leaves `pc` as it was
(R222, R240). -/
def fetchAndRun (s : State) : Result :=
  match fetchWord s with
  | .error (.interrupt code) => interruptEntry code s
  | .error (.machineFault reason) => .fault reason
  | .ok w => runWord w (advancePc s)

/-- One step: none when halted; the oldest pending interrupt if there is one; else an instruction (R222). The step's output
starts empty (spec/70_reset_and_hazards.md R272). -/
def cycle (s : State) : Result :=
  if s.halted then .fault .halted
  else
    match s.irq with
    | code :: rest => interruptEntry code { s with irq := rest, raised := none }
    | [] => fetchAndRun { s with raised := none }

/-- `s` with the word `w` at the physical address that its `pc` translates to, not halted and with no interrupt pending, so
that the next step fetches `w`; where `pc` translates to no address of RAM there is no such place, and RAM is left as it is. -/
def placeWord (w : Word) (s : State) : State :=
  match resolve s.pc s with
  | .error _ => { s with halted := false, irq := [] }
  | .ok pa =>
    match physWriteWord pa w s with
    | .error _ => { s with halted := false, irq := [] }
    | .ok t => { t with halted := false, irq := [] }

end Sys2Proof.Machine
end

