-- ==== Sys2Proof/Machine/Step.lean ====
section
/-! DEFINITION. The machine's step, and a state with a given instruction where the step fetches. -/

namespace Sys2Proof.Machine

/-- One step of the core (spec/60_exceptions.md R222). -/
def step (s : State) : Host.Outcome State Fault Refusal := cycle s

/-- `s` with the instruction whose bits are `w`, `nbits` of them given and the rest 0, where `step` fetches next. A program
reaches RAM from outside the machine (spec/70_reset_and_hazards.md R261, R263); this stands for that load. Log entry 18. -/
def State.withFetchWord (s : State) (nbits w : Nat) : State := placeWord (BitVec.ofNat 32 (w % 2 ^ nbits)) s

end Sys2Proof.Machine
end

