-- ==== Sys2Proof/Machine/Environment.lean ====
section
/-! DEFINITION. What acts on the machine between two steps: the host and the hardware watchers
(spec/70_reset_and_hazards.md R270 to R274, spec/60_exceptions.md R224 to R226, spec/20_memory.md R62, R76). The core's own
step never calls anything here. -/

namespace Sys2Proof.Machine

/-! ## Contexts (spec/70_reset_and_hazards.md R271) -/

/-- A context: the twelve registers, and neither `halted` nor `irq` (R271). -/
structure Context where
  r0 : Word
  r1 : Word
  r2 : Word
  r3 : Word
  r4 : Word
  r5 : Word
  r6 : Word
  r7 : Word
  sp : Word
  pc : Word
  ptbr : Word
  fr : Word
  deriving DecidableEq, Repr

/-- The twelve registers read out (R271). -/
def storeContext (s : State) : Context :=
  { r0 := s.r0, r1 := s.r1, r2 := s.r2, r3 := s.r3, r4 := s.r4, r5 := s.r5, r6 := s.r6, r7 := s.r7
    sp := s.sp, pc := s.pc, ptbr := s.ptbr, fr := s.fr }

/-- The twelve registers overwritten, verbatim (R271). -/
def loadContext (c : Context) (s : State) : State :=
  { s with r0 := c.r0, r1 := c.r1, r2 := c.r2, r3 := c.r3, r4 := c.r4, r5 := c.r5, r6 := c.r6, r7 := c.r7
           sp := c.sp, pc := c.pc, ptbr := c.ptbr, fr := c.fr }

/-! ## Device cells and watchers -/

/-- The memory-mapped cells the spec lists (spec/20_memory.md R62). To the core they are ordinary RAM. -/
inductive DeviceCell where
  | wallclock
  | kbdLatch
  | termLatch
  | storageWrite
  | storageRead
  deriving DecidableEq, Repr

/-- Where a cell starts: `OPEN` (R62). -/
def DeviceCell.base : DeviceCell → Nat
  | .wallclock => Config.deviceMap.wallclockAddr
  | .kbdLatch => Config.deviceMap.kbdLatchAddr
  | .termLatch => Config.deviceMap.termLatchAddr
  | .storageWrite => Config.deviceMap.storageWrBase
  | .storageRead => Config.deviceMap.storageRdBase

/-- How many bytes a cell has: one word for the clock (spec/60_exceptions.md R247), one byte for a latch, 1 + 4 + 4096 for a
storage region (R62). -/
def DeviceCell.size : DeviceCell → Nat
  | .wallclock => 4
  | .kbdLatch => 1
  | .termLatch => 1
  | .storageWrite => 4101
  | .storageRead => 4101

/-- The byte at `pa` belongs to the cell. -/
def DeviceCell.holds (c : DeviceCell) (pa : Nat) : Bool := decide (c.base ≤ pa ∧ pa < c.base + c.size)

/-- The watchers that raise interrupts (spec/60_exceptions.md R224). -/
inductive Watcher where
  | keyboard
  | timer
  | storageWrite
  | storageRead
  deriving DecidableEq, Repr

/-- The code a watcher raises (spec/60_exceptions.md R221, R224). -/
def Watcher.code : Watcher → Nat
  | .keyboard => 1
  | .timer => 5
  | .storageWrite => 6
  | .storageRead => 7

/-- `irq <- irq ++ [c]` (spec/60_exceptions.md R225). -/
def enqueue (code : Nat) (s : State) : State := { s with irq := s.irq ++ [code] }

/-! ## Moves -/

/-- What may happen between two steps, one atomic move at a time (spec/20_memory.md R75, R76; R270). -/
inductive Move where
  /-- A watcher enqueues its code (spec/60_exceptions.md R225). -/
  | watcherRaise (w : Watcher)
  /-- A watcher writes one byte of a device cell (spec/20_memory.md R76). -/
  | watcherByte (c : DeviceCell) (pa : Nat) (b : Byte)
  /-- A watcher writes one word of a device cell (spec/20_memory.md R76). -/
  | watcherWord (c : DeviceCell) (pa : Nat) (v : Word)
  /-- The host enqueues any code (spec/60_exceptions.md R226, R274). -/
  | hostRaise (code : Nat)
  /-- The host loads a context (R271). -/
  | hostContext (c : Context)
  /-- The host writes one byte of RAM (R273). -/
  | hostByte (pa : Nat) (b : Byte)
  /-- The host writes one word of RAM (R273). -/
  | hostWord (pa : Nat) (v : Word)
  /-- The host clears `halted` (R272). -/
  | clearHalted
  /-- Reset (R260). -/
  | reset
  deriving DecidableEq, Repr

/-- A physical access as a result. -/
def ofAccess : Except Fault State → Result
  | .ok t => .next t
  | .error f => .fault f

/-- A move's effect. A watcher writes only inside its cell; any other write of a watcher is no move and changes nothing
(spec/20_memory.md R76). -/
def applyMove (m : Move) (s : State) : Result :=
  match m with
  | .watcherRaise w => .next (enqueue w.code s)
  | .watcherByte c pa b => if c.holds pa then ofAccess (physWriteByte pa b s) else .next s
  | .watcherWord c pa v =>
    if c.holds (wordBase pa) && c.holds (wordBase pa + 3) then ofAccess (physWriteWord pa v s) else .next s
  | .hostRaise code => .next (enqueue code s)
  | .hostContext c => .next (loadContext c s)
  | .hostByte pa b => ofAccess (physWriteByte pa b s)
  | .hostWord pa v => ofAccess (physWriteWord pa v s)
  | .clearHalted => .next { s with halted := false }
  | .reset => .next State.reset

/-! ## What the host does with them -/

/-- The host's call of the entry point: the code enqueued, then at once a step (spec/60_exceptions.md R226). -/
def callEntry (code : Nat) (s : State) : Result := step (enqueue code s)

/-- "load context / execute one": the context to store back is `storeContext` of the next state, and the code the step raised
is its `raised` (R271, R272). -/
def executeOne (c : Context) (s : State) : Result := step (loadContext c s)

/-- A dump restored on startup: the registers, if it has them, and the RAM cells of it (R262). -/
def restoreDump (c : Option Context) (cells : List Host.Cell) (s : State) : Result :=
  let t := match c with
    | none => s
    | some c => loadContext c s
  cells.foldl (fun r cell =>
    match r with
    | .next u => ofAccess (physWriteByte cell.1 cell.2 u)
    | .fault f => .fault f
    | .refused q => .refused q) (.next t)

/-! ## The core among the other agents -/

/-- One thing that happens: a step of the core or a move (spec/00_scope.md R13). -/
inductive Event where
  | core
  | move (m : Move)
  deriving DecidableEq, Repr

/-- An event's effect. -/
def advance (e : Event) (s : State) : Result :=
  match e with
  | .core => step s
  | .move m => applyMove m s

/-- Events in order, up to the first that stops. A claim about every arrival of interrupts and every write of a watcher is a
claim about every list of events (spec/93_implementation_defined.md U9, U10). -/
def runEvents : List Event → State → Result
  | [], s => .next s
  | e :: es, s =>
    match advance e s with
    | .next t => runEvents es t
    | .fault f => .fault f
    | .refused q => .refused q

end Sys2Proof.Machine
end

