-- ==== Sys2Proof/Safety.lean ====
section
/-! DEFINITION. The terms claims are made in: what a next state keeps, the bytes a store covers, a runnable state, the
invariant, and the opcode table as the spec prints it (spec/30_encoding.md R102). Nothing of the machine calls anything here. -/

namespace Sys2Proof

/-! ## The opcode table as printed -/

/-- The five formats (R93 to R97). -/
inductive Format where
  | n | r | rr | i | ri
  deriving DecidableEq, Repr

/-- One row of the complete map (R102). -/
structure TableRow where
  mnemonic : String
  op : BitVec 8
  format : Format
  mask : Word
  pattern : Word
  deriving DecidableEq, Repr

/-- The rows of R102: arithmetic family. -/
def arithmeticTable : List TableRow :=
  [ ⟨"ADD", 0x10#8, .rr, 0xFFC63FFF#32, 0x10000000#32⟩,
    ⟨"SUB", 0x11#8, .rr, 0xFFC63FFF#32, 0x11000000#32⟩,
    ⟨"MUL", 0x12#8, .rr, 0xFFC63FFF#32, 0x12000000#32⟩,
    ⟨"DIV", 0x13#8, .rr, 0xFFC63FFF#32, 0x13000000#32⟩,
    ⟨"CMP", 0x14#8, .rr, 0xFFC63FFF#32, 0x14000000#32⟩ ]

/-- The rows of R102: logical family. -/
def logicalTable : List TableRow :=
  [ ⟨"NEG", 0x20#8, .r, 0xFFC7FFFF#32, 0x20000000#32⟩,
    ⟨"AND", 0x21#8, .rr, 0xFFC63FFF#32, 0x21000000#32⟩,
    ⟨"OR", 0x22#8, .rr, 0xFFC63FFF#32, 0x22000000#32⟩,
    ⟨"XOR", 0x23#8, .rr, 0xFFC63FFF#32, 0x23000000#32⟩ ]

/-- The rows of R102: control-flow family. -/
def controlFlowTable : List TableRow :=
  [ ⟨"JMP", 0x30#8, .i, 0xFF000000#32, 0x30000000#32⟩,
    ⟨"JC", 0x31#8, .i, 0xFF000000#32, 0x31000000#32⟩,
    ⟨"JE", 0x32#8, .i, 0xFF000000#32, 0x32000000#32⟩,
    ⟨"JNE", 0x33#8, .i, 0xFF000000#32, 0x33000000#32⟩,
    ⟨"JNC", 0x34#8, .i, 0xFF000000#32, 0x34000000#32⟩,
    ⟨"JL", 0x35#8, .i, 0xFF000000#32, 0x35000000#32⟩,
    ⟨"JM", 0x36#8, .i, 0xFF000000#32, 0x36000000#32⟩,
    ⟨"LOOP", 0x37#8, .ri, 0xFFC00000#32, 0x37000000#32⟩,
    ⟨"CALL", 0x38#8, .i, 0xFF000000#32, 0x38000000#32⟩,
    ⟨"RET", 0x39#8, .n, 0xFFFFFFFF#32, 0x39000000#32⟩ ]

/-- The rows of R102: memory family. -/
def memoryTable : List TableRow :=
  [ ⟨"LOAD", 0x40#8, .rr, 0xFFC63FFF#32, 0x40000000#32⟩,
    ⟨"STORE", 0x41#8, .rr, 0xFFC63FFF#32, 0x41000000#32⟩,
    ⟨"LOADB", 0x42#8, .rr, 0xFFC63FFF#32, 0x42000000#32⟩,
    ⟨"STOREB", 0x43#8, .rr, 0xFFC63FFF#32, 0x43000000#32⟩,
    ⟨"MOV", 0x44#8, .rr, 0xFF843FFF#32, 0x44000000#32⟩,
    ⟨"MOVD", 0x45#8, .ri, 0xFFC00000#32, 0x45000000#32⟩,
    ⟨"PUSH", 0x46#8, .r, 0xFFC7FFFF#32, 0x46000000#32⟩,
    ⟨"POP", 0x47#8, .r, 0xFFC7FFFF#32, 0x47000000#32⟩,
    ⟨"PUSHALL", 0x48#8, .n, 0xFFFFFFFF#32, 0x48000000#32⟩,
    ⟨"POPALL", 0x49#8, .n, 0xFFFFFFFF#32, 0x49000000#32⟩,
    ⟨"POPINT", 0x4A#8, .n, 0xFFFFFFFF#32, 0x4A000000#32⟩ ]

/-- The rows of R102: machine-state family. -/
def machineStateTable : List TableRow :=
  [ ⟨"INT", 0x50#8, .i, 0xFF000000#32, 0x50000000#32⟩,
    ⟨"ENTER", 0x51#8, .n, 0xFFFFFFFF#32, 0x51000000#32⟩,
    ⟨"EXIT", 0x52#8, .n, 0xFFFFFFFF#32, 0x52000000#32⟩,
    ⟨"HALT", 0x53#8, .n, 0xFFFFFFFF#32, 0x53000000#32⟩ ]

/-- The complete map (R102). -/
def opcodeTable : List TableRow :=
  arithmeticTable ++ logicalTable ++ controlFlowTable ++ memoryTable ++ machineStateTable

/-- The fields of a word that are meaningful in a format, first to last (R93 to R97, R103). -/
def Format.fieldsOf (f : Format) (w : Word) : List Nat :=
  match f with
  | .n => []
  | .r => [(w.extractLsb' 19 5).toNat]
  | .rr => [(w.extractLsb' 19 5).toNat, (w.extractLsb' 14 5).toNat]
  | .i => [(w.extractLsb' 0 24).toNat]
  | .ri => [(w.extractLsb' 19 5).toNat, (w.extractLsb' 0 19).toNat]

/-- The number a register operand is coded by (spec/10_state.md R22). -/
def Reg.number : Reg → Nat
  | .r0 => 0
  | .r1 => 1
  | .r2 => 2
  | .r3 => 3
  | .r4 => 4
  | .r5 => 5
  | .r6 => 6
  | .r7 => 7
  | .sp => 8
  | .pc => 9
  | .ptbr => 10
  | .fr => 11

/-- The operands of an instruction as numbers, first to last. -/
def Instr.operands : Instr → List Nat
  | .add rd rs => [rd.number, rs.number]
  | .sub rd rs => [rd.number, rs.number]
  | .mul rd rs => [rd.number, rs.number]
  | .div rd rs => [rd.number, rs.number]
  | .cmp ra rb => [ra.number, rb.number]
  | .neg rd => [rd.number]
  | .and rd rs => [rd.number, rs.number]
  | .or rd rs => [rd.number, rs.number]
  | .xor rd rs => [rd.number, rs.number]
  | .jmp t => [t.toNat]
  | .jc t => [t.toNat]
  | .je t => [t.toNat]
  | .jne t => [t.toNat]
  | .jnc t => [t.toNat]
  | .jl t => [t.toNat]
  | .jm t => [t.toNat]
  | .loop rc t => [rc.number, t.toNat]
  | .call t => [t.toNat]
  | .ret => []
  | .load rd ra => [rd.number, ra.number]
  | .store ra rs => [ra.number, rs.number]
  | .loadb rd ra => [rd.number, ra.number]
  | .storeb ra rs => [ra.number, rs.number]
  | .mov xd xs => [xd.number, xs.number]
  | .movd rd v => [rd.number, v.toNat]
  | .push rs => [rs.number]
  | .pop rd => [rd.number]
  | .pushall => []
  | .popall => []
  | .popint => []
  | .int c => [c.toNat]
  | .enter => []
  | .exit => []
  | .halt => []

namespace Machine

/-! ## What a next state keeps -/

/-- Every register outside `rs` is as it was (FR, `pc`, SP and PTBR among them), and so are `halted`, `irq` and `raised`. -/
def Keeps (s t : State) (rs : List Reg) : Prop :=
  (∀ r, r ∉ rs → t.reg r = s.reg r) ∧ t.halted = s.halted ∧ t.irq = s.irq ∧ t.raised = s.raised

/-- Every byte of RAM outside `stored` reads as before. -/
def KeepsBytes (s t : State) (stored : Nat → Prop) : Prop :=
  ∀ a, ¬ stored a → t.mem.readByte a = s.mem.readByte a

/-- Nothing is stored. -/
def noBytes : Nat → Prop := fun _ => False

/-- The four bytes of the word that holds `pa` (spec/20_memory.md R51, R55). -/
def wordBytes (pa : Nat) : Nat → Prop := fun a => a / 4 = pa / 4

/-- The bytes of the words that hold the addresses listed. -/
def wordsBytes (pas : List Nat) : Nat → Prop := fun a => ∃ pa ∈ pas, a / 4 = pa / 4

/-- The bits of FR after an instruction that writes C, Z, S and nothing else of it (spec/40_arithmetic.md R121). -/
def FlagsAre (s t : State) (c z n : Bool) : Prop :=
  ∀ k, t.fr.getLsbD k = if k = 0 then c else if k = 1 then z else if k = 3 then n else s.fr.getLsbD k

/-- `t` is `s` after an arithmetic instruction with the wide result `wide`, its destination written where there is one
(spec/40_arithmetic.md R121, R122, R130). -/
def ArithStep (s t : State) (rd : Option Reg) (wide : Int) : Prop :=
  (∀ r, rd = some r → t.reg r = BitVec.ofInt 32 wide) ∧
  FlagsAre s t (decide (wide > 2147483647)) (decide (BitVec.ofInt 32 wide = 0#32)) ((BitVec.ofInt 32 wide).getLsbD 31) ∧
  Keeps s t (.fr :: rd.toList) ∧ KeepsBytes s t noBytes

/-- `t` is `s` after a logical instruction with the result `res` (spec/41_logical.md R141, R146): C is kept. -/
def LogicStep (s t : State) (rd : Reg) (res : Word) : Prop :=
  t.reg rd = res ∧ FlagsAre s t (s.fr.getLsbD 0) (decide (res = 0#32)) (res.getLsbD 31) ∧
  Keeps s t [.fr, rd] ∧ KeepsBytes s t noBytes

/-- `t` is `s` with `pc` at the target if the condition holds, and otherwise as it was; nothing else changes
(spec/42_control_flow.md R150). -/
def JumpStep (s t : State) (taken : Prop) (target : Nat) : Prop :=
  (taken → t.pc.toNat = target) ∧ (¬ taken → t.pc = s.pc) ∧ Keeps s t [.pc] ∧ KeepsBytes s t noBytes

/-- How an instruction with one translated access at `va` ends where the access does not complete: a page fault is
interrupt 3 from the same state (spec/20_memory.md R58, R59, spec/43_memory_ops.md R173), and an address outside RAM, of
the access or of the walk, a `MachineFault` (R57). -/
def AccessStops (i : Instr) (va : Word) (s : State) : Prop :=
  (translate va s = .ok .pageFault → exec i s = interruptEntry 3 s) ∧
  (∀ pa, translate va s = .ok (.mapped pa) → 2 ^ 30 ≤ pa → exec i s = .fault .outOfRange) ∧
  (∀ f, translate va s = .error f → exec i s = .fault .outOfRange)

/-- The same for eight accesses in a row from `base`: every address is translated first (spec/20_memory.md R69). -/
def BlockStops (i : Instr) (base : Word) (s : State) : Prop :=
  ((∀ k, k < 8 → ∃ r, translate (base + BitVec.ofNat 32 (4 * k)) s = .ok r) →
    (∃ k, k < 8 ∧ translate (base + BitVec.ofNat 32 (4 * k)) s = .ok .pageFault) → exec i s = interruptEntry 3 s) ∧
  (∀ pa : Nat → Nat, (∀ k, k < 8 → translate (base + BitVec.ofNat 32 (4 * k)) s = .ok (.mapped (pa k))) →
    (∃ k, k < 8 ∧ 2 ^ 30 ≤ pa k) → exec i s = .fault .outOfRange) ∧
  ((∃ k f, k < 8 ∧ translate (base + BitVec.ofNat 32 (4 * k)) s = .error f) → exec i s = .fault .outOfRange)

/-! ## States -/

/-- A step of this state fetches an instruction: not halted, no interrupt pending (spec/60_exceptions.md R222). -/
def State.Running (s : State) : Prop := s.halted = false ∧ s.irq = []

/-- The next step runs `i`: it fetches a word that decodes to `i`. -/
def State.AboutToRun (s : State) (i : Instr) : Prop :=
  s.Running ∧ ∃ w, fetchWord s = .ok w ∧ decode w = .ok i

/-- RAM is in canonical form and lists only addresses that exist (spec/20_memory.md R51). -/
def State.Inv (s : State) : Prop := s.mem.wf ∧ ∀ c ∈ s.mem, c.1 < ramSize

/-- The virtual page `vpage` of the table at `ptbr` is mapped, by a valid entry, to the physical page `page`
(spec/20_memory.md R64, R65). -/
def State.MapsPage (s : State) (vpage page : Nat) : Prop :=
  vpage < 2 ^ 20 ∧ vpage < (s.mem.readWord s.ptbr.toNat).toNat ∧
  (s.mem.readWord (s.ptbr.toNat + 4 + 4 * vpage)).toNat % 2 = 1 ∧
  page = (s.mem.readWord (s.ptbr.toNat + 4 + 4 * vpage)).toNat / 2

/-- The byte at `pa` belongs to a physical page that a valid entry of the current table names (spec/60_exceptions.md R243). -/
def State.Granted (s : State) (pa : Nat) : Prop := ∃ vpage, s.MapsPage vpage (pa / 4096)

/-- The bytes of the length word and of the entries the walk can read, the current table's own bytes. -/
def State.TableByte (s : State) (a : Nat) : Prop :=
  a / 4 = s.ptbr.toNat / 4 ∨
  ∃ vpage, vpage < 2 ^ 20 ∧ vpage < (s.mem.readWord s.ptbr.toNat).toNat ∧ a / 4 = (s.ptbr.toNat + 4 + 4 * vpage) / 4

/-- The ten words of an interrupt frame at `base`, as the spec lays it out (spec/60_exceptions.md R233). -/
def FrameAt (m : Memory) (base : Nat) (gprs : List Word) (fr pc : Word) : Prop :=
  (∀ k, k < 8 → m.readWord (base + 4 * k) = gprs.getD k 0#32) ∧ m.readWord (base + 32) = fr ∧ m.readWord (base + 36) = pc

/-- The addresses of the ten words of a frame at `base`. -/
def frameAddrs (base : Nat) : List Nat := (List.range 10).map (fun k => base + 4 * k)

/-- Where an interrupt taken in `s` puts its frame: the current stack in real mode, the stack of `REAL_SP_SLOT` in virtual
mode (spec/60_exceptions.md R232, R233). -/
def frameBase (s : State) : Word := if s.isVirtual then s.mem.readWord 0x44 else s.sp

/-- The bytes an interrupt taken in `s` writes: its frame, and from virtual mode the two virtual slots. -/
def entryBytes (s : State) : Nat → Prop := fun a =>
  wordsBytes (frameAddrs (frameBase s).toNat) a ∨ (s.isVirtual = true ∧ wordsBytes [0x48, 0x4C] a)

/-- `t` is `s` after steps (b) to (e) of the entry for `code` (spec/60_exceptions.md R230, R232 to R234). Where the frame lies
over a virtual slot, the slot holds what the frame put there, since the frame is written last. -/
def EntryStep (code : Nat) (s t : State) : Prop :=
  t.gprs = s.gprs ∧ t.ptbr = s.ptbr ∧ t.halted = s.halted ∧ t.irq = s.irq ∧ t.raised = some code ∧
  t.sp = frameBase s + 40#32 ∧
  (∀ k, t.fr.getLsbD k = if k = 2 then false else s.fr.getLsbD k) ∧
  FrameAt t.mem (frameBase s).toNat s.gprs s.fr s.pc ∧
  t.pc = t.mem.readWord (4 * code) ∧
  (s.isVirtual = true → ¬ wordsBytes (frameAddrs (frameBase s).toNat) 0x48 → t.mem.readWord 0x48 = s.pc) ∧
  (s.isVirtual = true → ¬ wordsBytes (frameAddrs (frameBase s).toNat) 0x4C → t.mem.readWord 0x4C = s.sp) ∧
  KeepsBytes s t (entryBytes s)

/-- The frame and the vector of an interrupt taken in `s` lie inside RAM. -/
def EntryFits (code : Nat) (s : State) : Prop := (frameBase s).toNat + 36 < 2 ^ 30 ∧ 4 * code < 2 ^ 30

end Machine

end Sys2Proof
end

