-- ==== Sys2Proof/Certificates/Slice0/Obligations.lean ====
section
/-! DEFINITION. The statements for the provers, from the numbered rules of spec/. -/

open Sys2Proof Sys2Proof.Machine

/-! ## Encoding and decoding (spec/30_encoding.md) -/

/-- R109 (round trip), R98 (bijection): decoding an encoding gives the instruction back, with every operand at every value the
encoding admits; a register outside its field's class has no encoding; and a legal word is the encoding
of what it decodes to. -/
def Obligations.EncodeAndDecodeAreInverse : Prop :=
  (∀ i : Instr, i.wellFormed = true → ∃ w, encode i = some w ∧ decode w = .ok i) ∧
  (∀ i : Instr, i.wellFormed = false → encode i = none) ∧
  (∀ (w : Word) (i : Instr), decode w = .ok i → encode i = some w)

/-- R103: the row of the printed map whose opcode byte is the word's decides; a word off its mask and match, or a MOV with a
code above 8, is invalid; otherwise the operation is the row's, with the fields of the row's format. -/
def Obligations.DecodeFollowsThePrintedMap : Prop :=
  ∀ w : Word,
    match opcodeTable.find? (fun row => row.op == w.extractLsb' 24 8) with
    | none => ∃ e, decode w = .error e
    | some row =>
      if w &&& row.mask ≠ row.pattern then ∃ e, decode w = .error e
      else if row.mnemonic = "MOV" ∧ (8 < (w.extractLsb' 19 5).toNat ∨ 8 < (w.extractLsb' 14 5).toNat) then
        ∃ e, decode w = .error e
      else ∃ i, decode w = .ok i ∧ i.mnemonic = row.mnemonic ∧ i.operands = row.format.fieldsOf w

/-- R104: a word is an invalid opcode exactly in the cases (a) to (d), and executing one raises interrupt 2 with no effect
before it but the advance of `pc`. Of (c), the codes 12 to 31 are the spec's own inference ("they name no register"), and (d) is
its decision D11; the empty output at the start of the entry is the model's field (log entry 14). -/
def Obligations.InvalidOpcodesAreTheFourCases : Prop :=
  (∀ w : Word,
    (∃ e, decode w = .error e) ↔
      let family := (w.extractLsb' 28 4).toNat
      let op := w.extractLsb' 24 8
      (family = 0 ∨ 6 ≤ family) ∨
      ((1 ≤ family ∧ family ≤ 5) ∧ ∀ row ∈ opcodeTable, row.op ≠ op) ∨
      (∃ row ∈ opcodeTable, row.op = op ∧
        (((row.format = .r ∨ row.format = .rr ∨ row.format = .ri) ∧
            (if row.mnemonic = "MOV" then 9 else 8) ≤ (w.extractLsb' 19 5).toNat) ∨
          (row.format = .rr ∧ (if row.mnemonic = "MOV" then 9 else 8) ≤ (w.extractLsb' 14 5).toNat))) ∨
      (∃ row ∈ opcodeTable, row.op = op ∧
        ((row.format = .n ∧ w.extractLsb' 0 24 ≠ 0#24) ∨ (row.format = .r ∧ w.extractLsb' 0 19 ≠ 0#19) ∨
          (row.format = .rr ∧ w.extractLsb' 0 14 ≠ 0#14)))) ∧
  (∀ (s : State) (w : Word) (e : DecodeError), s.Running → fetchWord s = .ok w → decode w = .error e →
    step s = interruptEntry 2 { s with pc := s.pc + 4#32, raised := none })

/-- R23, R101: what the decoder accepts has every register in the class of its field. -/
def Obligations.DecodedInstructionsAreWellFormed : Prop :=
  ∀ (w : Word) (i : Instr), decode w = .ok i → i.wellFormed = true

/-- Words written out from the formats of R93 to R97 decode to the instructions they stand for, one of each format. -/
def Obligations.PrintedWordsDecode : Prop :=
  decode 0x1110C000#32 = .ok (.sub .r2 .r3) ∧ decode 0x20180000#32 = .ok (.neg .r3) ∧
  decode 0x37100104#32 = .ok (.loop .r2 0x104#19) ∧ decode 0x4440C000#32 = .ok (.mov .sp .r3) ∧
  decode 0x5000000C#32 = .ok (.int 12#24) ∧ decode 0x4A000000#32 = .ok .popint ∧
  decodeTableWord 32 0x41080000 = some (.store .r1 .r0)

/-- R105: the all-zero and the all-one word are invalid, and running into either raises interrupt 2: the spec's
own inference from R104. The empty output at the start of the entry is the model's field (log entry 14). -/
def Obligations.ZeroAndOnesAreInvalid : Prop :=
  decode 0#32 = .error .noSuchFamily ∧ decode 0xFFFFFFFF#32 = .error .noSuchFamily ∧
  ∀ s : State, s.Running → (fetchWord s = .ok 0#32 ∨ fetchWord s = .ok 0xFFFFFFFF#32) →
    step s = interruptEntry 2 { s with pc := s.pc + 4#32, raised := none }

/-! ## The step (spec/60_exceptions.md R222) -/

/-- A step runs the decoded instruction: where the word fetched decodes to `i`, the step is `exec i` on the state whose `pc`
has advanced by 4 (spec/10_state.md R32) and whose output is empty (the model's own field, log entry 14). -/
def Obligations.StepRunsTheDecodedInstruction : Prop :=
  ∀ (s : State) (i : Instr), s.AboutToRun i → step s = exec i { s with pc := s.pc + 4#32, raised := none }

/-- R222, R229: no step when halted; else the oldest pending interrupt; else a fetch, whose page fault is taken with `pc` not
advanced; else an invalid opcode; else the instruction. That a halted core answers `Fault.halted` is the model's choice
(log entry 10), and so is the empty output (log entry 14). -/
def Obligations.StepFollowsTheSequence : Prop :=
  ∀ s : State,
    if s.halted = true then step s = .fault .halted
    else
      match s.irq with
      | code :: rest => step s = interruptEntry code { s with irq := rest, raised := none }
      | [] =>
        match translate s.pc s with
        | .error _ => step s = .fault .outOfRange
        | .ok .pageFault => step s = interruptEntry 3 { s with raised := none }
        | .ok (.mapped pa) =>
          if 2 ^ 30 ≤ pa then step s = .fault .outOfRange
          else
            match decode (s.mem.readWord pa) with
            | .error _ => step s = interruptEntry 2 { s with pc := s.pc + 4#32, raised := none }
            | .ok i => step s = exec i { s with pc := s.pc + 4#32, raised := none }

/-- R224, R225, R227, R228: a watcher's code (1, 5, 6 or 7) or the host's joins the end of the queue; a step takes the oldest
code, in either mode, and only that code; without one the queue stays empty. Which code a step took is read from the model's
output field, where 3 stands for a code 4 whose pointer does not translate: both are the model's (log entry 14). -/
def Obligations.PendingInterruptsAreTakenInOrder : Prop :=
  (∀ (w : Watcher) (s : State), applyMove (.watcherRaise w) s = .next { s with irq := s.irq ++ [w.code] }) ∧
  (Watcher.code .keyboard = 1 ∧ Watcher.code .timer = 5 ∧ Watcher.code .storageWrite = 6 ∧ Watcher.code .storageRead = 7) ∧
  (∀ (code : Nat) (s : State), applyMove (.hostRaise code) s = .next { s with irq := s.irq ++ [code] }) ∧
  (∀ s t : State, step s = .next t →
    t.irq = s.irq.tail ∧
    ∀ code, s.irq.head? = some code → t.raised = some code ∨ (code = 4 ∧ t.raised = some 3))

/-- R228, R234: whatever step enters an interrupt, it ends in real mode with `pc` taken from the vector of the code, and from no
other place. That a step entered an interrupt, and of which code, is read from the model's output field (log entry 14). -/
def Obligations.EveryInterruptGoesThroughItsVector : Prop :=
  ∀ (s t : State) (code : Nat), step s = .next t → t.raised = some code →
    t.isVirtual = false ∧ 4 * code < 2 ^ 30 ∧ t.pc = t.mem.readWord (4 * code)

/-- R251: a halted core does not step; interrupts accumulate; the host's clearing of `halted` changes nothing else, and the
next step then takes the oldest pending interrupt. That the step answers `Fault.halted` is the model's choice (log entry 10). -/
def Obligations.HaltedCoreWaitsForTheHost : Prop :=
  ∀ s : State, s.halted = true →
    step s = .fault .halted ∧
    (∀ code, ∃ t, applyMove (.hostRaise code) s = .next t ∧ t.halted = true ∧ t.irq = s.irq ++ [code] ∧
      step t = .fault .halted) ∧
    (∃ t, applyMove .clearHalted s = .next t ∧ t = { s with halted := false } ∧
      ∀ code rest, s.irq = code :: rest → step t = interruptEntry code { s with halted := false, irq := rest, raised := none })

/-! ## Taking an interrupt and returning (spec/60_exceptions.md R230 to R237) -/

/-- R230, steps (b) to (e): for every code but 4, in either mode, the entry completes where its frame and its vector lie in RAM,
and otherwise is a `MachineFault`. That the frame holds FR is the spec's own inference (R233, "FR must be in it"); the output
field is the model's (log entry 14), and so is a code of any size (log entry 13). -/
def Obligations.InterruptEntrySequence : Prop :=
  ∀ (code : Nat) (s : State), code ≠ 4 →
    (EntryFits code s → ∃ t, interruptEntry code s = .next t ∧ EntryStep code s t) ∧
    (¬ EntryFits code s → interruptEntry code s = .fault .outOfRange)

/-- R231, step (a): for code 4 R0 is replaced by its physical address before it is saved; in real mode that changes nothing;
if R0 does not translate, the trap is a page fault instead, with R0 as it was; a frame outside RAM is a `MachineFault`. The
model's own: a physical address of more than 32 bits leaves in R0 a value nothing is said of, and one from 2^30 up to 2^32 is
stored in R0 without a fault (both log entry 12); the output of the replaced entry is 3 (log entry 14). -/
def Obligations.TerminalOutputPointerIsTranslated : Prop :=
  ∀ s : State,
    (s.isVirtual = false → EntryFits 4 s → ∃ t, interruptEntry 4 s = .next t ∧ EntryStep 4 s t) ∧
    (translate s.r0 s = .ok .pageFault → interruptEntry 4 s = interruptEntry 3 s) ∧
    (∀ pa, translate s.r0 s = .ok (.mapped pa) → EntryFits 4 s →
      ∃ (w : Word) (t : State), (pa < 2 ^ 32 → w.toNat = pa) ∧ interruptEntry 4 s = .next t ∧ EntryStep 4 { s with r0 := w } t) ∧
    (∀ pa, translate s.r0 s = .ok (.mapped pa) → ¬ EntryFits 4 s → interruptEntry 4 s = .fault .outOfRange) ∧
    (∀ f, translate s.r0 s = .error f → interruptEntry 4 s = .fault .outOfRange)

/-- R184 (the spec's sentence "Derived property: …", its own inference): an interrupt entry followed at once by POPINT restores
every register, FR, `pc` and `sp`, in either mode, and leaves `REAL_SP_SLOT` as it was; only R0 may come back translated, for
code 4 from virtual mode. From virtual mode the frame must not lie over `VIRT_SP_SLOT`, and in real mode `REAL_SP_SLOT` is
kept where the frame does not lie over it. -/
def Obligations.EntryThenPopintRestores : Prop :=
  ∀ (code : Nat) (s t : State), interruptEntry code s = .next t →
    (s.isVirtual = true → ¬ wordsBytes (frameAddrs (frameBase s).toNat) 0x4C) →
    ∃ u, exec .popint t = .next u ∧ (∀ r, r ≠ .r0 → u.reg r = s.reg r) ∧ u.r0 = t.r0 ∧
      (code ≠ 4 ∨ s.isVirtual = false → u.r0 = s.r0) ∧
      (s.isVirtual = true ∨ ¬ wordsBytes (frameAddrs (frameBase s).toNat) 0x44 → u.mem.readWord 0x44 = s.mem.readWord 0x44)

/-! ## Arithmetic family (spec/40_arithmetic.md) -/

/-- R124: ADD. -/
def Obligations.AddWritesSumAndFlags : Prop :=
  ∀ (rd rs : Reg) (s : State), rd.isGpr = true → rs.isGpr = true →
    encode (.add rd rs) = some (BitVec.ofNat 32 (0x10000000 ||| rd.number <<< 19 ||| rs.number <<< 14)) ∧
    ∃ t, exec (.add rd rs) s = .next t ∧ ArithStep s t (some rd) ((s.reg rd).toInt + (s.reg rs).toInt)

/-- R125: SUB. -/
def Obligations.SubWritesDifferenceAndFlags : Prop :=
  ∀ (rd rs : Reg) (s : State), rd.isGpr = true → rs.isGpr = true →
    encode (.sub rd rs) = some (BitVec.ofNat 32 (0x11000000 ||| rd.number <<< 19 ||| rs.number <<< 14)) ∧
    ∃ t, exec (.sub rd rs) s = .next t ∧ ArithStep s t (some rd) ((s.reg rd).toInt - (s.reg rs).toInt)

/-- R126: MUL, the low 32 bits of the exact signed product. -/
def Obligations.MulWritesLowProductAndFlags : Prop :=
  ∀ (rd rs : Reg) (s : State), rd.isGpr = true → rs.isGpr = true →
    encode (.mul rd rs) = some (BitVec.ofNat 32 (0x12000000 ||| rd.number <<< 19 ||| rs.number <<< 14)) ∧
    ∃ t, exec (.mul rd rs) s = .next t ∧ ArithStep s t (some rd) ((s.reg rd).toInt * (s.reg rs).toInt)

/-- R127: DIV, the signed quotient rounded toward zero; a zero divisor is interrupt 0 with nothing written; C can be 1 only for
`INT_MIN / -1`. -/
def Obligations.DivWritesQuotientOrTraps : Prop :=
  ∀ (rd rs : Reg) (s : State), rd.isGpr = true → rs.isGpr = true →
    encode (.div rd rs) = some (BitVec.ofNat 32 (0x13000000 ||| rd.number <<< 19 ||| rs.number <<< 14)) ∧
    (s.reg rs = 0#32 → exec (.div rd rs) s = interruptEntry 0 s) ∧
    (s.reg rs ≠ 0#32 →
      ∃ t, exec (.div rd rs) s = .next t ∧ ArithStep s t (some rd) ((s.reg rd).toInt.tdiv (s.reg rs).toInt) ∧
        (t.fr.getLsbD 0 = true → s.reg rd = 0x80000000#32 ∧ s.reg rs = 0xFFFFFFFF#32))

/-- R128: CMP, the flags of SUB and no register written. -/
def Obligations.CmpWritesOnlyFlags : Prop :=
  ∀ (ra rb : Reg) (s : State), ra.isGpr = true → rb.isGpr = true →
    encode (.cmp ra rb) = some (BitVec.ofNat 32 (0x14000000 ||| ra.number <<< 19 ||| rb.number <<< 14)) ∧
    ∃ t, exec (.cmp ra rb) s = .next t ∧ ArithStep s t none ((s.reg ra).toInt - (s.reg rb).toInt)

/-! ## Logical family (spec/41_logical.md) -/

/-- R142: NEG is the bitwise complement (`NEG_MODE` as the spec's default has it), and the other reading writes the arithmetic
negative with the same flags. -/
def Obligations.NegComplementsTheRegister : Prop :=
  ∀ (rd : Reg) (s : State), rd.isGpr = true →
    encode (.neg rd) = some (BitVec.ofNat 32 (0x20000000 ||| rd.number <<< 19)) ∧
    (∃ t, exec (.neg rd) s = .next t ∧ LogicStep s t rd (0xFFFFFFFF#32 ^^^ s.reg rd)) ∧
    LogicStep s (writeLogic rd (negate .twosComplement (s.reg rd)) s) rd (BitVec.ofInt 32 (-(s.reg rd).toInt))

/-- R143, R144, R145: AND, OR, XOR, bit by bit, with C kept. -/
def Obligations.AndOrXorWriteResultAndFlags : Prop :=
  ∀ (rd rs : Reg) (s : State), rd.isGpr = true → rs.isGpr = true →
    encode (.and rd rs) = some (BitVec.ofNat 32 (0x21000000 ||| rd.number <<< 19 ||| rs.number <<< 14)) ∧
    encode (.or rd rs) = some (BitVec.ofNat 32 (0x22000000 ||| rd.number <<< 19 ||| rs.number <<< 14)) ∧
    encode (.xor rd rs) = some (BitVec.ofNat 32 (0x23000000 ||| rd.number <<< 19 ||| rs.number <<< 14)) ∧
    (∃ t, exec (.and rd rs) s = .next t ∧ LogicStep s t rd (s.reg rd &&& s.reg rs)) ∧
    (∃ t, exec (.or rd rs) s = .next t ∧ LogicStep s t rd (s.reg rd ||| s.reg rs)) ∧
    (∃ t, exec (.xor rd rs) s = .next t ∧ LogicStep s t rd (s.reg rd ^^^ s.reg rs))

/-! ## Control-flow family (spec/42_control_flow.md) -/

/-- R151 to R158: the jump and the six conditional jumps. -/
def Obligations.JumpsTestTheirFlags : Prop :=
  ∀ (target : BitVec 24) (s : State),
    (encode (.jmp target) = some (BitVec.ofNat 32 (0x30000000 ||| target.toNat)) ∧
      ∃ t, exec (.jmp target) s = .next t ∧ JumpStep s t True target.toNat) ∧
    (encode (.jc target) = some (BitVec.ofNat 32 (0x31000000 ||| target.toNat)) ∧
      ∃ t, exec (.jc target) s = .next t ∧ JumpStep s t (s.fr.getLsbD 0 = true) target.toNat) ∧
    (encode (.je target) = some (BitVec.ofNat 32 (0x32000000 ||| target.toNat)) ∧
      ∃ t, exec (.je target) s = .next t ∧ JumpStep s t (s.fr.getLsbD 1 = true) target.toNat) ∧
    (encode (.jne target) = some (BitVec.ofNat 32 (0x33000000 ||| target.toNat)) ∧
      ∃ t, exec (.jne target) s = .next t ∧ JumpStep s t (s.fr.getLsbD 1 = false) target.toNat) ∧
    (encode (.jnc target) = some (BitVec.ofNat 32 (0x34000000 ||| target.toNat)) ∧
      ∃ t, exec (.jnc target) s = .next t ∧ JumpStep s t (s.fr.getLsbD 0 = false) target.toNat) ∧
    (encode (.jl target) = some (BitVec.ofNat 32 (0x35000000 ||| target.toNat)) ∧
      ∃ t, exec (.jl target) s = .next t ∧ JumpStep s t (s.fr.getLsbD 3 = true) target.toNat) ∧
    (encode (.jm target) = some (BitVec.ofNat 32 (0x36000000 ||| target.toNat)) ∧
      ∃ t, exec (.jm target) s = .next t ∧ JumpStep s t (s.fr.getLsbD 3 = false ∧ s.fr.getLsbD 1 = false) target.toNat)

/-- R159: LOOP decrements first and branches while the new value is not zero, with no flag written. -/
def Obligations.LoopDecrementsAndBranches : Prop :=
  ∀ (rc : Reg) (target : BitVec 19) (s : State), rc.isGpr = true →
    encode (.loop rc target) = some (BitVec.ofNat 32 (0x37000000 ||| rc.number <<< 19 ||| target.toNat)) ∧
    ∃ t, exec (.loop rc target) s = .next t ∧ t.reg rc = BitVec.ofInt 32 ((s.reg rc).toNat - 1) ∧
      (t.reg rc ≠ 0#32 → t.pc.toNat = target.toNat) ∧ (t.reg rc = 0#32 → t.pc = s.pc) ∧
      Keeps s t [rc, .pc] ∧ KeepsBytes s t noBytes

/-- R162: CALL pushes the address of the next instruction and jumps. -/
def Obligations.CallPushesReturnAddress : Prop :=
  ∀ (target : BitVec 24) (s : State),
    encode (.call target) = some (BitVec.ofNat 32 (0x38000000 ||| target.toNat)) ∧
    (∀ pa, translate s.sp s = .ok (.mapped pa) → pa < 2 ^ 30 →
      ∃ t, exec (.call target) s = .next t ∧ t.mem.readWord pa = s.pc ∧ t.sp = s.sp + 4#32 ∧ t.pc.toNat = target.toNat ∧
        Keeps s t [.sp, .pc] ∧ KeepsBytes s t (wordBytes pa)) ∧
    AccessStops (.call target) s.sp s

/-- R163: RET pops the return address. -/
def Obligations.RetPopsReturnAddress : Prop :=
  ∀ s : State,
    encode .ret = some 0x39000000#32 ∧
    (∀ pa, translate (s.sp - 4#32) s = .ok (.mapped pa) → pa < 2 ^ 30 →
      ∃ t, exec .ret s = .next t ∧ t.pc = s.mem.readWord pa ∧ t.sp = s.sp - 4#32 ∧
        Keeps s t [.sp, .pc] ∧ KeepsBytes s t noBytes) ∧
    AccessStops .ret (s.sp - 4#32) s

/-! ## Memory family (spec/43_memory_ops.md) -/

/-- R174: LOAD. -/
def Obligations.LoadReadsTheWord : Prop :=
  ∀ (rd ra : Reg) (s : State), rd.isGpr = true → ra.isGpr = true →
    encode (.load rd ra) = some (BitVec.ofNat 32 (0x40000000 ||| rd.number <<< 19 ||| ra.number <<< 14)) ∧
    (∀ pa, translate (s.reg ra) s = .ok (.mapped pa) → pa < 2 ^ 30 →
      ∃ t, exec (.load rd ra) s = .next t ∧ t.reg rd = s.mem.readWord pa ∧ Keeps s t [rd] ∧ KeepsBytes s t noBytes) ∧
    AccessStops (.load rd ra) (s.reg ra) s

/-- R175: STORE. -/
def Obligations.StoreWritesTheWord : Prop :=
  ∀ (ra rs : Reg) (s : State), ra.isGpr = true → rs.isGpr = true →
    encode (.store ra rs) = some (BitVec.ofNat 32 (0x41000000 ||| ra.number <<< 19 ||| rs.number <<< 14)) ∧
    (∀ pa, translate (s.reg ra) s = .ok (.mapped pa) → pa < 2 ^ 30 →
      ∃ t, exec (.store ra rs) s = .next t ∧ t.mem.readWord pa = s.reg rs ∧ Keeps s t [] ∧ KeepsBytes s t (wordBytes pa)) ∧
    AccessStops (.store ra rs) (s.reg ra) s

/-- R176: LOADB, zero-extended. -/
def Obligations.LoadbReadsTheByte : Prop :=
  ∀ (rd ra : Reg) (s : State), rd.isGpr = true → ra.isGpr = true →
    encode (.loadb rd ra) = some (BitVec.ofNat 32 (0x42000000 ||| rd.number <<< 19 ||| ra.number <<< 14)) ∧
    (∀ pa, translate (s.reg ra) s = .ok (.mapped pa) → pa < 2 ^ 30 →
      ∃ t, exec (.loadb rd ra) s = .next t ∧ (t.reg rd).toNat = (s.mem.readByte pa).toNat ∧ Keeps s t [rd] ∧
        KeepsBytes s t noBytes) ∧
    AccessStops (.loadb rd ra) (s.reg ra) s

/-- R177: STOREB, the low byte of the register; the other bytes are kept. -/
def Obligations.StorebWritesTheByte : Prop :=
  ∀ (ra rs : Reg) (s : State), ra.isGpr = true → rs.isGpr = true →
    encode (.storeb ra rs) = some (BitVec.ofNat 32 (0x43000000 ||| ra.number <<< 19 ||| rs.number <<< 14)) ∧
    (∀ pa, translate (s.reg ra) s = .ok (.mapped pa) → pa < 2 ^ 30 →
      ∃ t, exec (.storeb ra rs) s = .next t ∧ (t.mem.readByte pa).toNat = (s.reg rs).toNat % 256 ∧ Keeps s t [] ∧
        KeepsBytes s t (fun a => a = pa)) ∧
    AccessStops (.storeb ra rs) (s.reg ra) s

/-- R178: MOV between R0 to R7 and SP; PC, PTBR and FR have no encoding in either field. -/
def Obligations.MovCopiesTheRegister : Prop :=
  ∀ (xd xs : Reg) (s : State),
    (xd.isGprSp = true → xs.isGprSp = true →
      encode (.mov xd xs) = some (BitVec.ofNat 32 (0x44000000 ||| xd.number <<< 19 ||| xs.number <<< 14)) ∧
      ∃ t, exec (.mov xd xs) s = .next t ∧ t.reg xd = s.reg xs ∧ Keeps s t [xd] ∧ KeepsBytes s t noBytes) ∧
    (xd = .pc ∨ xd = .ptbr ∨ xd = .fr ∨ xs = .pc ∨ xs = .ptbr ∨ xs = .fr → encode (.mov xd xs) = none)

/-- R179: MOVD. -/
def Obligations.MovdLoadsTheConstant : Prop :=
  ∀ (rd : Reg) (value : BitVec 19) (s : State), rd.isGpr = true →
    encode (.movd rd value) = some (BitVec.ofNat 32 (0x45000000 ||| rd.number <<< 19 ||| value.toNat)) ∧
    ∃ t, exec (.movd rd value) s = .next t ∧ (t.reg rd).toNat = value.toNat ∧ Keeps s t [rd] ∧ KeepsBytes s t noBytes

/-- R180: PUSH. -/
def Obligations.PushWritesAtTheStackPointer : Prop :=
  ∀ (rs : Reg) (s : State), rs.isGpr = true →
    encode (.push rs) = some (BitVec.ofNat 32 (0x46000000 ||| rs.number <<< 19)) ∧
    (∀ pa, translate s.sp s = .ok (.mapped pa) → pa < 2 ^ 30 →
      ∃ t, exec (.push rs) s = .next t ∧ t.mem.readWord pa = s.reg rs ∧ t.sp = s.sp + 4#32 ∧
        Keeps s t [.sp] ∧ KeepsBytes s t (wordBytes pa)) ∧
    AccessStops (.push rs) s.sp s

/-- R181: POP. -/
def Obligations.PopReadsBelowTheStackPointer : Prop :=
  ∀ (rd : Reg) (s : State), rd.isGpr = true →
    encode (.pop rd) = some (BitVec.ofNat 32 (0x47000000 ||| rd.number <<< 19)) ∧
    (∀ pa, translate (s.sp - 4#32) s = .ok (.mapped pa) → pa < 2 ^ 30 →
      ∃ t, exec (.pop rd) s = .next t ∧ t.reg rd = s.mem.readWord pa ∧ t.sp = s.sp - 4#32 ∧
        Keeps s t [.sp, rd] ∧ KeepsBytes s t noBytes) ∧
    AccessStops (.pop rd) (s.sp - 4#32) s

/-- R182: PUSHALL writes R0 to R7 upward from `sp`, all or nothing. That a walk outside RAM wins over a page fault among the
eight addresses is the model's reading of the pseudocode (log entry 15). -/
def Obligations.PushallWritesEightWords : Prop :=
  ∀ s : State,
    encode .pushall = some 0x48000000#32 ∧
    (∀ pa : Nat → Nat,
      (∀ k, k < 8 → translate (s.sp + BitVec.ofNat 32 (4 * k)) s = .ok (.mapped (pa k)) ∧ pa k < 2 ^ 30) →
      ∃ t, exec .pushall s = .next t ∧ (∀ k, k < 8 → t.mem.readWord (pa k) = s.gprs.getD k 0#32) ∧ t.sp = s.sp + 32#32 ∧
        Keeps s t [.sp] ∧ KeepsBytes s t (fun a => ∃ k, k < 8 ∧ a / 4 = pa k / 4)) ∧
    BlockStops .pushall s.sp s

/-- R183: POPALL reads R0 to R7 upward from `sp - 32`, all or nothing. That a walk outside RAM wins over a page fault among the
eight addresses is the model's reading of the pseudocode (log entry 15). -/
def Obligations.PopallReadsEightWords : Prop :=
  ∀ s : State,
    encode .popall = some 0x49000000#32 ∧
    (∀ pa : Nat → Nat,
      (∀ k, k < 8 → translate (s.sp - 32#32 + BitVec.ofNat 32 (4 * k)) s = .ok (.mapped (pa k)) ∧ pa k < 2 ^ 30) →
      ∃ t, exec .popall s = .next t ∧ (∀ k, k < 8 → t.gprs.getD k 0#32 = s.mem.readWord (pa k)) ∧ t.sp = s.sp - 32#32 ∧
        Keeps s t [.r0, .r1, .r2, .r3, .r4, .r5, .r6, .r7, .sp] ∧ KeepsBytes s t noBytes) ∧
    BlockStops .popall (s.sp - 32#32) s

/-- R236 with the legality of R184: POPINT is interrupt 2 in virtual mode; in real mode it restores R0 to R7, FR and `pc` from
the ten words below `sp`; from a frame of virtual mode it writes the real `sp` to its slot and takes `sp` from the virtual
one. -/
def Obligations.PopintRestoresTheFrame : Prop :=
  ∀ s : State,
    encode .popint = some 0x4A000000#32 ∧
    (s.isVirtual = true → exec .popint s = interruptEntry 2 s) ∧
    (s.isVirtual = false →
      ∀ pa : Nat → Nat, (∀ k, k < 10 → pa k = (s.sp - 40#32 + BitVec.ofNat 32 (4 * k)).toNat) →
      ((∀ k, k < 10 → pa k < 2 ^ 30) →
        ∃ t, exec .popint s = .next t ∧ (∀ k, k < 8 → t.gprs.getD k 0#32 = s.mem.readWord (pa k)) ∧
          t.fr = s.mem.readWord (pa 8) ∧ t.pc = s.mem.readWord (pa 9) ∧
          Keeps s t [.r0, .r1, .r2, .r3, .r4, .r5, .r6, .r7, .sp, .fr, .pc] ∧
          (if (s.mem.readWord (pa 8)).getLsbD 2 = true then
            t.mem.readWord 0x44 = s.sp - 40#32 ∧ t.sp = s.mem.readWord 0x4C ∧ KeepsBytes s t (wordBytes 0x44)
          else t.sp = s.sp - 40#32 ∧ KeepsBytes s t noBytes)) ∧
      ((∃ k, k < 10 ∧ 2 ^ 30 ≤ pa k) → exec .popint s = .fault .outOfRange))

/-! ## Machine-state family (spec/44_machine_state.md) -/

/-- R202: INT enters the interrupt of its code in either mode; it completes where frame and vector lie in RAM and, for code 4,
R0 translates (spec/60_exceptions.md R231), with the frame holding the return address of the instruction after it. That the
frame holds FR is the spec's own inference (R233); the output field is the model's (log entry 14), and so is storing in R0,
without a fault, a physical address from 2^30 up to 2^32 (log entry 12). -/
def Obligations.IntEntersItsCode : Prop :=
  ∀ (code : BitVec 24) (s : State),
    encode (.int code) = some (BitVec.ofNat 32 (0x50000000 ||| code.toNat)) ∧
    exec (.int code) s = interruptEntry code.toNat s ∧
    (code ≠ 4#24 ∨ s.isVirtual = false → EntryFits code.toNat s →
      ∃ t, exec (.int code) s = .next t ∧ EntryStep code.toNat s t) ∧
    (∀ pa, code = 4#24 → translate s.r0 s = .ok (.mapped pa) → pa < 2 ^ 32 → EntryFits 4 s →
      ∃ t, exec (.int code) s = .next t ∧ EntryStep 4 { s with r0 := BitVec.ofNat 32 pa } t)

/-- R203: ENTER. -/
def Obligations.EnterSwitchesToVirtualMode : Prop :=
  ∀ s : State,
    encode .enter = some 0x51000000#32 ∧
    (s.isVirtual = true → exec .enter s = interruptEntry 2 s) ∧
    (s.isVirtual = false →
      ∃ t, exec .enter s = .next t ∧ t.mem.readWord 0x40 = s.pc ∧ t.mem.readWord 0x44 = s.sp ∧
        t.pc = s.mem.readWord 0x48 ∧ t.sp = s.mem.readWord 0x4C ∧
        (∀ k, t.fr.getLsbD k = if k = 2 then true else s.fr.getLsbD k) ∧
        Keeps s t [.pc, .sp, .fr] ∧ KeepsBytes s t (wordsBytes [0x40, 0x44]))

/-- R204: EXIT. -/
def Obligations.ExitReturnsToRealMode : Prop :=
  ∀ s : State,
    encode .exit = some 0x52000000#32 ∧
    (s.isVirtual = false → exec .exit s = interruptEntry 2 s) ∧
    (s.isVirtual = true →
      ∃ t, exec .exit s = .next t ∧ t.pc = s.mem.readWord 0x40 ∧ t.sp = s.mem.readWord 0x44 ∧
        (∀ k, t.fr.getLsbD k = if k = 2 then false else s.fr.getLsbD k) ∧
        Keeps s t [.pc, .sp, .fr] ∧ KeepsBytes s t noBytes)

/-- R205: HALT is EXIT in virtual mode; in real mode it stops the core and changes nothing else (`HALT_REAL` as the spec's
default has it), and the other value of the parameter is interrupt 2. -/
def Obligations.HaltLeavesOrStops : Prop :=
  ∀ s : State,
    encode .halt = some 0x53000000#32 ∧
    (s.isVirtual = true →
      exec .halt s = exec .exit s ∧
      ∃ t, exec .halt s = .next t ∧ t.pc = s.mem.readWord 0x40 ∧ t.sp = s.mem.readWord 0x44 ∧
        (∀ k, t.fr.getLsbD k = if k = 2 then false else s.fr.getLsbD k) ∧
        Keeps s t [.pc, .sp, .fr] ∧ KeepsBytes s t noBytes) ∧
    (s.isVirtual = false →
      exec .halt s = .next { s with halted := true } ∧ haltInRealMode .invalid s = interruptEntry 2 s)

/-- R206: ENTER followed at once by EXIT or HALT restores the real-mode `pc` (the instruction after ENTER), `sp` and FR; only
the two real slots have changed. The details are the spec's own inference from R203 and R204. -/
def Obligations.ModeSwitchIsSymmetric : Prop :=
  ∀ (s t : State) (i : Instr), s.isVirtual = false → s.AboutToRun .enter → step s = .next t →
    (i = .exit ∨ i = .halt) → t.AboutToRun i →
    ∃ u, step t = .next u ∧ u.pc = s.pc + 4#32 ∧ u.sp = s.sp ∧ u.fr = s.fr ∧ u.gprs = s.gprs ∧ u.ptbr = s.ptbr ∧
      u.mem.readWord 0x40 = s.pc + 4#32 ∧ u.mem.readWord 0x44 = s.sp ∧ KeepsBytes s u (wordsBytes [0x40, 0x44])

/-! ## Memory and translation (spec/20_memory.md) -/

/-- R66: `Translate`, in the numbers of the rule. -/
def Obligations.TranslateFollowsTheTable : Prop :=
  ∀ (va : Word) (s : State),
    let vpage := (va.extractLsb' 12 20).toNat
    let length := (s.mem.readWord s.ptbr.toNat).toNat
    let entry := s.mem.readWord (s.ptbr.toNat + 4 + 4 * vpage)
    if s.fr.getLsbD 2 = false then translate va s = .ok (.mapped va.toNat)
    else if 2 ^ 30 ≤ s.ptbr.toNat then translate va s = .error .outOfRange
    else if length ≤ vpage then translate va s = .ok .pageFault
    else if 2 ^ 30 ≤ s.ptbr.toNat + 4 + 4 * vpage then translate va s = .error .outOfRange
    else if entry.getLsbD 0 = false then translate va s = .ok .pageFault
    else translate va s = .ok (.mapped ((entry.extractLsb' 1 31).toNat * 4096 + (va.extractLsb' 0 12).toNat))

/-- R55, R73, R33: the low two bits of a word address are ignored in either mode, a word access goes to the aligned physical
word that holds the address and so never into another page, and a fetch at a `pc` that is not a multiple of 4 reads the
aligned word. -/
def Obligations.WordAccessIgnoresLowBits : Prop :=
  ∀ (va : Word) (s : State),
    memReadWord va s = memReadWord (va &&& 0xFFFFFFFC#32) s ∧
    (∀ v, memWriteWord va v s = memWriteWord (va &&& 0xFFFFFFFC#32) v s) ∧
    fetchWord { s with pc := va } = fetchWord { s with pc := va &&& 0xFFFFFFFC#32 } ∧
    (∀ pa, translate va s = .ok (.mapped pa) → translate (va &&& 0xFFFFFFFC#32) s = .ok (.mapped (pa - pa % 4)))

/-- R52, R56, R83: a byte is the bits of its word that R52 names; a byte store replaces those bits and no others. -/
def Obligations.ByteAccessesShareTheWord : Prop :=
  (∀ (pa : Nat) (s : State), physReadByte pa s =
    if pa < 2 ^ 30 then .ok ((s.mem.readWord pa).extractLsb' (8 * (pa % 4)) 8) else .error .outOfRange) ∧
  (∀ (pa : Nat) (b : Byte) (s : State), 2 ^ 30 ≤ pa → physWriteByte pa b s = .error .outOfRange) ∧
  (∀ (pa : Nat) (b : Byte) (s : State), pa < 2 ^ 30 →
    ∃ t, physWriteByte pa b s = .ok t ∧ Keeps s t [] ∧
      t.mem.readWord pa = (s.mem.readWord pa &&& ~~~(0xFF#32 <<< (8 * (pa % 4)))) ||| (b.setWidth 32 <<< (8 * (pa % 4))) ∧
      ∀ a, a / 4 ≠ pa / 4 → t.mem.readWord a = s.mem.readWord a) ∧
  (∀ (w : Word) (k : Nat), k < 4 →
    byteOfWord .little w k = w.extractLsb' (8 * k) 8 ∧ byteOfWord .big w k = w.extractLsb' (8 * (3 - k)) 8) ∧
  (∀ (order : ByteOrder) (w : Word), wordOfBytes order (byteOfWord order w 0) (byteOfWord order w 1) (byteOfWord order w 2)
    (byteOfWord order w 3) = w)

/-- R54, R55, R57: a word access needs its address below `RAM_SIZE`, else it is a `MachineFault`; a write then a read of any
address of the word gives the word written, and every other word keeps its value. -/
def Obligations.WordAccessReadsWhatWasWritten : Prop :=
  ∀ (pa : Nat) (v : Word) (s : State),
    (2 ^ 30 ≤ pa → physReadWord pa s = .error .outOfRange ∧ physWriteWord pa v s = .error .outOfRange) ∧
    (pa < 2 ^ 30 → physReadWord pa s = .ok (s.mem.readWord (pa - pa % 4)) ∧
      ∃ t, physWriteWord pa v s = .ok t ∧ Keeps s t [] ∧ (∀ a, a / 4 = pa / 4 → t.mem.readWord a = v) ∧
        (∀ a, a / 4 ≠ pa / 4 → t.mem.readWord a = s.mem.readWord a))

/-! ## Invariants and whole-machine rules -/

/-- Every step keeps RAM in canonical form, with no address outside RAM (R51). -/
def Obligations.StepKeepsMemoryCanonical : Prop :=
  ∀ s t : State, s.Inv → step s = .next t → t.Inv

/-- So does every run of steps, watcher moves and host moves, in any order (R75, R76). -/
def Obligations.EveryEventKeepsMemoryCanonical : Prop :=
  ∀ (es : List Event) (s t : State), s.Inv → runEvents es s = .next t → t.Inv

/-- The invariant holds at reset. -/
def Obligations.ResetMemoryIsCanonical : Prop := State.reset.Inv

/-- R41, R260: the values the spec gives for reset (the registers it leaves unspecified are not named). -/
def Obligations.ResetStartsInRealMode : Prop :=
  State.reset.fr = 0#32 ∧ State.reset.isVirtual = false ∧ State.reset.pc = 0x100#32 ∧ State.reset.halted = false ∧
  State.reset.irq = []

/-- R25 ("No instruction writes it", the spec's own inference from R23): no step changes PTBR, and of the moves only the host's
context load and reset do; that reset sets PTBR is the model's choice (log entries 2 and 24). -/
def Obligations.OnlyTheHostWritesPtbr : Prop :=
  (∀ s t : State, step s = .next t → t.ptbr = s.ptbr) ∧
  (∀ (m : Move) (s t : State), applyMove m s = .next t → t.ptbr ≠ s.ptbr → (∃ c, m = .hostContext c) ∨ m = .reset)

/-- R30, R242: the complete list of mode changes: to virtual mode by ENTER or POPINT, to real mode by EXIT, HALT or an
interrupt, and by the host's context load. Reset, a move of the model (log entry 24), is added to the list; that a step took
an interrupt is read from the model's output field (log entry 14). -/
def Obligations.ModeChangesOnlyWhereListed : Prop :=
  (∀ s t : State, step s = .next t → s.isVirtual = false → t.isVirtual = true →
    s.AboutToRun .enter ∨ s.AboutToRun .popint) ∧
  (∀ s t : State, step s = .next t → s.isVirtual = true → t.isVirtual = false →
    s.AboutToRun .exit ∨ s.AboutToRun .halt ∨ t.raised ≠ none) ∧
  (∀ (m : Move) (s t : State), applyMove m s = .next t → t.isVirtual ≠ s.isVirtual →
    (∃ c, m = .hostContext c) ∨ m = .reset)

/-- R31, R121, R141, R150, R172: of FR, bits 31:4 change only by POPINT; C only by POPINT or the arithmetic family; Z and S
only by POPINT or the arithmetic and logical families. First of `exec`, then of every step (the delivery of an interrupt, a
fetch page fault and an invalid opcode included: none of these changes such a bit), and of the moves only the host's context
load and reset, a move of the model (log entry 24), write FR. -/
def Obligations.FlagsChangeOnlyWhereListed : Prop :=
  (∀ (i : Instr) (s t : State), i.wellFormed = true → exec i s = .next t → i ≠ .popint →
    (∀ k, 4 ≤ k → t.fr.getLsbD k = s.fr.getLsbD k) ∧
    (i.mnemonic ∉ ["ADD", "SUB", "MUL", "DIV", "CMP"] → t.fr.getLsbD 0 = s.fr.getLsbD 0) ∧
    (i.mnemonic ∉ ["ADD", "SUB", "MUL", "DIV", "CMP", "NEG", "AND", "OR", "XOR"] →
      t.fr.getLsbD 1 = s.fr.getLsbD 1 ∧ t.fr.getLsbD 3 = s.fr.getLsbD 3)) ∧
  (∀ s t : State, step s = .next t →
    (∀ k, 4 ≤ k → t.fr.getLsbD k ≠ s.fr.getLsbD k → s.AboutToRun .popint) ∧
    (t.fr.getLsbD 0 ≠ s.fr.getLsbD 0 →
      ∃ i, s.AboutToRun i ∧ i.mnemonic ∈ ["ADD", "SUB", "MUL", "DIV", "CMP", "POPINT"]) ∧
    (t.fr.getLsbD 1 ≠ s.fr.getLsbD 1 ∨ t.fr.getLsbD 3 ≠ s.fr.getLsbD 3 →
      ∃ i, s.AboutToRun i ∧
        i.mnemonic ∈ ["ADD", "SUB", "MUL", "DIV", "CMP", "NEG", "AND", "OR", "XOR", "POPINT"])) ∧
  (∀ (m : Move) (s t : State), applyMove m s = .next t → t.fr ≠ s.fr → (∃ c, m = .hostContext c) ∨ m = .reset)

/-- R38: `halted` is set only by HALT in real mode, and only the host or reset clears it. -/
def Obligations.OnlyRealModeHaltSetsHalted : Prop :=
  (∀ s t : State, step s = .next t → t.halted = true → s.isVirtual = false ∧ s.AboutToRun .halt) ∧
  (∀ (m : Move) (s t : State), applyMove m s = .next t → t.halted ≠ s.halted → m = .clearHalted ∨ m = .reset)

/-! ## Isolation (spec/20_memory.md R70, spec/60_exceptions.md R243) -/

/-- R70, R243 (the spec's own inference from R70): a step from virtual mode that takes no interrupt changes no byte outside
the physical pages that a valid entry of its table names; one that does changes, of the rest, only the frame on the real stack
and the two virtual slots. Whether it took one is read from the model's output field (log entry 14). -/
def Obligations.VirtualModeWritesOnlyGrantedPages : Prop :=
  ∀ s t : State, s.isVirtual = true → step s = .next t →
    (t.raised = none → ∀ a, t.mem.readByte a ≠ s.mem.readByte a → s.Granted a) ∧
    (t.raised ≠ none → KeepsBytes s t (entryBytes s))

/-- R70, R243 (the spec's own inference from R70): what a program in virtual mode can learn. Two states with the same
registers, whose RAM agrees on the bytes of the page table and of the granted pages, take the same step as long as it stays in
virtual mode: same registers, and RAM that still agrees there. The output compared with them is the model's field (log entry
14). -/
def Obligations.VirtualModeReadsOnlyGrantedPages : Prop :=
  ∀ s1 s2 t1 : State, s1.isVirtual = true → s1.Running → s2.Running → (∀ r, s2.reg r = s1.reg r) →
    (∀ a, s1.TableByte a ∨ s1.Granted a → s2.mem.readByte a = s1.mem.readByte a) →
    step s1 = .next t1 → t1.isVirtual = true →
    ∃ t2, step s2 = .next t2 ∧ (∀ r, t2.reg r = t1.reg r) ∧ t2.raised = t1.raised ∧
      (∀ a, s1.TableByte a ∨ s1.Granted a → t2.mem.readByte a = t1.mem.readByte a)

/-! ## Host and watchers (spec/70_reset_and_hazards.md, spec/20_memory.md) -/

/-- R271: a context is the twelve registers, loaded verbatim and read back; RAM, `halted` and `irq` are no part of it. -/
def Obligations.ContextLoadIsVerbatim : Prop :=
  ∀ (c : Context) (s : State),
    storeContext (loadContext c s) = c ∧ loadContext (storeContext s) s = s ∧
    (loadContext c s).mem = s.mem ∧ (loadContext c s).halted = s.halted ∧ (loadContext c s).irq = s.irq

/-- R76: a watcher's move writes no register and no RAM outside a device cell (that a word written must lie in its cell is the
model's reading, log entry 17). -/
def Obligations.WatchersWriteOnlyDeviceCells : Prop :=
  ∀ (m : Move) (s t : State),
    (∃ w, m = .watcherRaise w) ∨ (∃ c pa b, m = .watcherByte c pa b) ∨ (∃ c pa v, m = .watcherWord c pa v) →
    applyMove m s = .next t →
    (∀ r, t.reg r = s.reg r) ∧ t.halted = s.halted ∧
    ∀ a, (∀ c : DeviceCell, c.holds a = false) → t.mem.readByte a = s.mem.readByte a
end

