-- ==== Sys2Proof/Laws/Memory.lean ====
section
/-! SUPPORT. RAM: a read after a write, the bytes of a word, and that every memory operation keeps the canonical form. -/

namespace Sys2Proof.Machine

/-! ## Bytes -/

theorem Memory.readByte_cons (i : Nat) (v : Byte) (m : Memory) (k : Nat) :
    Memory.readByte ((i, v) :: m) k = if i = k then v else Memory.readByte m k := rfl

theorem Memory.mem_erase {m : Memory} {a : Nat} {c : Host.Cell} : c ∈ m.erase a ↔ c ∈ m ∧ c.1 ≠ a := by
  simp [Memory.erase]

theorem Memory.readByte_erase (m : Memory) (a k : Nat) :
    (m.erase a).readByte k = if k = a then Memory.unlisted else m.readByte k := by
  induction m with
  | nil => simp [Memory.erase, Memory.readByte]
  | cons c m ih =>
    obtain ⟨i, v⟩ := c
    have step : Memory.erase ((i, v) :: m) a = if i = a then Memory.erase m a else (i, v) :: Memory.erase m a := by
      unfold Memory.erase
      by_cases h : i = a <;> simp [h]
    rw [step, Memory.readByte_cons]
    by_cases h1 : i = a
    · subst h1
      rw [if_pos rfl, ih]
      by_cases h2 : k = i
      · simp [h2]
      · rw [if_neg h2, if_neg h2, if_neg (fun e => h2 e.symm)]
    · rw [if_neg h1, Memory.readByte_cons, ih]
      by_cases h2 : i = k
      · subst h2; rw [if_pos rfl, if_pos rfl, if_neg h1]
      · simp [h2]

theorem Memory.readByte_insert (m : Memory) (a k : Nat) (b : Byte) (h : ∀ c ∈ m, c.1 ≠ a) :
    (m.insert a b).readByte k = if k = a then b else m.readByte k := by
  induction m with
  | nil => simp [Memory.insert, Memory.readByte, eq_comm]
  | cons c m ih =>
    obtain ⟨i, v⟩ := c
    have hi : i ≠ a := h (i, v) (by simp)
    have ih := ih (fun c hc => h c (by simp [hc]))
    unfold Memory.insert
    by_cases hk : k = a
    · subst hk
      split_ifs <;> simp_all [Memory.readByte_cons]
    · have hk' : a ≠ k := fun e => hk e.symm
      split_ifs <;> simp_all [Memory.readByte_cons]

/-- A read after a write of one byte: the byte written at its address, what was there anywhere else. -/
theorem Memory.readByte_writeByte (m : Memory) (a k : Nat) (b : Byte) :
    (m.writeByte a b).readByte k = if k = a then b else m.readByte k := by
  unfold Memory.writeByte
  split_ifs with hb hk hk
  · simp [Memory.readByte_erase, hk, hb]
  · simp [Memory.readByte_erase, hk]
  all_goals
    rw [Memory.readByte_insert _ _ _ _ (fun c hc => (Memory.mem_erase.mp hc).2)]
    simp [hk, Memory.readByte_erase]

/-! ## Words -/

/-- The four bytes of a word make the word, in either byte order. -/
theorem wordOfBytes_byteOfWord (order : ByteOrder) (w : Word) :
    wordOfBytes order (byteOfWord order w 0) (byteOfWord order w 1) (byteOfWord order w 2) (byteOfWord order w 3) = w := by
  cases order <;>
    (simp only [wordOfBytes, byteOfWord]
     rw [BitVec.extractLsb'_append_extractLsb'_eq_extractLsb' (by rfl),
       BitVec.extractLsb'_append_extractLsb'_eq_extractLsb' (by rfl),
       BitVec.extractLsb'_append_extractLsb'_eq_extractLsb' (by rfl)]
     exact BitVec.extractLsb'_eq_self)

/-- A byte of a word made of four bytes, in either byte order. -/
theorem byteOfWord_wordOfBytes (order : ByteOrder) (b0 b1 b2 b3 : Byte) (k : Nat) (hk : k < 4) :
    byteOfWord order (wordOfBytes order b0 b1 b2 b3) k = if k = 0 then b0 else if k = 1 then b1 else if k = 2 then b2 else b3 := by
  obtain rfl | rfl | rfl | rfl : k = 0 ∨ k = 1 ∨ k = 2 ∨ k = 3 := by omega
  all_goals
    cases order <;>
      (apply BitVec.eq_of_getLsbD_eq
       intro j hj
       simp only [wordOfBytes, byteOfWord, BitVec.getLsbD_append, BitVec.getLsbD_extractLsb']
       simp only [hj, decide_true, Bool.true_and]
       repeat' split
       all_goals first | omega | contradiction | (congr 1; omega))

/-- The bytes of a word written, and what was there in every other word. -/
theorem Memory.readByte_writeWord (m : Memory) (a k : Nat) (w : Word) :
    (m.writeWord a w).readByte k = if k / 4 = a / 4 then byteOfWord byteOrder w (k % 4) else m.readByte k := by
  unfold Memory.writeWord wordBase
  simp only [Memory.readByte_writeByte]
  split_ifs
  all_goals first
    | omega
    | rfl
    | (congr 1; omega)

/-- A word depends on the word address alone (R55). -/
theorem Memory.readWord_congr (m : Memory) {a k : Nat} (h : k / 4 = a / 4) : m.readWord k = m.readWord a := by
  unfold Memory.readWord wordBase
  rw [h]

/-- Two memories with the same four bytes have the same word. -/
theorem Memory.readWord_of_bytes {m n : Memory} {a : Nat} (h : ∀ k, k / 4 = a / 4 → m.readByte k = n.readByte k) :
    m.readWord a = n.readWord a := by
  unfold Memory.readWord wordBase
  rw [h _ (by omega), h _ (by omega), h _ (by omega), h _ (by omega)]

/-- A byte of a word of RAM. -/
theorem Memory.byteOfWord_readWord (m : Memory) (a : Nat) : byteOfWord byteOrder (m.readWord a) (a % 4) = m.readByte a := by
  unfold Memory.readWord wordBase
  rw [byteOfWord_wordOfBytes _ _ _ _ _ _ (by omega)]
  split_ifs <;> (congr 1; omega)

/-- A read after a write of one word: the word written at any address of it, what was there at any other word. -/
theorem Memory.readWord_writeWord (m : Memory) (a k : Nat) (w : Word) :
    (m.writeWord a w).readWord k = if k / 4 = a / 4 then w else m.readWord k := by
  split_ifs with h
  · conv_rhs => rw [← wordOfBytes_byteOfWord byteOrder w]
    unfold Memory.readWord wordBase
    simp only [Memory.readByte_writeWord]
    rw [if_pos (by omega), if_pos (by omega), if_pos (by omega), if_pos (by omega)]
    congr 2 <;> omega
  · exact Memory.readWord_of_bytes fun j hj => by rw [Memory.readByte_writeWord, if_neg (by omega)]

/-- A byte written leaves every other word. -/
theorem Memory.readWord_writeByte_of_ne (m : Memory) {a k : Nat} (b : Byte) (h : k / 4 ≠ a / 4) :
    (m.writeByte a b).readWord k = m.readWord k :=
  Memory.readWord_of_bytes fun j hj => by rw [Memory.readByte_writeByte, if_neg (by rintro rfl; exact h hj.symm)]

/-! ## The canonical form -/

theorem Memory.wf_nil : Memory.wf [] := ⟨List.Pairwise.nil, by simp⟩

theorem Memory.wf_erase {m : Memory} (h : m.wf) (a : Nat) : (m.erase a).wf :=
  ⟨h.1.filter _, fun c hc => h.2 c (Memory.mem_erase.mp hc).1⟩

theorem Memory.mem_insert {m : Memory} {a : Nat} {b : Byte} {c : Host.Cell} :
    c ∈ m.insert a b ↔ c = (a, b) ∨ c ∈ m := by
  induction m with
  | nil => simp [Memory.insert]
  | cons d m ih =>
    obtain ⟨i, v⟩ := d
    unfold Memory.insert
    split_ifs
    · simp
    · rw [List.mem_cons, ih, List.mem_cons]; tauto

theorem Memory.wf_insert {m : Memory} (h : m.wf) {a : Nat} {b : Byte} (hb : b ≠ Memory.unlisted) (ha : ∀ c ∈ m, c.1 ≠ a) :
    (m.insert a b).wf := by
  refine ⟨?_, fun c hc => ?_⟩
  · have hs := h.1
    clear h
    induction m with
    | nil => simp [Memory.insert]
    | cons d m ih =>
      obtain ⟨i, v⟩ := d
      obtain ⟨hd, hm⟩ := List.pairwise_cons.mp hs
      have hi : i ≠ a := ha (i, v) (by simp)
      unfold Memory.insert
      split_ifs with h1
      · refine List.pairwise_cons.mpr ⟨fun c hc => ?_, hs⟩
        obtain rfl | hc := List.mem_cons.mp hc
        · exact h1
        · exact Nat.lt_trans h1 (hd c hc)
      · refine List.pairwise_cons.mpr ⟨fun c hc => ?_, ih (fun c hc => ha c (by simp [hc])) hm⟩
        obtain rfl | hc := Memory.mem_insert.mp hc
        · show i < a; omega
        · exact hd c hc
  · obtain rfl | hc := Memory.mem_insert.mp hc
    · exact hb
    · exact h.2 c hc

/-- A byte write keeps the canonical form. -/
theorem Memory.wf_writeByte {m : Memory} (h : m.wf) (a : Nat) (b : Byte) : (m.writeByte a b).wf := by
  unfold Memory.writeByte
  split_ifs with hb
  · exact Memory.wf_erase h a
  · exact Memory.wf_insert (Memory.wf_erase h a) hb fun c hc => (Memory.mem_erase.mp hc).2

/-- A word write keeps the canonical form. -/
theorem Memory.wf_writeWord {m : Memory} (h : m.wf) (a : Nat) (w : Word) : (m.writeWord a w).wf := by
  unfold Memory.writeWord
  exact Memory.wf_writeByte (Memory.wf_writeByte (Memory.wf_writeByte (Memory.wf_writeByte h _ _) _ _) _ _) _ _

/-- A byte write lists no address but its own beside those listed before. -/
theorem Memory.mem_writeByte {m : Memory} {a : Nat} {b : Byte} {c : Host.Cell} (h : c ∈ m.writeByte a b) :
    c.1 = a ∨ c ∈ m := by
  unfold Memory.writeByte at h
  split_ifs at h
  · exact .inr (Memory.mem_erase.mp h).1
  · obtain rfl | h := Memory.mem_insert.mp h
    · exact .inl rfl
    · exact .inr (Memory.mem_erase.mp h).1

/-- A word write lists no address but the four of its word beside those listed before. -/
theorem Memory.mem_writeWord {m : Memory} {a : Nat} {w : Word} {c : Host.Cell} (h : c ∈ m.writeWord a w) :
    c.1 / 4 = a / 4 ∨ c ∈ m := by
  unfold Memory.writeWord wordBase at h
  obtain h | h := Memory.mem_writeByte h
  · omega
  obtain h | h := Memory.mem_writeByte h
  · omega
  obtain h | h := Memory.mem_writeByte h
  · omega
  obtain h | h := Memory.mem_writeByte h
  · omega
  exact .inr h

end Sys2Proof.Machine
end

