-- ==== Sys2Proof/Laws/State.lean ====
section
/-! SUPPORT. What each update of the state leaves of each field, so that no later proof unfolds an update. -/

namespace Sys2Proof.Machine

/-! ## `setReg` -/

@[simp] theorem State.setReg_mem (s : State) (r : Reg) (v : Word) : (s.setReg r v).mem = s.mem := by cases r <;> rfl
@[simp] theorem State.setReg_halted (s : State) (r : Reg) (v : Word) : (s.setReg r v).halted = s.halted := by cases r <;> rfl
@[simp] theorem State.setReg_irq (s : State) (r : Reg) (v : Word) : (s.setReg r v).irq = s.irq := by cases r <;> rfl
@[simp] theorem State.setReg_raised (s : State) (r : Reg) (v : Word) : (s.setReg r v).raised = s.raised := by cases r <;> rfl

/-- A register written is the register read back; every other register is as it was. -/
theorem State.reg_setReg (s : State) (r q : Reg) (v : Word) :
    (s.setReg r v).reg q = if q = r then v else s.reg q := by
  cases r <;> cases q <;> rfl

@[simp] theorem State.reg_setReg_same (s : State) (r : Reg) (v : Word) : (s.setReg r v).reg r = v := by cases r <;> rfl

theorem State.reg_setReg_ne (s : State) {r q : Reg} (v : Word) (h : q ≠ r) : (s.setReg r v).reg q = s.reg q := by
  rw [State.reg_setReg, if_neg h]

/-- A general register written leaves FR. -/
theorem State.setReg_fr_of_gpr (s : State) {r : Reg} (v : Word) (h : r.isGpr = true) : (s.setReg r v).fr = s.fr := by
  cases r <;> first | rfl | cases h

@[simp] theorem State.setReg_reg_self (s : State) (r : Reg) : s.setReg r (s.reg r) = s := by cases r <;> rfl

/-! ## `reg` against the fields -/

@[simp] theorem State.reg_r0 (s : State) : s.reg .r0 = s.r0 := rfl
@[simp] theorem State.reg_r1 (s : State) : s.reg .r1 = s.r1 := rfl
@[simp] theorem State.reg_r2 (s : State) : s.reg .r2 = s.r2 := rfl
@[simp] theorem State.reg_r3 (s : State) : s.reg .r3 = s.r3 := rfl
@[simp] theorem State.reg_r4 (s : State) : s.reg .r4 = s.r4 := rfl
@[simp] theorem State.reg_r5 (s : State) : s.reg .r5 = s.r5 := rfl
@[simp] theorem State.reg_r6 (s : State) : s.reg .r6 = s.r6 := rfl
@[simp] theorem State.reg_r7 (s : State) : s.reg .r7 = s.r7 := rfl
@[simp] theorem State.reg_sp (s : State) : s.reg .sp = s.sp := rfl
@[simp] theorem State.reg_pc (s : State) : s.reg .pc = s.pc := rfl
@[simp] theorem State.reg_ptbr (s : State) : s.reg .ptbr = s.ptbr := rfl
@[simp] theorem State.reg_fr (s : State) : s.reg .fr = s.fr := rfl

/-- Replacing RAM leaves every register. -/
@[simp] theorem State.reg_withMem (s : State) (m : Memory) (r : Reg) : State.reg { s with mem := m } r = s.reg r := by
  cases r <;> rfl

@[simp] theorem State.reg_withRaised (s : State) (o : Option Nat) (r : Reg) : State.reg { s with raised := o } r = s.reg r := by
  cases r <;> rfl

@[simp] theorem State.reg_withIrq (s : State) (q : List Nat) (r : Reg) : State.reg { s with irq := q } r = s.reg r := by
  cases r <;> rfl

@[simp] theorem State.reg_withHalted (s : State) (b : Bool) (r : Reg) : State.reg { s with halted := b } r = s.reg r := by
  cases r <;> rfl

/-- Replacing FR leaves every other register. -/
theorem State.reg_withFr (s : State) (v : Word) {r : Reg} (h : r ≠ .fr) : State.reg { s with fr := v } r = s.reg r := by
  cases r <;> first | rfl | exact absurd rfl h

/-- Replacing `pc` leaves every other register. -/
theorem State.reg_withPc (s : State) (v : Word) {r : Reg} (h : r ≠ .pc) : State.reg { s with pc := v } r = s.reg r := by
  cases r <;> first | rfl | exact absurd rfl h

/-- Replacing `sp` leaves every other register. -/
theorem State.reg_withSp (s : State) (v : Word) {r : Reg} (h : r ≠ .sp) : State.reg { s with sp := v } r = s.reg r := by
  cases r <;> first | rfl | exact absurd rfl h

/-! ## `setGprs` -/

/-- Eight words written to R0 to R7. -/
@[simp] theorem State.setGprs_eight (s : State) (a b c d e f g h : Word) :
    s.setGprs [a, b, c, d, e, f, g, h] = { s with r0 := a, r1 := b, r2 := c, r3 := d, r4 := e, r5 := f, r6 := g, r7 := h } := rfl

/-! ## `setMode` -/

@[simp] theorem State.setMode_r0 (s : State) (b : Bool) : (s.setMode b).r0 = s.r0 := rfl
@[simp] theorem State.setMode_r1 (s : State) (b : Bool) : (s.setMode b).r1 = s.r1 := rfl
@[simp] theorem State.setMode_r2 (s : State) (b : Bool) : (s.setMode b).r2 = s.r2 := rfl
@[simp] theorem State.setMode_r3 (s : State) (b : Bool) : (s.setMode b).r3 = s.r3 := rfl
@[simp] theorem State.setMode_r4 (s : State) (b : Bool) : (s.setMode b).r4 = s.r4 := rfl
@[simp] theorem State.setMode_r5 (s : State) (b : Bool) : (s.setMode b).r5 = s.r5 := rfl
@[simp] theorem State.setMode_r6 (s : State) (b : Bool) : (s.setMode b).r6 = s.r6 := rfl
@[simp] theorem State.setMode_r7 (s : State) (b : Bool) : (s.setMode b).r7 = s.r7 := rfl
@[simp] theorem State.setMode_sp (s : State) (b : Bool) : (s.setMode b).sp = s.sp := rfl
@[simp] theorem State.setMode_pc (s : State) (b : Bool) : (s.setMode b).pc = s.pc := rfl
@[simp] theorem State.setMode_ptbr (s : State) (b : Bool) : (s.setMode b).ptbr = s.ptbr := rfl
@[simp] theorem State.setMode_fr (s : State) (b : Bool) : (s.setMode b).fr = putBit s.fr modeBit b := rfl
@[simp] theorem State.setMode_mem (s : State) (b : Bool) : (s.setMode b).mem = s.mem := rfl
@[simp] theorem State.setMode_halted (s : State) (b : Bool) : (s.setMode b).halted = s.halted := rfl
@[simp] theorem State.setMode_irq (s : State) (b : Bool) : (s.setMode b).irq = s.irq := rfl
@[simp] theorem State.setMode_raised (s : State) (b : Bool) : (s.setMode b).raised = s.raised := rfl
@[simp] theorem State.setMode_gprs (s : State) (b : Bool) : (s.setMode b).gprs = s.gprs := rfl

theorem State.reg_setMode (s : State) (b : Bool) {r : Reg} (h : r ≠ .fr) : (s.setMode b).reg r = s.reg r :=
  State.reg_withFr s _ h

/-- The mode bit is what the setter puts there. -/
theorem State.isVirtual_eq (s : State) : s.isVirtual = s.fr.getLsbD 2 := rfl

end Sys2Proof.Machine
end

