-- ==== Sys2Proof/Laws/Access.lean ====
section
/-! SUPPORT. What the physical and the translated accesses can do: one lemma for each, to be cited instead of unfolding it
(spec/20_memory.md R54 to R69). -/

namespace Sys2Proof.Machine

/-! ## Physical accesses -/

theorem physReadWord_ok {pa : Nat} {s : State} {w : Word} :
    physReadWord pa s = .ok w ↔ pa < ramSize ∧ w = s.mem.readWord pa := by
  unfold physReadWord; split_ifs with h <;> simp [h, eq_comm]

theorem physReadWord_error {pa : Nat} {s : State} {f : Fault} :
    physReadWord pa s = .error f ↔ ramSize ≤ pa ∧ f = .outOfRange := by
  unfold physReadWord; split_ifs with h <;> simp [Nat.not_le.mpr, Nat.le_of_not_lt, h, eq_comm]

theorem physWriteWord_ok {pa : Nat} {v : Word} {s t : State} :
    physWriteWord pa v s = .ok t ↔ pa < ramSize ∧ t = { s with mem := s.mem.writeWord pa v } := by
  unfold physWriteWord; split_ifs with h <;> simp [h, eq_comm]

theorem physWriteWord_error {pa : Nat} {v : Word} {s : State} {f : Fault} :
    physWriteWord pa v s = .error f ↔ ramSize ≤ pa ∧ f = .outOfRange := by
  unfold physWriteWord; split_ifs with h <;> simp [Nat.not_le.mpr, Nat.le_of_not_lt, h, eq_comm]

theorem physReadByte_ok {pa : Nat} {s : State} {b : Byte} :
    physReadByte pa s = .ok b ↔ pa < ramSize ∧ b = s.mem.readByte pa := by
  unfold physReadByte; split_ifs with h <;> simp [h, eq_comm]

theorem physReadByte_error {pa : Nat} {s : State} {f : Fault} :
    physReadByte pa s = .error f ↔ ramSize ≤ pa ∧ f = .outOfRange := by
  unfold physReadByte; split_ifs with h <;> simp [Nat.not_le.mpr, Nat.le_of_not_lt, h, eq_comm]

theorem physWriteByte_ok {pa : Nat} {b : Byte} {s t : State} :
    physWriteByte pa b s = .ok t ↔ pa < ramSize ∧ t = { s with mem := s.mem.writeByte pa b } := by
  unfold physWriteByte; split_ifs with h <;> simp [h, eq_comm]

theorem physWriteByte_error {pa : Nat} {b : Byte} {s : State} {f : Fault} :
    physWriteByte pa b s = .error f ↔ ramSize ≤ pa ∧ f = .outOfRange := by
  unfold physWriteByte; split_ifs with h <;> simp [Nat.not_le.mpr, Nat.le_of_not_lt, h, eq_comm]

/-! ## Runs of words -/

/-- RAM after the words are written in order. -/
def Memory.writeWords (m : Memory) (cells : List (Nat × Word)) : Memory :=
  cells.foldl (fun n p => n.writeWord p.1 p.2) m

theorem physReadWords_ok {pas : List Nat} {s : State} {ws : List Word} :
    physReadWords pas s = .ok ws ↔ (∀ pa ∈ pas, pa < ramSize) ∧ ws = pas.map s.mem.readWord := by
  induction pas generalizing ws with
  | nil => simp [physReadWords, eq_comm]
  | cons pa pas ih =>
    unfold physReadWords
    cases h : physReadWord pa s with
    | error f => have := (physReadWord_error.mp h).1; simp; omega
    | ok w =>
      obtain ⟨h1, rfl⟩ := physReadWord_ok.mp h
      cases h2 : physReadWords pas s with
      | error f =>
        simp only [reduceCtorEq, List.mem_cons, forall_eq_or_imp, false_iff, not_and]
        intro hp _
        rw [ih.mpr ⟨hp.2, rfl⟩] at h2
        cases h2
      | ok ws' =>
        obtain ⟨h3, rfl⟩ := ih.mp h2
        simp only [Except.ok.injEq, List.mem_cons, forall_eq_or_imp, List.map_cons]
        exact ⟨fun e => ⟨⟨h1, h3⟩, e.symm⟩, fun e => e.2.symm⟩

theorem physReadWords_error {pas : List Nat} {s : State} {f : Fault} :
    physReadWords pas s = .error f ↔ (∃ pa ∈ pas, ramSize ≤ pa) ∧ f = .outOfRange := by
  induction pas with
  | nil => simp [physReadWords]
  | cons pa pas ih =>
    unfold physReadWords
    cases h : physReadWord pa s with
    | error g =>
      obtain ⟨h1, rfl⟩ := physReadWord_error.mp h
      simp [h1, eq_comm]
    | ok w =>
      obtain ⟨h1, rfl⟩ := physReadWord_ok.mp h
      cases h2 : physReadWords pas s with
      | error g => simp [Nat.not_le.mpr h1, ← ih, h2]
      | ok ws =>
        have := (physReadWords_ok.mp h2).1
        simp only [reduceCtorEq, List.mem_cons, exists_eq_or_imp, Nat.not_le.mpr h1, false_or, false_iff, not_and]
        rintro ⟨q, hq, hq'⟩
        exact absurd (this q hq) (by omega)

theorem physWriteWords_ok {cells : List (Nat × Word)} {s t : State} :
    physWriteWords cells s = .ok t ↔ (∀ p ∈ cells, p.1 < ramSize) ∧ t = { s with mem := s.mem.writeWords cells } := by
  induction cells generalizing s with
  | nil => simp [physWriteWords, Memory.writeWords, eq_comm]
  | cons p cells ih =>
    obtain ⟨pa, w⟩ := p
    unfold physWriteWords
    cases h : physWriteWord pa w s with
    | error f => have := (physWriteWord_error.mp h).1; simp; omega
    | ok u =>
      obtain ⟨h1, rfl⟩ := physWriteWord_ok.mp h
      simp [ih, h1, Memory.writeWords]

theorem physWriteWords_error {cells : List (Nat × Word)} {s : State} {f : Fault} :
    physWriteWords cells s = .error f ↔ (∃ p ∈ cells, ramSize ≤ p.1) ∧ f = .outOfRange := by
  induction cells generalizing s with
  | nil => simp [physWriteWords]
  | cons p cells ih =>
    obtain ⟨pa, w⟩ := p
    unfold physWriteWords
    cases h : physWriteWord pa w s with
    | error g =>
      obtain ⟨h1, rfl⟩ := physWriteWord_error.mp h
      simp [h1, eq_comm]
    | ok u =>
      obtain ⟨h1, rfl⟩ := physWriteWord_ok.mp h
      simp [ih, Nat.not_le.mpr h1]

/-- A byte of no word written is as it was. -/
theorem Memory.readByte_writeWords (m : Memory) (cells : List (Nat × Word)) {a : Nat} (h : ∀ p ∈ cells, a / 4 ≠ p.1 / 4) :
    (m.writeWords cells).readByte a = m.readByte a := by
  induction cells generalizing m with
  | nil => rfl
  | cons p cells ih =>
    show Memory.readByte (Memory.writeWords (m.writeWord p.1 p.2) cells) a = _
    rw [ih _ (fun q hq => h q (by simp [hq])), Memory.readByte_writeWord, if_neg (h p (by simp))]

/-- A word not written is as it was. -/
theorem Memory.readWord_writeWords (m : Memory) (cells : List (Nat × Word)) {a : Nat} (h : ∀ p ∈ cells, a / 4 ≠ p.1 / 4) :
    (m.writeWords cells).readWord a = m.readWord a :=
  Memory.readWord_of_bytes fun k hk => Memory.readByte_writeWords m cells fun p hp => by rw [hk]; exact h p hp

/-- Words written to different words of RAM are all there. -/
theorem Memory.readWord_writeWords_of_mem (m : Memory) (cells : List (Nat × Word))
    (h : cells.Pairwise (fun p q => p.1 / 4 ≠ q.1 / 4)) {p : Nat × Word} (hp : p ∈ cells) :
    (m.writeWords cells).readWord p.1 = p.2 := by
  induction cells generalizing m with
  | nil => simp at hp
  | cons q cells ih =>
    obtain ⟨hq, hc⟩ := List.pairwise_cons.mp h
    show Memory.readWord (Memory.writeWords (m.writeWord q.1 q.2) cells) p.1 = _
    obtain rfl | hp := List.mem_cons.mp hp
    · rw [Memory.readWord_writeWords _ _ hq, Memory.readWord_writeWord, if_pos rfl]
    · exact ih _ hc hp

theorem Memory.wf_writeWords {m : Memory} (h : m.wf) (cells : List (Nat × Word)) : (m.writeWords cells).wf := by
  induction cells generalizing m with
  | nil => exact h
  | cons p cells ih => exact ih (Memory.wf_writeWord h _ _)

theorem Memory.mem_writeWords {m : Memory} {cells : List (Nat × Word)} {c : Host.Cell} (h : c ∈ m.writeWords cells) :
    (∃ p ∈ cells, c.1 / 4 = p.1 / 4) ∨ c ∈ m := by
  induction cells generalizing m with
  | nil => exact .inr h
  | cons p cells ih =>
    obtain ⟨q, hq, hqc⟩ | h := ih (m := m.writeWord p.1 p.2) h
    · exact .inl ⟨q, by simp [hq], hqc⟩
    · obtain h | h := Memory.mem_writeWord h
      · exact .inl ⟨p, by simp, h⟩
      · exact .inr h

/-! ## Translation -/

/-- In real mode translation is the identity (R66). -/
theorem translate_real {s : State} (h : s.isVirtual = false) (va : Word) : translate va s = .ok (.mapped va.toNat) := by
  unfold translate; rw [h]; rfl

/-- Everything `Translate` can do in virtual mode (R66). -/
theorem translate_virtual {s : State} (h : s.isVirtual = true) (va : Word) :
    translate va s =
      if ramSize ≤ s.ptbr.toNat then .error .outOfRange
      else if (s.mem.readWord s.ptbr.toNat).toNat ≤ va.toNat / pageSize then .ok .pageFault
      else if ramSize ≤ entryAddr s.ptbr (va.toNat / pageSize) then .error .outOfRange
      else if entryValid (s.mem.readWord (entryAddr s.ptbr (va.toNat / pageSize))) then
        .ok (.mapped (entryPage (s.mem.readWord (entryAddr s.ptbr (va.toNat / pageSize))) * pageSize + va.toNat % pageSize))
      else .ok .pageFault := by
  unfold translate physReadWord
  simp only [h, if_true]
  by_cases h1 : ramSize ≤ s.ptbr.toNat
  · simp only [h1, Nat.not_lt.mpr h1, if_true, if_false]
  · simp only [h1, Nat.lt_of_not_le h1, if_true, if_false]
    by_cases h2 : (s.mem.readWord s.ptbr.toNat).toNat ≤ va.toNat / pageSize
    · simp only [h2, if_true]
    · simp only [h2, if_false]
      by_cases h3 : ramSize ≤ entryAddr s.ptbr (va.toNat / pageSize)
      · simp only [h3, Nat.not_lt.mpr h3, if_true, if_false]
      · simp only [h3, Nat.lt_of_not_le h3, if_true, if_false]

/-- The only stop of a walk is an address outside RAM. -/
theorem translate_error {va : Word} {s : State} {f : Fault} (h : translate va s = .error f) : f = .outOfRange := by
  cases hv : s.isVirtual
  · rw [translate_real hv] at h; cases h
  · rw [translate_virtual hv] at h
    split_ifs at h <;> simp_all

/-- No page fault in real mode. -/
theorem isVirtual_of_pageFault {va : Word} {s : State} (h : translate va s = .ok .pageFault) : s.isVirtual = true := by
  by_contra hv
  rw [translate_real (by simpa using hv)] at h
  cases h

/-- `Translate` reads the mode, PTBR and RAM alone. -/
theorem translate_congr {s t : State} (hv : t.isVirtual = s.isVirtual) (hp : t.ptbr = s.ptbr) (hm : t.mem = s.mem) (va : Word) :
    translate va t = translate va s := by
  cases h : s.isVirtual
  · rw [translate_real h, translate_real (hv.trans h)]
  · rw [translate_virtual h, translate_virtual (hv.trans h), hp, hm]

/-- Translation keeps the offset in the page (R66). -/
theorem translate_offset {va : Word} {s : State} {pa : Nat} (h : translate va s = .ok (.mapped pa)) :
    pa % pageSize = va.toNat % pageSize := by
  cases hv : s.isVirtual with
  | false =>
    rw [translate_real hv] at h
    simp only [Except.ok.injEq, Translation.mapped.injEq] at h
    rw [h]
  | true =>
    rw [translate_virtual hv] at h
    split_ifs at h <;> first | (cases h; done) | skip
    simp only [Except.ok.injEq, Translation.mapped.injEq] at h
    rw [← h, Nat.add_comm, Nat.add_mul_mod_self_right, Nat.mod_mod]

/-! ## Translated accesses -/

/-- Everything `resolve` can do. -/
theorem resolve_eq (va : Word) (s : State) :
    resolve va s = match translate va s with
      | .error f => .error (.machineFault f)
      | .ok .pageFault => .error (.interrupt pageFaultCode)
      | .ok (.mapped pa) => .ok pa := by
  unfold resolve; cases h : translate va s with
  | error f => rfl
  | ok r => cases r <;> rfl

theorem resolve_ok {va : Word} {s : State} {pa : Nat} : resolve va s = .ok pa ↔ translate va s = .ok (.mapped pa) := by
  rw [resolve_eq]
  cases h : translate va s with
  | error f => simp
  | ok r => cases r <;> simp

theorem memReadWord_ok {va : Word} {s : State} {w : Word} :
    memReadWord va s = .ok w ↔ ∃ pa, translate va s = .ok (.mapped pa) ∧ pa < ramSize ∧ w = s.mem.readWord pa := by
  unfold memReadWord
  cases h : resolve va s with
  | error e =>
    simp only [reduceCtorEq, false_iff, not_exists, not_and]
    intro pa hpa
    rw [resolve_ok.mpr hpa] at h; cases h
  | ok pa =>
    have hpa := resolve_ok.mp h
    simp only [hpa]
    cases h2 : physReadWord pa s with
    | error f =>
      have := (physReadWord_error.mp h2).1
      simp [orFault]; omega
    | ok w' =>
      obtain ⟨h3, rfl⟩ := physReadWord_ok.mp h2
      simp [orFault, h3, eq_comm]

theorem memReadByte_ok {va : Word} {s : State} {b : Byte} :
    memReadByte va s = .ok b ↔ ∃ pa, translate va s = .ok (.mapped pa) ∧ pa < ramSize ∧ b = s.mem.readByte pa := by
  unfold memReadByte
  cases h : resolve va s with
  | error e =>
    simp only [reduceCtorEq, false_iff, not_exists, not_and]
    intro pa hpa
    rw [resolve_ok.mpr hpa] at h; cases h
  | ok pa =>
    have hpa := resolve_ok.mp h
    simp only [hpa]
    cases h2 : physReadByte pa s with
    | error f =>
      have := (physReadByte_error.mp h2).1
      simp [orFault]; omega
    | ok w' =>
      obtain ⟨h3, rfl⟩ := physReadByte_ok.mp h2
      simp [orFault, h3, eq_comm]

theorem memWriteWord_ok {va v : Word} {s t : State} :
    memWriteWord va v s = .ok t ↔
      ∃ pa, translate va s = .ok (.mapped pa) ∧ pa < ramSize ∧ t = { s with mem := s.mem.writeWord pa v } := by
  unfold memWriteWord
  cases h : resolve va s with
  | error e =>
    simp only [reduceCtorEq, false_iff, not_exists, not_and]
    intro pa hpa
    rw [resolve_ok.mpr hpa] at h; cases h
  | ok pa =>
    have hpa := resolve_ok.mp h
    simp only [hpa]
    cases h2 : physWriteWord pa v s with
    | error f =>
      have := (physWriteWord_error.mp h2).1
      simp [orFault]; omega
    | ok w' =>
      obtain ⟨h3, rfl⟩ := physWriteWord_ok.mp h2
      simp [orFault, h3, eq_comm]

theorem memWriteByte_ok {va : Word} {b : Byte} {s t : State} :
    memWriteByte va b s = .ok t ↔
      ∃ pa, translate va s = .ok (.mapped pa) ∧ pa < ramSize ∧ t = { s with mem := s.mem.writeByte pa b } := by
  unfold memWriteByte
  cases h : resolve va s with
  | error e =>
    simp only [reduceCtorEq, false_iff, not_exists, not_and]
    intro pa hpa
    rw [resolve_ok.mpr hpa] at h; cases h
  | ok pa =>
    have hpa := resolve_ok.mp h
    simp only [hpa]
    cases h2 : physWriteByte pa b s with
    | error f =>
      have := (physWriteByte_error.mp h2).1
      simp [orFault]; omega
    | ok w' =>
      obtain ⟨h3, rfl⟩ := physWriteByte_ok.mp h2
      simp [orFault, h3, eq_comm]

/-! ## Blocks of words (R69) -/

theorem translateAll_ok {vas : List Word} {s : State} {ts : List Translation} :
    translateAll vas s = .ok ts ↔ vas.map (fun va => translate va s) = ts.map .ok := by
  induction vas generalizing ts with
  | nil => cases ts <;> simp [translateAll]
  | cons va vas ih =>
    unfold translateAll
    cases h : translate va s with
    | error f => cases ts <;> simp [h]
    | ok r =>
      cases h2 : translateAll vas s with
      | error f =>
        cases ts with
        | nil => simp
        | cons t ts =>
          simp only [reduceCtorEq, List.map_cons, List.cons.injEq, false_iff, not_and, h]
          intro _ hts
          rw [ih.mpr hts] at h2; cases h2
      | ok rs =>
        have := ih.mp h2
        cases ts with
        | nil => simp
        | cons t ts =>
          simp only [Except.ok.injEq, List.cons.injEq, List.map_cons, h, this]
          refine and_congr Iff.rfl ⟨fun e => by rw [e], fun e => ?_⟩
          exact List.map_injective_iff.mpr (fun a b e => by cases e; rfl) e

/-- A walk of the block ends outside RAM exactly if one of its walks does. -/
theorem translateAll_error {vas : List Word} {s : State} {f : Fault} :
    translateAll vas s = .error f ↔ (∃ va ∈ vas, translate va s = .error .outOfRange) ∧ f = .outOfRange := by
  induction vas with
  | nil => simp [translateAll]
  | cons va vas ih =>
    unfold translateAll
    cases h : translate va s with
    | error g => obtain rfl := translate_error h; simp [h, eq_comm]
    | ok r =>
      cases h2 : translateAll vas s with
      | error g => simp [h, ← ih, h2]
      | ok rs =>
        simp only [reduceCtorEq, List.mem_cons, exists_eq_or_imp, h, false_or, false_iff, not_and]
        rintro ⟨va', hm, he⟩
        exact absurd he (by
          have := translateAll_ok.mp h2
          have hmem : translate va' s ∈ vas.map (fun va => translate va s) := List.mem_map_of_mem hm
          rw [this] at hmem
          obtain ⟨t, _, ht⟩ := List.mem_map.mp hmem
          rw [← ht]; exact fun e => by cases e)

theorem allMapped_some {ts : List Translation} {pas : List Nat} : allMapped ts = some pas ↔ ts = pas.map .mapped := by
  induction ts generalizing pas with
  | nil => cases pas <;> simp [allMapped]
  | cons t ts ih =>
    cases t with
    | pageFault => cases pas <;> simp [allMapped]
    | mapped pa =>
      unfold allMapped
      cases h : allMapped ts with
      | none =>
        cases pas with
        | nil => simp
        | cons q qs =>
          simp only [reduceCtorEq, List.map_cons, List.cons.injEq, false_iff, not_and]
          intro _ e
          rw [ih.mpr e] at h; cases h
      | some rs =>
        obtain rfl := ih.mp h
        cases pas with
        | nil => simp
        | cons q qs =>
          simp only [Option.some.injEq, List.cons.injEq, List.map_cons, Translation.mapped.injEq]
          refine and_congr Iff.rfl ⟨fun e => by rw [e], fun e => ?_⟩
          exact List.map_injective_iff.mpr (fun a b e => by cases e; rfl) e

theorem allMapped_none {ts : List Translation} : allMapped ts = none ↔ Translation.pageFault ∈ ts := by
  induction ts with
  | nil => simp [allMapped]
  | cons t ts ih =>
    cases t with
    | pageFault => simp [allMapped]
    | mapped pa =>
      unfold allMapped
      cases h : allMapped ts with
      | none => simp [ih.mp h]
      | some rs => obtain rfl := allMapped_some.mp h; simp

/-- The whole block translates. -/
theorem resolveAll_ok {vas : List Word} {s : State} {pas : List Nat} :
    resolveAll vas s = .ok pas ↔ vas.map (fun va => translate va s) = pas.map (fun pa => .ok (.mapped pa)) := by
  unfold resolveAll
  cases h : translateAll vas s with
  | error f =>
    obtain ⟨⟨va, hm, he⟩, rfl⟩ := translateAll_error.mp h
    simp only [reduceCtorEq, false_iff]
    intro e
    have hmem : translate va s ∈ vas.map (fun va => translate va s) := List.mem_map_of_mem hm
    rw [e, he] at hmem
    simp at hmem
  | ok ts =>
    have ht := translateAll_ok.mp h
    rw [ht]
    dsimp only
    cases h2 : allMapped ts with
    | none =>
      have := allMapped_none.mp h2
      simp only [reduceCtorEq, false_iff]
      intro e
      have hmem : (Except.ok .pageFault : Except Fault Translation) ∈ ts.map .ok := List.mem_map_of_mem this
      rw [e] at hmem
      simp at hmem
    | some rs =>
      obtain rfl := allMapped_some.mp h2
      simp only [Except.ok.injEq, List.map_map]
      refine ⟨fun e => by rw [e]; rfl, fun e => ?_⟩
      exact List.map_injective_iff.mpr (fun a b e => by cases e; rfl) (e : rs.map (fun pa => Except.ok (Translation.mapped pa)) = _)

/-- The block does not translate: a walk outside RAM wins over a page fault (log entry 15). -/
theorem resolveAll_error {vas : List Word} {s : State} {r : Raise} :
    resolveAll vas s = .error r ↔
      ((∃ va ∈ vas, translate va s = .error .outOfRange) ∧ r = .machineFault .outOfRange) ∨
      ((∀ va ∈ vas, translate va s ≠ .error .outOfRange) ∧ (∃ va ∈ vas, translate va s = .ok .pageFault) ∧
        r = .interrupt pageFaultCode) := by
  unfold resolveAll
  cases h : translateAll vas s with
  | error f =>
    obtain ⟨⟨va, hm, he⟩, rfl⟩ := translateAll_error.mp h
    have : ¬ ∀ va ∈ vas, translate va s ≠ .error .outOfRange := fun hh => hh va hm he
    simp only [Except.error.injEq, this, false_and, or_false]
    exact ⟨fun e => ⟨⟨va, hm, he⟩, e.symm⟩, fun e => e.2.symm⟩
  | ok ts =>
    have ht := translateAll_ok.mp h
    have hall : ∀ va ∈ vas, ∃ t ∈ ts, translate va s = .ok t := by
      intro va hm
      have hmem : translate va s ∈ vas.map (fun va => translate va s) := List.mem_map_of_mem hm
      rw [ht] at hmem
      obtain ⟨t, h1, h2⟩ := List.mem_map.mp hmem
      exact ⟨t, h1, h2.symm⟩
    have hno : ∀ va ∈ vas, translate va s ≠ .error .outOfRange := by
      intro va hm
      obtain ⟨t, _, e⟩ := hall va hm
      rw [e]; exact fun e => by cases e
    have hno' : ¬ ∃ va ∈ vas, translate va s = .error .outOfRange := fun ⟨va, hm, he⟩ => hno va hm he
    simp only [hno', false_and, false_or]
    cases h2 : allMapped ts with
    | none =>
      have hp := allMapped_none.mp h2
      have hmem : (Except.ok .pageFault : Except Fault Translation) ∈ ts.map .ok := List.mem_map_of_mem hp
      rw [← ht] at hmem
      obtain ⟨va, hm, he⟩ := List.mem_map.mp hmem
      simp only [Except.error.injEq]
      exact ⟨fun e => ⟨hno, ⟨va, hm, he⟩, e.symm⟩, fun e => e.2.2.symm⟩
    | some rs =>
      obtain rfl := allMapped_some.mp h2
      simp only [reduceCtorEq, false_iff, not_and]
      rintro _ ⟨va, hm, he⟩
      obtain ⟨t, h3, h4⟩ := hall va hm
      rw [he] at h4
      cases h4
      simp at h3

/-! ## Words in a row (POPINT) -/

theorem memReadWords_real {vas : List Word} {s : State} (hv : s.isVirtual = false) :
    memReadWords vas s = orFault (physReadWords (vas.map BitVec.toNat) s) := by
  induction vas with
  | nil => rfl
  | cons va vas ih =>
    simp only [memReadWords, List.map_cons, physReadWords, memReadWord, resolve_eq, translate_real hv, ih]
    cases physReadWord va.toNat s with
    | error f => rfl
    | ok w => cases physReadWords (vas.map BitVec.toNat) s <;> rfl

end Sys2Proof.Machine
end

