-- ==== Sys2Proof/Laws/Encoding.lean ====
section
/-! SUPPORT. The fields of a packed word and the register codes, read back (spec/30_encoding.md R93 to R98,
spec/10_state.md R22, R23). -/

namespace Sys2Proof

theorem gprField_codeOfReg {r : Reg} (h : r.isGpr = true) : gprField (codeOfReg r) = some r := by
  cases r <;> first | rfl | cases h

theorem gprSpField_codeOfReg {r : Reg} (h : r.isGprSp = true) : gprSpField (codeOfReg r) = some r := by
  cases r <;> first | rfl | cases h

/-- A code that names a register is that register's. -/
theorem codeOfReg_of_regOfCode : ∀ {c : BitVec 5} {r : Reg}, regOfCode c = some r → codeOfReg r = c := by
  have : ∀ c : BitVec 5, ∀ r ∈ regOfCode c, codeOfReg r = c := by decide +kernel
  exact fun {c r} h => this c r h

theorem gprField_some {c : BitVec 5} {r : Reg} (h : gprField c = some r) : codeOfReg r = c ∧ r.isGpr = true := by
  obtain ⟨h1, h2⟩ := Option.filter_eq_some_iff.mp h
  exact ⟨codeOfReg_of_regOfCode h1, h2⟩

theorem gprSpField_some {c : BitVec 5} {r : Reg} (h : gprSpField c = some r) : codeOfReg r = c ∧ r.isGprSp = true := by
  obtain ⟨h1, h2⟩ := Option.filter_eq_some_iff.mp h
  exact ⟨codeOfReg_of_regOfCode h1, h2⟩

/-! ## The fields of each format -/

theorem opField_packBare (op : BitVec 8) : opField (packBare op) = op := by
  apply BitVec.eq_of_getLsbD_eq
  intro j hj
  simp only [opField, packBare, BitVec.getLsbD_extractLsb', BitVec.getLsbD_append, BitVec.getLsbD_zero, hj, decide_true, Bool.true_and]
  repeat' split
  all_goals first | omega | rfl | (congr 1; omega)

theorem opField_packReg (op : BitVec 8) (r : Reg) : opField (packReg op r) = op := by
  apply BitVec.eq_of_getLsbD_eq
  intro j hj
  simp only [opField, packReg, BitVec.getLsbD_extractLsb', BitVec.getLsbD_append, BitVec.getLsbD_zero, hj, decide_true, Bool.true_and]
  repeat' split
  all_goals first | omega | rfl | (congr 1; omega)

theorem opField_packRegs (op : BitVec 8) (r q : Reg) : opField (packRegs op r q) = op := by
  apply BitVec.eq_of_getLsbD_eq
  intro j hj
  simp only [opField, packRegs, BitVec.getLsbD_extractLsb', BitVec.getLsbD_append, BitVec.getLsbD_zero, hj, decide_true, Bool.true_and]
  repeat' split
  all_goals first | omega | rfl | (congr 1; omega)

theorem opField_packImm (op : BitVec 8) (v : BitVec 24) : opField (packImm op v) = op := by
  apply BitVec.eq_of_getLsbD_eq
  intro j hj
  simp only [opField, packImm, BitVec.getLsbD_extractLsb', BitVec.getLsbD_append, hj, decide_true, Bool.true_and]
  repeat' split
  all_goals first | omega | rfl | (congr 1; omega)

theorem opField_packRegImm (op : BitVec 8) (r : Reg) (v : BitVec 19) : opField (packRegImm op r v) = op := by
  apply BitVec.eq_of_getLsbD_eq
  intro j hj
  simp only [opField, packRegImm, BitVec.getLsbD_extractLsb', BitVec.getLsbD_append, hj, decide_true, Bool.true_and]
  repeat' split
  all_goals first | omega | rfl | (congr 1; omega)

theorem imm24Field_packBare (op : BitVec 8) : imm24Field (packBare op) = 0#24 := by
  apply BitVec.eq_of_getLsbD_eq
  intro j hj
  simp only [imm24Field, packBare, BitVec.getLsbD_extractLsb', BitVec.getLsbD_append, BitVec.getLsbD_zero, hj, decide_true, Bool.true_and]
  repeat' split
  all_goals first | omega | rfl

theorem r1Field_packReg (op : BitVec 8) (r : Reg) : r1Field (packReg op r) = codeOfReg r := by
  apply BitVec.eq_of_getLsbD_eq
  intro j hj
  simp only [r1Field, packReg, BitVec.getLsbD_extractLsb', BitVec.getLsbD_append, BitVec.getLsbD_zero, hj, decide_true, Bool.true_and]
  repeat' split
  all_goals first | omega | rfl | (congr 1; omega)

theorem imm19Field_packReg (op : BitVec 8) (r : Reg) : imm19Field (packReg op r) = 0#19 := by
  apply BitVec.eq_of_getLsbD_eq
  intro j hj
  simp only [imm19Field, packReg, BitVec.getLsbD_extractLsb', BitVec.getLsbD_append, BitVec.getLsbD_zero, hj, decide_true, Bool.true_and]
  repeat' split
  all_goals first | omega | rfl

theorem r1Field_packRegs (op : BitVec 8) (r q : Reg) : r1Field (packRegs op r q) = codeOfReg r := by
  apply BitVec.eq_of_getLsbD_eq
  intro j hj
  simp only [r1Field, packRegs, BitVec.getLsbD_extractLsb', BitVec.getLsbD_append, BitVec.getLsbD_zero, hj, decide_true, Bool.true_and]
  repeat' split
  all_goals first | omega | rfl | (congr 1; omega)

theorem r2Field_packRegs (op : BitVec 8) (r q : Reg) : r2Field (packRegs op r q) = codeOfReg q := by
  apply BitVec.eq_of_getLsbD_eq
  intro j hj
  simp only [r2Field, packRegs, BitVec.getLsbD_extractLsb', BitVec.getLsbD_append, BitVec.getLsbD_zero, hj, decide_true, Bool.true_and]
  repeat' split
  all_goals first | omega | rfl | (congr 1; omega)

theorem low14Field_packRegs (op : BitVec 8) (r q : Reg) : low14Field (packRegs op r q) = 0#14 := by
  apply BitVec.eq_of_getLsbD_eq
  intro j hj
  simp only [low14Field, packRegs, BitVec.getLsbD_extractLsb', BitVec.getLsbD_append, BitVec.getLsbD_zero, hj, decide_true, Bool.true_and]
  repeat' split
  all_goals first | omega | rfl

theorem imm24Field_packImm (op : BitVec 8) (v : BitVec 24) : imm24Field (packImm op v) = v := by
  apply BitVec.eq_of_getLsbD_eq
  intro j hj
  simp only [imm24Field, packImm, BitVec.getLsbD_extractLsb', BitVec.getLsbD_append, hj, decide_true, Bool.true_and]
  repeat' split
  all_goals first | omega | rfl | (congr 1; omega)

theorem r1Field_packRegImm (op : BitVec 8) (r : Reg) (v : BitVec 19) : r1Field (packRegImm op r v) = codeOfReg r := by
  apply BitVec.eq_of_getLsbD_eq
  intro j hj
  simp only [r1Field, packRegImm, BitVec.getLsbD_extractLsb', BitVec.getLsbD_append, hj, decide_true, Bool.true_and]
  repeat' split
  all_goals first | omega | rfl | (congr 1; omega)

theorem imm19Field_packRegImm (op : BitVec 8) (r : Reg) (v : BitVec 19) : imm19Field (packRegImm op r v) = v := by
  apply BitVec.eq_of_getLsbD_eq
  intro j hj
  simp only [imm19Field, packRegImm, BitVec.getLsbD_extractLsb', BitVec.getLsbD_append, hj, decide_true, Bool.true_and]
  repeat' split
  all_goals first | omega | rfl | (congr 1; omega)

/-! ## A word is its fields -/

theorem word_bare (w : Word) : opField w ++ imm24Field w = w := by
  unfold opField imm24Field
  rw [BitVec.extractLsb'_append_extractLsb'_eq_extractLsb' (by rfl)]
  exact BitVec.extractLsb'_eq_self

theorem word_reg (w : Word) : opField w ++ r1Field w ++ imm19Field w = w := by
  unfold opField r1Field imm19Field
  rw [BitVec.extractLsb'_append_extractLsb'_eq_extractLsb' (by rfl),
    BitVec.extractLsb'_append_extractLsb'_eq_extractLsb' (by rfl)]
  exact BitVec.extractLsb'_eq_self

theorem word_regs (w : Word) : opField w ++ r1Field w ++ r2Field w ++ low14Field w = w := by
  unfold opField r1Field r2Field low14Field
  rw [BitVec.extractLsb'_append_extractLsb'_eq_extractLsb' (by rfl),
    BitVec.extractLsb'_append_extractLsb'_eq_extractLsb' (by rfl),
    BitVec.extractLsb'_append_extractLsb'_eq_extractLsb' (by rfl)]
  exact BitVec.extractLsb'_eq_self

/-! ## What the decoder accepts -/

/-- The layout of an opcode byte stands in the map. -/
theorem layoutOf_mem {op : BitVec 8} {l : Layout} (h : layoutOf op = some l) : (op, l) ∈ opcodeMap := by
  obtain ⟨l1, l2, h, -⟩ := List.lookup_eq_some_iff.mp h
  rw [h]; simp

/-- Everything a format can give: the registers its fields name, each in its class, and its reserved bits zero (R98, R101). -/
theorem readFields_ok {l : Layout} {w : Word} {i : Instr} (h : readFields l w = .ok i) :
    match l with
    | .bare j => i = j ∧ imm24Field w = 0#24
    | .oneReg f => ∃ r, r.isGpr = true ∧ r1Field w = codeOfReg r ∧ imm19Field w = 0#19 ∧ i = f r
    | .twoRegs f => ∃ r q, r.isGpr = true ∧ q.isGpr = true ∧ r1Field w = codeOfReg r ∧ r2Field w = codeOfReg q ∧
        low14Field w = 0#14 ∧ i = f r q
    | .twoRegsSp f => ∃ r q, r.isGprSp = true ∧ q.isGprSp = true ∧ r1Field w = codeOfReg r ∧ r2Field w = codeOfReg q ∧
        low14Field w = 0#14 ∧ i = f r q
    | .imm f => i = f (imm24Field w)
    | .regImm f => ∃ r, r.isGpr = true ∧ r1Field w = codeOfReg r ∧ i = f r (imm19Field w) := by
  cases l <;> simp only [readFields] at h ⊢
  · split_ifs at h with h1; cases h; exact ⟨rfl, h1⟩
  · cases h1 : gprField (r1Field w) with
    | none => rw [h1] at h; cases h
    | some r =>
      obtain ⟨h2, h3⟩ := gprField_some h1
      simp only [h1] at h
      split_ifs at h with h4; cases h; exact ⟨r, h3, h2.symm, h4, rfl⟩
  · split at h
    · rename_i r q h1 h2
      obtain ⟨h3, h4⟩ := gprField_some h1
      obtain ⟨h5, h6⟩ := gprField_some h2
      split_ifs at h with h7; cases h; exact ⟨r, q, h4, h6, h3.symm, h5.symm, h7, rfl⟩
    · cases h
  · split at h
    · rename_i r q h1 h2
      obtain ⟨h3, h4⟩ := gprSpField_some h1
      obtain ⟨h5, h6⟩ := gprSpField_some h2
      split_ifs at h with h7; cases h; exact ⟨r, q, h4, h6, h3.symm, h5.symm, h7, rfl⟩
    · cases h
  · cases h; rfl
  · cases h1 : gprField (r1Field w) with
    | none => rw [h1] at h; cases h
    | some r =>
      obtain ⟨h2, h3⟩ := gprField_some h1
      simp only [h1] at h
      cases h; exact ⟨r, h3, h2.symm, rfl⟩

/-- A word is decoded by the layout of its opcode byte. -/
theorem decode_ok {w : Word} {i : Instr} (h : decode w = .ok i) :
    ∃ l, (opField w, l) ∈ opcodeMap ∧ readFields l w = .ok i := by
  unfold decode at h
  cases h1 : layoutOf (opField w) with
  | none => rw [h1] at h; cases h
  | some l => rw [h1] at h; exact ⟨l, layoutOf_mem h1, h⟩

end Sys2Proof
end

