-- ==== Sys2Proof/Laws/Flags.lean ====
section
/-! SUPPORT. The flag computations bit by bit (spec/40_arithmetic.md R121, spec/41_logical.md R141). -/

namespace Sys2Proof.Machine

/-- One bit is put, the others are kept. -/
theorem getLsbD_putBit (v : Word) (k : Nat) (b : Bool) (hk : k < 32) (j : Nat) :
    (putBit v k b).getLsbD j = if j = k then b else v.getLsbD j := by
  have one : ∀ j, (1#32 <<< k).getLsbD j = decide (j = k) := by
    intro j
    rw [BitVec.getLsbD_shiftLeft]
    by_cases h : j = k
    · subst h; simp [hk]
    · by_cases h' : j < k
      · simp [h']; omega
      · have : ¬ j - k = 0 := by omega
        simp [BitVec.getLsbD_one, h, h', this]
  unfold putBit
  by_cases hj : j = k
  · subst hj
    cases b
    · simp [hk]
    · simp [one]
  · cases b
    · by_cases h32 : j < 32
      · simp [hj, h32]; intro _; omega
      · simp [hj, BitVec.getLsbD_of_ge v j (by omega)]
    · simp [one, hj]

/-- FR bit by bit after an arithmetic instruction (R121). -/
theorem getLsbD_setFlagsArith (wide : Int) (res fr : Word) (j : Nat) :
    (setFlagsArith wide res fr).getLsbD j =
      if j = 0 then decide (intMax < wide) else if j = 1 then decide (res = 0#32) else if j = 3 then res.getLsbD 31
      else fr.getLsbD j := by
  unfold setFlagsArith setZeroSign carryBit zeroBit signBit
  rw [getLsbD_putBit _ _ _ (by omega), getLsbD_putBit _ _ _ (by omega), getLsbD_putBit _ _ _ (by omega)]
  split_ifs <;> first | rfl | omega

/-- FR bit by bit after a logical instruction (R141). -/
theorem getLsbD_setFlagsLogic (res fr : Word) (j : Nat) :
    (setFlagsLogic res fr).getLsbD j =
      if j = 1 then decide (res = 0#32) else if j = 3 then res.getLsbD 31 else fr.getLsbD j := by
  unfold setFlagsLogic setZeroSign zeroBit signBit
  rw [getLsbD_putBit _ _ _ (by omega), getLsbD_putBit _ _ _ (by omega)]
  split_ifs <;> first | rfl | omega

/-- Setting a bit twice leaves the last value. -/
theorem putBit_putBit (v : Word) (k : Nat) (b c : Bool) (hk : k < 32) : putBit (putBit v k b) k c = putBit v k c := by
  apply BitVec.eq_of_getLsbD_eq
  intro j _
  simp only [getLsbD_putBit _ _ _ hk]
  split_ifs <;> rfl

/-- Putting the bit that is there changes nothing. -/
theorem putBit_self (v : Word) (k : Nat) (hk : k < 32) : putBit v k (v.getLsbD k) = v := by
  apply BitVec.eq_of_getLsbD_eq
  intro j _
  rw [getLsbD_putBit _ _ _ hk]
  split_ifs with h
  · rw [h]
  · rfl

end Sys2Proof.Machine
end

