-- ==== Sys2Proof/Laws/Entry.lean ====
section
/-! SUPPORT. Everything taking an interrupt and returning from one can do, and what a body run by `perform` can end in
(spec/60_exceptions.md R230 to R236). -/

namespace Sys2Proof.Machine

/-! ## The entry -/

/-- RAM after step (b) (R232). -/
def memAfterSlots (s : State) : Memory :=
  if s.isVirtual then s.mem.writeWords [(virtPcSlot, s.pc), (virtSpSlot, s.sp)] else s.mem

/-- RAM after steps (b) and (c) (R232, R233). -/
def memAfterFrame (s : State) : Memory := (memAfterSlots s).writeWords (frameCells { s with sp := frameBase s })

/-- The state after steps (b) to (e) for a code (R232 to R234). -/
def afterEntry (code : Nat) (s : State) : State :=
  { s with mem := memAfterFrame s, sp := frameBase s + 40#32, fr := putBit s.fr modeBit false
           pc := (memAfterFrame s).readWord (vectorAddr code), raised := some code }

theorem readWord_slots (m : Memory) (v w : Word) :
    (m.writeWords [(virtPcSlot, v), (virtSpSlot, w)]).readWord realSpSlot = m.readWord realSpSlot :=
  Memory.readWord_writeWords _ _ (by simp [virtPcSlot, virtSpSlot, realSpSlot])

/-- Step (b) always completes: the slots are RAM. -/
theorem leaveVirtualStack_eq (s : State) :
    leaveVirtualStack s = .ok { s with mem := memAfterSlots s, sp := frameBase s } := by
  unfold leaveVirtualStack memAfterSlots frameBase
  cases hv : s.isVirtual with
  | false => simp
  | true =>
    simp only [if_true]
    rw [physWriteWords_ok.mpr ⟨by simp [virtPcSlot, virtSpSlot, ramSize], rfl⟩]
    simp only
    rw [physReadWord_ok.mpr ⟨by decide, rfl⟩]
    simp only [readWord_slots]
    rfl

theorem frameCells_bound (s : State) : (∀ p ∈ frameCells s, p.1 < ramSize) ↔ s.sp.toNat + 36 < ramSize := by
  simp only [frameCells, List.forall_mem_cons, List.not_mem_nil, false_implies, implies_true, and_true]
  omega

/-- Steps (b) to (e): where the frame and the vector are RAM, exactly the state above; otherwise a `MachineFault`. -/
theorem deliver_eq (code : Nat) (s : State) :
    deliver code s = if (frameBase s).toNat + 36 < ramSize ∧ vectorAddr code < ramSize then .ok (afterEntry code s)
      else .error .outOfRange := by
  unfold deliver pushFrame
  rw [leaveVirtualStack_eq]
  simp only
  have hcells : frameCells { s with mem := memAfterSlots s, sp := frameBase s } = frameCells { s with sp := frameBase s } := rfl
  by_cases h1 : (frameBase s).toNat + 36 < ramSize
  · rw [physWriteWords_ok.mpr ⟨(frameCells_bound _).mpr h1, rfl⟩]
    simp only [physReadWord]
    by_cases h2 : vectorAddr code < ramSize
    · simp only [h2, if_true, h1, true_and]
      rw [hcells]
      rfl
    · simp only [h2, if_false, and_false]
  · have h3 := (not_congr (frameCells_bound { s with mem := memAfterSlots s, sp := frameBase s })).mpr h1
    push Not at h3
    rw [physWriteWords_error.mpr ⟨h3, rfl⟩]
    simp only [h1, false_and, if_false]

theorem deliver_ok {code : Nat} {s t : State} : deliver code s = .ok t ↔ EntryFits code s ∧ t = afterEntry code s := by
  have hf : EntryFits code s ↔ (frameBase s).toNat + 36 < ramSize ∧ vectorAddr code < ramSize := by
    unfold EntryFits vectorAddr ramSize ivtBase; omega
  rw [deliver_eq, hf]
  split_ifs with h <;> simp [h, eq_comm]

theorem deliver_error {code : Nat} {s : State} {f : Fault} :
    deliver code s = .error f ↔ ¬ EntryFits code s ∧ f = .outOfRange := by
  have hf : EntryFits code s ↔ (frameBase s).toNat + 36 < ramSize ∧ vectorAddr code < ramSize := by
    unfold EntryFits vectorAddr ramSize ivtBase; omega
  rw [deliver_eq, hf]
  split_ifs with h
  · simp [h]
  · simp only [Except.error.injEq, h, not_false_eq_true, true_and, eq_comm]

/-- The state in which steps (b) to (e) run, and the code they run for (R231). -/
theorem translatePointer_ok {code c : Nat} {s t : State} (h : translatePointer code s = .ok (c, t)) :
    (c = code ∧ t = s) ∨ (code = 4 ∧ c = 3 ∧ t = s ∧ translate s.r0 s = .ok .pageFault) ∨
    (code = 4 ∧ c = 4 ∧ ∃ pa, translate s.r0 s = .ok (.mapped pa) ∧ t = { s with r0 := pointerWord pa }) := by
  unfold translatePointer at h
  split_ifs at h with h4
  · obtain rfl : code = 4 := by simpa [ptrXlateCodes] using h4
    change (match translate s.r0 s with
      | .error e => _
      | .ok .pageFault => _
      | .ok (.mapped pa) => _) = _ at h
    cases ht : translate s.r0 s with
    | error f => rw [ht] at h; cases h
    | ok r =>
      rw [ht] at h
      cases r with
      | pageFault => cases h; exact .inr (.inl ⟨rfl, rfl, rfl, rfl⟩)
      | mapped pa => cases h; exact .inr (.inr ⟨rfl, rfl, pa, rfl, rfl⟩)
  · cases h; exact .inl ⟨rfl, rfl⟩

theorem translatePointer_of_ne {code : Nat} (h : code ≠ 4) (s : State) : translatePointer code s = .ok (code, s) := by
  unfold translatePointer
  rw [if_neg (by simpa [ptrXlateCodes] using h)]

/-- For code 4 (R231). -/
theorem translatePointer_four (s : State) :
    translatePointer 4 s = match translate s.r0 s with
      | .error e => .error e
      | .ok .pageFault => .ok (3, s)
      | .ok (.mapped pa) => .ok (4, { s with r0 := pointerWord pa }) := by
  unfold translatePointer
  rw [if_pos (by decide)]
  rfl

/-- Everything an interrupt entry that completes has done: the state above, for its own code from the same state; or, for code 4
alone, with the page fault's code, or with R0 translated first. -/
theorem interruptEntry_next {code : Nat} {s t : State} (h : interruptEntry code s = .next t) :
    (EntryFits code s ∧ t = afterEntry code s) ∨
    (code = 4 ∧ translate s.r0 s = .ok .pageFault ∧ EntryFits 3 s ∧ t = afterEntry 3 s) ∨
    (code = 4 ∧ ∃ pa, translate s.r0 s = .ok (.mapped pa) ∧ EntryFits 4 s ∧
      t = afterEntry 4 { s with r0 := pointerWord pa }) := by
  unfold interruptEntry enterInterrupt at h
  cases h1 : translatePointer code s with
  | error f => rw [h1] at h; cases h
  | ok p =>
    obtain ⟨c, u⟩ := p
    rw [h1] at h
    simp only at h
    cases h2 : deliver c u with
    | error f => rw [h2] at h; cases h
    | ok t' =>
      rw [h2] at h
      cases h
      obtain ⟨h3, rfl⟩ := deliver_ok.mp h2
      obtain ⟨rfl, rfl⟩ | ⟨rfl, rfl, rfl, h4⟩ | ⟨rfl, rfl, pa, h4, rfl⟩ := translatePointer_ok h1
      · exact .inl ⟨h3, rfl⟩
      · exact .inr (.inl ⟨rfl, h4, h3, rfl⟩)
      · exact .inr (.inr ⟨rfl, pa, h4, h3, rfl⟩)

/-- For every code but 4. -/
theorem interruptEntry_of_ne {code : Nat} (h4 : code ≠ 4) (s : State) :
    interruptEntry code s = match deliver code s with
      | .ok t => .next t
      | .error f => .fault f := by
  cases h : deliver code s <;> simp [interruptEntry, enterInterrupt, translatePointer_of_ne h4, h]

/-- What a completed entry has in common for every code: the interrupt entered, the vector, the mode, what it keeps. -/
theorem interruptEntry_common {code : Nat} {s t : State} (h : interruptEntry code s = .next t) :
    ∃ (c : Nat) (w : Word), (c = code ∨ code = 4 ∧ c = 3) ∧ (w = s.r0 ∨ code = 4) ∧ EntryFits c s ∧
      t = afterEntry c { s with r0 := w } := by
  obtain ⟨h1, rfl⟩ | ⟨rfl, _, h1, rfl⟩ | ⟨rfl, pa, _, h1, rfl⟩ := interruptEntry_next h
  · exact ⟨code, s.r0, .inl rfl, .inl rfl, h1, rfl⟩
  · exact ⟨3, s.r0, .inr ⟨rfl, rfl⟩, .inl rfl, h1, rfl⟩
  · exact ⟨4, pointerWord pa, .inl rfl, .inr rfl, h1, rfl⟩

/-! ## What `afterEntry` holds -/

@[simp] theorem afterEntry_irq (c : Nat) (s : State) : (afterEntry c s).irq = s.irq := rfl
@[simp] theorem afterEntry_halted (c : Nat) (s : State) : (afterEntry c s).halted = s.halted := rfl
@[simp] theorem afterEntry_ptbr (c : Nat) (s : State) : (afterEntry c s).ptbr = s.ptbr := rfl
@[simp] theorem afterEntry_raised (c : Nat) (s : State) : (afterEntry c s).raised = some c := rfl
@[simp] theorem afterEntry_gprs (c : Nat) (s : State) : (afterEntry c s).gprs = s.gprs := rfl
@[simp] theorem afterEntry_mem (c : Nat) (s : State) : (afterEntry c s).mem = memAfterFrame s := rfl

theorem afterEntry_isVirtual (c : Nat) (s : State) : (afterEntry c s).isVirtual = false := by
  show (putBit s.fr modeBit false).getLsbD modeBit = false
  rw [getLsbD_putBit _ _ _ (by decide), if_pos rfl]

/-- An entry that completes changes no bit of FR but M (spec/60_exceptions.md R230, step (d)). -/
theorem interruptEntry_getLsbD_fr {code : Nat} {s t : State} (h : interruptEntry code s = .next t) {k : Nat} (hk : k ≠ modeBit) :
    t.fr.getLsbD k = s.fr.getLsbD k := by
  obtain ⟨c, w, _, _, _, rfl⟩ := interruptEntry_common h
  show (putBit s.fr modeBit false).getLsbD k = _
  rw [getLsbD_putBit _ _ _ (by decide), if_neg hk]

/-- The cells of the frame lie in different words. -/
theorem frameCells_pairwise (s : State) : (frameCells s).Pairwise (fun p q => p.1 / 4 ≠ q.1 / 4) := by
  simp only [frameCells, List.pairwise_cons, List.forall_mem_cons, List.not_mem_nil, false_implies, implies_true, and_true,
    List.Pairwise.nil]
  omega

/-- A byte outside the entry's own bytes is as it was (R232, R233). -/
theorem readByte_memAfterFrame (s : State) {a : Nat} (h : ¬ entryBytes s a) : (memAfterFrame s).readByte a = s.mem.readByte a := by
  unfold entryBytes wordsBytes at h
  push Not at h
  obtain ⟨h1, h2⟩ := h
  unfold memAfterFrame
  rw [Memory.readByte_writeWords]
  · unfold memAfterSlots
    split_ifs with hv
    · apply Memory.readByte_writeWords
      intro p hp
      have := h2 hv
      simp only [List.mem_cons, List.not_mem_nil, or_false] at hp
      obtain rfl | rfl := hp
      · exact this 0x48 (by simp)
      · exact this 0x4C (by simp)
    · rfl
  · intro p hp
    have : p.1 ∈ frameAddrs (frameBase s).toNat := by
      simp only [frameCells, List.mem_cons, List.not_mem_nil, or_false] at hp
      simp only [frameAddrs, List.mem_map, List.mem_range]
      obtain rfl | rfl | rfl | rfl | rfl | rfl | rfl | rfl | rfl | rfl := hp
      · exact ⟨0, by omega, rfl⟩
      · exact ⟨1, by omega, rfl⟩
      · exact ⟨2, by omega, rfl⟩
      · exact ⟨3, by omega, rfl⟩
      · exact ⟨4, by omega, rfl⟩
      · exact ⟨5, by omega, rfl⟩
      · exact ⟨6, by omega, rfl⟩
      · exact ⟨7, by omega, rfl⟩
      · exact ⟨8, by omega, rfl⟩
      · exact ⟨9, by omega, rfl⟩
    exact h1 _ this

/-- The frame holds what R233 puts there. -/
theorem frameAt_memAfterFrame (s : State) : FrameAt (memAfterFrame s) (frameBase s).toNat s.gprs s.fr s.pc := by
  have key : ∀ p ∈ frameCells { s with sp := frameBase s }, (memAfterFrame s).readWord p.1 = p.2 := fun p hp =>
    Memory.readWord_writeWords_of_mem _ _ (frameCells_pairwise _) hp
  simp only [frameCells, List.forall_mem_cons, List.not_mem_nil, false_implies, implies_true, and_true] at key
  obtain ⟨k0, k1, k2, k3, k4, k5, k6, k7, k8, k9⟩ := key
  refine ⟨fun k hk => ?_, k8, k9⟩
  obtain rfl | rfl | rfl | rfl | rfl | rfl | rfl | rfl : k = 0 ∨ k = 1 ∨ k = 2 ∨ k = 3 ∨ k = 4 ∨ k = 5 ∨ k = 6 ∨ k = 7 := by omega
  exacts [k0, k1, k2, k3, k4, k5, k6, k7]

theorem wf_memAfterFrame {s : State} (h : s.mem.wf) : (memAfterFrame s).wf := by
  apply Memory.wf_writeWords
  unfold memAfterSlots
  split_ifs
  · exact Memory.wf_writeWords h _
  · exact h

/-- No address outside RAM is listed after an entry whose frame is RAM. -/
theorem mem_memAfterFrame {s : State} (h : ∀ c ∈ s.mem, c.1 < ramSize) (hb : (frameBase s).toNat + 36 < ramSize) :
    ∀ c ∈ memAfterFrame s, c.1 < ramSize := by
  intro c hc
  obtain ⟨p, hp, hpc⟩ | hc := Memory.mem_writeWords hc
  · have := (frameCells_bound { s with sp := frameBase s }).mpr hb p hp
    unfold ramSize at *; omega
  · unfold memAfterSlots at hc
    split_ifs at hc
    · obtain ⟨p, hp, hpc⟩ | hc := Memory.mem_writeWords hc
      · simp only [List.mem_cons, List.not_mem_nil, or_false] at hp
        obtain rfl | rfl := hp <;> (simp only [virtPcSlot, virtSpSlot] at hpc; unfold ramSize; omega)
      · exact h c hc
    · exact h c hc

/-! ## Bodies -/

/-- What a body run by `perform` can end in, if a next state: its own, or the entry for the interrupt it raised (R235). -/
theorem perform_next {body : State → Except Raise State} {s t : State} (h : perform body s = .next t) :
    body s = .ok t ∨ ∃ c, body s = .error (.interrupt c) ∧ interruptEntry c s = .next t := by
  unfold perform at h
  cases hb : body s with
  | ok u => rw [hb] at h; cases h; exact .inl rfl
  | error e =>
    rw [hb] at h
    cases e with
    | interrupt c => exact .inr ⟨c, rfl, h⟩
    | machineFault r => cases h

theorem perform_ok {body : State → Except Raise State} {s t : State} (h : body s = .ok t) : perform body s = .next t := by
  unfold perform; rw [h]

theorem perform_interrupt {body : State → Except Raise State} {s : State} {c : Nat} (h : body s = .error (.interrupt c)) :
    perform body s = interruptEntry c s := by
  unfold perform; rw [h]

theorem perform_fault {body : State → Except Raise State} {s : State} {f : Fault} (h : body s = .error (.machineFault f)) :
    perform body s = .fault f := by
  unfold perform; rw [h]

end Sys2Proof.Machine
end

