-- ==== Sys2Proof/Laws/Exec.lean ====
section
/-! SUPPORT. The inversion lemma of `exec`: everything an instruction that answers a next state can have done. -/

namespace Sys2Proof.Machine

/-- RAM after an instruction that took no interrupt: words or one byte written, each at an address of RAM, and in virtual mode
at one that some virtual address translates to. -/
def StoresFrom (s : State) (m : Memory) : Prop :=
  (∃ cells : List (Nat × Word), m = s.mem.writeWords cells ∧
    ∀ p ∈ cells, p.1 < ramSize ∧ (s.isVirtual = true → ∃ va, translate va s = .ok (.mapped p.1))) ∨
  (∃ pa b, m = s.mem.writeByte pa b ∧ pa < ramSize ∧ ∃ va, translate va s = .ok (.mapped pa))

/-- What an instruction that took no interrupt has done to everything but R0 to R7, SP and `pc`. -/
structure OwnEffect (i : Instr) (s t : State) : Prop where
  ptbr : t.ptbr = s.ptbr
  irq : t.irq = s.irq
  raised : t.raised = s.raised
  halted : t.halted = s.halted ∨ (i = .halt ∧ s.isVirtual = false)
  mode : t.isVirtual = s.isVirtual ∨ (s.isVirtual = false ∧ (i = .enter ∨ i = .popint)) ∨
    (s.isVirtual = true ∧ (i = .exit ∨ i = .halt))
  highBits : i ≠ .popint → ∀ k, 4 ≤ k → t.fr.getLsbD k = s.fr.getLsbD k
  carry : i ≠ .popint → i.mnemonic ∉ ["ADD", "SUB", "MUL", "DIV", "CMP"] → t.fr.getLsbD 0 = s.fr.getLsbD 0
  zeroSign : i ≠ .popint → i.mnemonic ∉ ["ADD", "SUB", "MUL", "DIV", "CMP", "NEG", "AND", "OR", "XOR"] →
    t.fr.getLsbD 1 = s.fr.getLsbD 1 ∧ t.fr.getLsbD 3 = s.fr.getLsbD 3
  stores : StoresFrom s t.mem

theorem StoresFrom.none (s : State) : StoresFrom s s.mem := .inl ⟨[], rfl, by simp⟩

/-- A step of the body that leaves FR, PTBR, RAM and the rest alone. -/
theorem OwnEffect.of_eq {i : Instr} {s t : State} (hp : t.ptbr = s.ptbr) (hf : t.fr = s.fr) (hm : StoresFrom s t.mem)
    (hh : t.halted = s.halted) (hi : t.irq = s.irq) (hr : t.raised = s.raised) : OwnEffect i s t :=
  { ptbr := hp, irq := hi, raised := hr, halted := .inl hh, mode := .inl (by unfold State.isVirtual; rw [hf])
    highBits := fun _ _ _ => by rw [hf], carry := fun _ _ => by rw [hf], zeroSign := fun _ _ => by rw [hf]; exact ⟨rfl, rfl⟩
    stores := hm }

theorem setReg_ptbr {r : Reg} (h : r.isGprSp = true) (s : State) (v : Word) : (s.setReg r v).ptbr = s.ptbr := by
  cases r <;> first | rfl | cases h

theorem setReg_fr {r : Reg} (h : r.isGprSp = true) (s : State) (v : Word) : (s.setReg r v).fr = s.fr := by
  cases r <;> first | rfl | cases h

theorem isGprSp_of_isGpr {r : Reg} (h : r.isGpr = true) : r.isGprSp = true := by
  cases r <;> first | rfl | cases h

theorem OwnEffect.setReg {i : Instr} {s : State} {r : Reg} (h : r.isGprSp = true) (v : Word) : OwnEffect i s (s.setReg r v) :=
  .of_eq (setReg_ptbr h s v) (setReg_fr h s v) (by simpa using StoresFrom.none s) (by simp) (by simp) (by simp)

theorem OwnEffect.writeArith {i : Instr} {s : State} {r : Reg} (h : r.isGpr = true) (wide : Int)
    (hi : i.mnemonic ∈ ["ADD", "SUB", "MUL", "DIV", "CMP"]) : OwnEffect i s (writeArith r wide s) := by
  have hf := setReg_fr (isGprSp_of_isGpr h) s (wrap32 wide)
  have key : ∀ k, k ≠ 0 → k ≠ 1 → k ≠ 3 → (Machine.writeArith r wide s).fr.getLsbD k = s.fr.getLsbD k := by
    intro k h0 h1 h3
    show (setFlagsArith wide (wrap32 wide) (s.setReg r (wrap32 wide)).fr).getLsbD k = _
    rw [getLsbD_setFlagsArith, if_neg h0, if_neg h1, if_neg h3, hf]
  exact
    { ptbr := setReg_ptbr (isGprSp_of_isGpr h) s _, irq := State.setReg_irq .., raised := State.setReg_raised ..
      halted := .inl (State.setReg_halted ..), mode := .inl (key 2 (by omega) (by omega) (by omega))
      highBits := fun _ k hk => key k (by omega) (by omega) (by omega), carry := fun _ hn => absurd hi hn
      zeroSign := fun _ hn => absurd (by simp only [List.mem_cons] at hi ⊢; tauto) hn
      stores := by
        show StoresFrom s (s.setReg r (wrap32 wide)).mem
        rw [State.setReg_mem]; exact .none s }

theorem OwnEffect.writeLogic {i : Instr} {s : State} {r : Reg} (h : r.isGpr = true) (res : Word)
    (hi : i.mnemonic ∈ ["ADD", "SUB", "MUL", "DIV", "CMP", "NEG", "AND", "OR", "XOR"]) :
    OwnEffect i s (writeLogic r res s) := by
  have hf := setReg_fr (isGprSp_of_isGpr h) s res
  have key : ∀ k, k ≠ 1 → k ≠ 3 → (Machine.writeLogic r res s).fr.getLsbD k = s.fr.getLsbD k := by
    intro k h1 h3
    show (setFlagsLogic res (s.setReg r res).fr).getLsbD k = _
    rw [getLsbD_setFlagsLogic, if_neg h1, if_neg h3, hf]
  exact
    { ptbr := setReg_ptbr (isGprSp_of_isGpr h) s _, irq := State.setReg_irq .., raised := State.setReg_raised ..
      halted := .inl (State.setReg_halted ..), mode := .inl (key 2 (by omega) (by omega))
      highBits := fun _ k hk => key k (by omega) (by omega), carry := fun _ _ => key 0 (by omega) (by omega)
      zeroSign := fun _ hn => absurd hi hn
      stores := by
        show StoresFrom s (s.setReg r res).mem
        rw [State.setReg_mem]; exact .none s }

theorem OwnEffect.jumpIf {i : Instr} (s : State) (b : Bool) (w : Word) : OwnEffect i s (jumpIf b w s) := by
  cases b <;> exact .of_eq rfl rfl (.none s) rfl rfl rfl

/-! ## The bodies of the memory and stack instructions -/

theorem pushWord_ok {v : Word} {s t : State} :
    pushWord v s = .ok t ↔ ∃ pa, translate s.sp s = .ok (.mapped pa) ∧ pa < ramSize ∧
      t = { s with mem := s.mem.writeWord pa v, sp := s.sp + 4#32 } := by
  unfold pushWord
  cases h : memWriteWord s.sp v s with
  | error e =>
    simp only [reduceCtorEq, false_iff, not_exists, not_and]
    intro pa h1 h2
    rw [memWriteWord_ok.mpr ⟨pa, h1, h2, rfl⟩] at h; cases h
  | ok u =>
    obtain ⟨pa, h1, h2, rfl⟩ := memWriteWord_ok.mp h
    simp [h1, h2, eq_comm]

theorem popWord_ok {s t : State} {v : Word} :
    popWord s = .ok (v, t) ↔ ∃ pa, translate (s.sp - 4#32) s = .ok (.mapped pa) ∧ pa < ramSize ∧ v = s.mem.readWord pa ∧
      t = { s with sp := s.sp - 4#32 } := by
  unfold popWord
  cases h : memReadWord (s.sp - 4#32) s with
  | error e =>
    simp only [reduceCtorEq, false_iff, not_exists, not_and]
    intro pa h1 h2
    rw [memReadWord_ok.mpr ⟨pa, h1, h2, rfl⟩] at h; cases h
  | ok u =>
    obtain ⟨pa, h1, h2, rfl⟩ := memReadWord_ok.mp h
    simp [h1, h2, eq_comm]

/-- EXIT always completes: its slots are RAM (R204). -/
theorem leaveVirtual_eq (s : State) :
    leaveVirtual s = .ok ({ s with pc := s.mem.readWord realPcSlot, sp := s.mem.readWord realSpSlot }.setMode false) := by
  unfold leaveVirtual
  rw [physReadWords_ok.mpr ⟨by simp [realPcSlot, realSpSlot, ramSize], rfl⟩]
  rfl

/-- ENTER always completes: its slots are RAM (R203). -/
theorem enterVirtual_eq (s : State) :
    enterVirtual s = .ok ({ s with mem := s.mem.writeWords [(realPcSlot, s.pc), (realSpSlot, s.sp)],
                                   pc := s.mem.readWord virtPcSlot, sp := s.mem.readWord virtSpSlot }.setMode true) := by
  unfold enterVirtual
  rw [physWriteWords_ok.mpr ⟨by simp [realPcSlot, realSpSlot, ramSize], rfl⟩]
  simp only
  rw [physReadWords_ok.mpr ⟨by simp [virtPcSlot, virtSpSlot, ramSize], rfl⟩]
  simp only [List.map_cons, List.map_nil, List.getD_cons_zero, List.getD_cons_succ]
  rw [Memory.readWord_writeWords _ _ (by simp [virtSpSlot, realPcSlot, realSpSlot]),
    Memory.readWord_writeWords _ _ (by simp [virtPcSlot, realPcSlot, realSpSlot])]

/-- The end of POPINT always completes (R184). -/
theorem resumeStack_eq (savedFr : Word) (s : State) :
    resumeStack savedFr s = .ok (if savedFr.getLsbD modeBit then
      { s with mem := s.mem.writeWord realSpSlot s.sp, sp := s.mem.readWord virtSpSlot } else s) := by
  unfold resumeStack
  split_ifs
  · rw [physWriteWord_ok.mpr ⟨by simp [realSpSlot, ramSize], rfl⟩]
    simp only
    rw [physReadWord_ok.mpr ⟨by simp [virtSpSlot, ramSize], rfl⟩]
    simp only
    rw [Memory.readWord_writeWord, if_neg (by simp [virtSpSlot, realSpSlot])]
  · rfl

theorem physReadWords_length {pas : List Nat} {s : State} {ws : List Word} (h : physReadWords pas s = .ok ws) :
    ws.length = pas.length := by
  rw [(physReadWords_ok.mp h).2]; simp

/-- Eight words written to R0 to R7 leave everything else. -/
theorem setGprs_spec (s : State) {ws : List Word} (h : ws.length = 8) :
    s.setGprs ws = { s with r0 := ws.getD 0 0, r1 := ws.getD 1 0, r2 := ws.getD 2 0, r3 := ws.getD 3 0
                            r4 := ws.getD 4 0, r5 := ws.getD 5 0, r6 := ws.getD 6 0, r7 := ws.getD 7 0 } := by
  match ws, h with
  | [a, b, c, d, e, f, g, k], _ => rfl

/-- Everything the body of POPINT can do in real mode, where it runs (R184). -/
theorem popFrame_real {s : State} (hv : s.isVirtual = false) :
    popFrame s = match physReadWords ((wordsFrom (s.sp - 40#32) 10).map BitVec.toNat) s with
      | .error f => .error (.machineFault f)
      | .ok ws => .ok (
          let u := { s.setGprs (ws.take 8) with sp := s.sp - 40#32 }
          let t := if (ws.getD 8 0#32).getLsbD modeBit then
            { u with mem := u.mem.writeWord realSpSlot u.sp, sp := u.mem.readWord virtSpSlot } else u
          { t with fr := ws.getD 8 0#32, pc := ws.getD 9 0#32 }) := by
  unfold popFrame
  rw [memReadWords_real hv]
  cases physReadWords ((wordsFrom (s.sp - 40#32) 10).map BitVec.toNat) s with
  | error f => rfl
  | ok ws => simp only [orFault, resumeStack_eq]

theorem StoresFrom.word {s : State} {va : Word} {pa : Nat} (v : Word) (h : translate va s = .ok (.mapped pa)) (hp : pa < ramSize) :
    StoresFrom s (s.mem.writeWord pa v) :=
  .inl ⟨[(pa, v)], rfl, by simpa using ⟨hp, fun _ => ⟨va, h⟩⟩⟩

/-- EXIT's own effect. -/
theorem OwnEffect.leave {i : Instr} {s t : State} (hv : s.isVirtual = true) (hi : i = .exit ∨ i = .halt)
    (h : perform (fun s => orFault (leaveVirtual s)) s = .next t) : OwnEffect i s t := by
  unfold perform at h
  simp only [leaveVirtual_eq, orFault] at h
  cases h
  have key : ∀ k, k ≠ 2 → (putBit s.fr modeBit false).getLsbD k = s.fr.getLsbD k := fun k hk => by
    rw [getLsbD_putBit _ _ _ (by decide), if_neg (show k ≠ modeBit from hk)]
  exact
    { ptbr := rfl, irq := rfl, raised := rfl, halted := .inl rfl, mode := .inr (.inr ⟨hv, hi⟩)
      highBits := fun _ k hk => key k (by omega), carry := fun _ _ => key 0 (by omega)
      zeroSign := fun _ _ => ⟨key 1 (by omega), key 3 (by omega)⟩, stores := .none s }

/-- Everything an instruction can have done, if it answers a next state: its own effect, or an interrupt taken from the same
state. -/
theorem exec_next {i : Instr} {s t : State} (hw : i.wellFormed = true) (h : exec i s = .next t) :
    (∃ c, interruptEntry c s = .next t) ∨ OwnEffect i s t := by
  cases i with
  | add rd rs =>
    cases h
    simp only [Instr.wellFormed, Bool.and_eq_true] at hw
    exact .inr (.writeArith hw.1 _ (by simp [Instr.mnemonic]))
  | sub rd rs =>
    cases h
    simp only [Instr.wellFormed, Bool.and_eq_true] at hw
    exact .inr (.writeArith hw.1 _ (by simp [Instr.mnemonic]))
  | mul rd rs =>
    cases h
    simp only [Instr.wellFormed, Bool.and_eq_true] at hw
    exact .inr (.writeArith hw.1 _ (by simp [Instr.mnemonic]))
  | div rd rs =>
    simp only [Instr.wellFormed, Bool.and_eq_true] at hw
    simp only [exec, execDiv] at h
    split_ifs at h
    · exact .inl ⟨_, h⟩
    · cases h; exact .inr (.writeArith hw.1 _ (by simp [Instr.mnemonic]))
  | cmp ra rb =>
    cases h
    right
    have key : ∀ (wide : Int) k, k ≠ 0 → k ≠ 1 → k ≠ 3 →
        (setFlagsArith wide (wrap32 wide) s.fr).getLsbD k = s.fr.getLsbD k := by
      intro wide k h0 h1 h3
      rw [getLsbD_setFlagsArith, if_neg h0, if_neg h1, if_neg h3]
    exact
      { ptbr := rfl, irq := rfl, raised := rfl, halted := .inl rfl, mode := .inl (key _ 2 (by omega) (by omega) (by omega))
        highBits := fun _ k hk => key _ k (by omega) (by omega) (by omega), carry := fun _ hn => absurd (by simp [Instr.mnemonic]) hn
        zeroSign := fun _ hn => absurd (by simp [Instr.mnemonic]) hn, stores := .none s }
  | neg rd => cases h; exact .inr (.writeLogic hw _ (by simp [Instr.mnemonic]))
  | and rd rs =>
    cases h
    simp only [Instr.wellFormed, Bool.and_eq_true] at hw
    exact .inr (.writeLogic hw.1 _ (by simp [Instr.mnemonic]))
  | or rd rs =>
    cases h
    simp only [Instr.wellFormed, Bool.and_eq_true] at hw
    exact .inr (.writeLogic hw.1 _ (by simp [Instr.mnemonic]))
  | xor rd rs =>
    cases h
    simp only [Instr.wellFormed, Bool.and_eq_true] at hw
    exact .inr (.writeLogic hw.1 _ (by simp [Instr.mnemonic]))
  | jmp | jc | je | jne | jnc | jl | jm => cases h; exact .inr (.jumpIf s _ _)
  | loop rc target =>
    cases h
    right
    have h1 := OwnEffect.setReg (i := .loop rc target) (s := s) (isGprSp_of_isGpr hw) (s.reg rc - 1#32)
    unfold jumpIf
    split_ifs
    · exact .of_eq h1.ptbr (setReg_fr (isGprSp_of_isGpr hw) ..) h1.stores (State.setReg_halted ..) h1.irq h1.raised
    · exact h1
  | call target =>
    simp only [exec, execCall] at h
    obtain h | ⟨c, -, h⟩ := perform_next h
    · right
      cases hp : pushWord s.pc s with
      | error e => simp only [hp] at h; cases h
      | ok u =>
        obtain ⟨pa, h1, h2, rfl⟩ := pushWord_ok.mp hp
        simp only [hp] at h; cases h
        exact .of_eq rfl rfl (.word _ h1 h2) rfl rfl rfl
    · exact .inl ⟨c, h⟩
  | ret =>
    simp only [exec, execRet] at h
    obtain h | ⟨c, -, h⟩ := perform_next h
    · right
      cases hp : popWord s with
      | error e => simp only [hp] at h; cases h
      | ok u =>
        obtain ⟨v, u⟩ := u
        obtain ⟨pa, h1, h2, -, rfl⟩ := popWord_ok.mp hp
        simp only [hp] at h; cases h
        exact .of_eq rfl rfl (.none s) rfl rfl rfl
    · exact .inl ⟨c, h⟩
  | load rd ra =>
    simp only [Instr.wellFormed, Bool.and_eq_true] at hw
    simp only [exec, execLoad] at h
    obtain h | ⟨c, -, h⟩ := perform_next h
    · right
      cases hp : memReadWord (s.reg ra) s with
      | error e => simp only [hp] at h; cases h
      | ok v => simp only [hp] at h; cases h; exact .setReg (isGprSp_of_isGpr hw.1) v
    · exact .inl ⟨c, h⟩
  | store ra rs =>
    simp only [exec, execStore] at h
    obtain h | ⟨c, -, h⟩ := perform_next h
    · obtain ⟨pa, h1, h2, rfl⟩ := memWriteWord_ok.mp h
      exact .inr (.of_eq rfl rfl (.word _ h1 h2) rfl rfl rfl)
    · exact .inl ⟨c, h⟩
  | loadb rd ra =>
    simp only [Instr.wellFormed, Bool.and_eq_true] at hw
    simp only [exec, execLoadb] at h
    obtain h | ⟨c, -, h⟩ := perform_next h
    · right
      cases hp : memReadByte (s.reg ra) s with
      | error e => simp only [hp] at h; cases h
      | ok v => simp only [hp] at h; cases h; exact .setReg (isGprSp_of_isGpr hw.1) _
    · exact .inl ⟨c, h⟩
  | storeb ra rs =>
    simp only [exec, execStoreb] at h
    obtain h | ⟨c, -, h⟩ := perform_next h
    · obtain ⟨pa, h1, h2, rfl⟩ := memWriteByte_ok.mp h
      exact .inr (.of_eq rfl rfl (.inr ⟨pa, _, rfl, h2, _, h1⟩) rfl rfl rfl)
    · exact .inl ⟨c, h⟩
  | mov xd xs =>
    cases h
    simp only [Instr.wellFormed, Bool.and_eq_true] at hw
    exact .inr (.setReg hw.1 _)
  | movd rd v => cases h; exact .inr (.setReg (isGprSp_of_isGpr hw) _)
  | push rs =>
    simp only [exec, execPush] at h
    obtain h | ⟨c, -, h⟩ := perform_next h
    · obtain ⟨pa, h1, h2, rfl⟩ := pushWord_ok.mp h
      exact .inr (.of_eq rfl rfl (.word _ h1 h2) rfl rfl rfl)
    · exact .inl ⟨c, h⟩
  | pop rd =>
    simp only [exec, execPop] at h
    obtain h | ⟨c, -, h⟩ := perform_next h
    · right
      cases hp : popWord s with
      | error e => simp only [hp] at h; cases h
      | ok u =>
        obtain ⟨v, u⟩ := u
        obtain ⟨pa, h1, h2, -, rfl⟩ := popWord_ok.mp hp
        simp only [hp] at h; cases h
        have h3 := OwnEffect.setReg (i := .pop rd) (s := { s with sp := s.sp - 4#32 }) (isGprSp_of_isGpr hw) v
        exact .of_eq h3.ptbr (setReg_fr (isGprSp_of_isGpr hw) ..) (by simpa using StoresFrom.none s)
          (State.setReg_halted ..) h3.irq h3.raised
    · exact .inl ⟨c, h⟩
  | pushall =>
    simp only [exec, execPushall] at h
    obtain h | ⟨c, -, h⟩ := perform_next h
    · right
      cases hp : resolveAll (wordsFrom s.sp 8) s with
      | error e => simp only [hp] at h; cases h
      | ok pas =>
        simp only [hp] at h
        cases hq : physWriteWords (pas.zip s.gprs) s with
        | error f => simp only [hq] at h; cases h
        | ok u =>
          obtain ⟨h1, rfl⟩ := physWriteWords_ok.mp hq
          simp only [hq] at h; cases h
          refine .of_eq rfl rfl (.inl ⟨_, rfl, fun p hm => ⟨h1 p hm, fun _ => ?_⟩⟩) rfl rfl rfl
          have hin : p.1 ∈ pas := (List.of_mem_zip (show (p.1, p.2) ∈ _ from hm)).1
          have := resolveAll_ok.mp hp
          have hmem : (Except.ok (.mapped p.1) : Except Fault Translation) ∈ pas.map (fun pa => .ok (.mapped pa)) :=
            List.mem_map.mpr ⟨p.1, hin, rfl⟩
          rw [← this] at hmem
          obtain ⟨va, -, hva⟩ := List.mem_map.mp hmem
          exact ⟨va, hva⟩
    · exact .inl ⟨c, h⟩
  | popall =>
    simp only [exec, execPopall] at h
    obtain h | ⟨c, -, h⟩ := perform_next h
    · right
      cases hp : resolveAll (wordsFrom (s.sp - 32#32) 8) s with
      | error e => simp only [hp] at h; cases h
      | ok pas =>
        simp only [hp] at h
        cases hq : physReadWords pas s with
        | error f => simp only [hq] at h; cases h
        | ok ws =>
          have hl : ws.length = 8 := by
            rw [physReadWords_length hq]
            have := congrArg List.length (resolveAll_ok.mp hp)
            simpa [wordsFrom] using this.symm
          simp only [hq, setGprs_spec s hl] at h; cases h
          exact .of_eq rfl rfl (.none s) rfl rfl rfl
    · exact .inl ⟨c, h⟩
  | popint =>
    simp only [exec, execPopint] at h
    split_ifs at h with hv
    · exact .inl ⟨_, h⟩
    · have hv : s.isVirtual = false := by simpa using hv
      obtain h | ⟨c, -, h⟩ := perform_next h
      · right
        rw [popFrame_real hv] at h
        cases hq : physReadWords ((wordsFrom (s.sp - 40#32) 10).map BitVec.toNat) s with
        | error f => simp only [hq] at h; cases h
        | ok ws =>
          have hl : (ws.take 8).length = 8 := by
            have := physReadWords_length hq
            simp [wordsFrom] at this
            simp [this]
          simp only [hq, setGprs_spec s hl] at h
          have hst : ∀ m, StoresFrom s m → ∀ u : State, u.mem = m → u.ptbr = s.ptbr → u.irq = s.irq → u.raised = s.raised →
              u.halted = s.halted → OwnEffect .popint s u := fun m hm u e1 e2 e3 e4 e5 =>
            { ptbr := e2, irq := e3, raised := e4, halted := .inl e5
              mode := .inr (.inl ⟨hv, .inr rfl⟩), highBits := fun hn => absurd rfl hn, carry := fun hn => absurd rfl hn
              zeroSign := fun hn => absurd rfl hn, stores := e1 ▸ hm }
          split_ifs at h
          · cases h
            exact hst _ (.inl ⟨[(realSpSlot, s.sp - 40#32)], rfl, by
              simp [realSpSlot, ramSize, hv]⟩) _ rfl rfl rfl rfl rfl
          · cases h
            exact hst _ (.none s) _ rfl rfl rfl rfl rfl
      · exact .inl ⟨c, h⟩
  | int code => exact .inl ⟨_, h⟩
  | enter =>
    simp only [exec, execEnter] at h
    split_ifs at h with hv
    · exact .inl ⟨_, h⟩
    · right
      have hv : s.isVirtual = false := by simpa using hv
      unfold perform at h
      simp only [enterVirtual_eq, orFault] at h
      cases h
      have key : ∀ k, k ≠ 2 → (putBit s.fr modeBit true).getLsbD k = s.fr.getLsbD k := fun k hk => by
        rw [getLsbD_putBit _ _ _ (by decide), if_neg (show k ≠ modeBit from hk)]
      exact
        { ptbr := rfl, irq := rfl, raised := rfl, halted := .inl rfl, mode := .inr (.inl ⟨hv, .inl rfl⟩)
          highBits := fun _ k hk => key k (by omega), carry := fun _ _ => key 0 (by omega)
          zeroSign := fun _ _ => ⟨key 1 (by omega), key 3 (by omega)⟩
          stores := .inl ⟨_, rfl, by simp [realPcSlot, realSpSlot, ramSize, hv]⟩ }
  | exit =>
    simp only [exec, execExit] at h
    split_ifs at h with hv
    · exact .inr (.leave hv (.inl rfl) h)
    · exact .inl ⟨_, h⟩
  | halt =>
    simp only [exec, execHalt] at h
    split_ifs at h with hv
    · exact .inr (.leave hv (.inr rfl) h)
    · right
      have hv : s.isVirtual = false := by simpa using hv
      cases h
      exact
        { ptbr := rfl, irq := rfl, raised := rfl, halted := .inr ⟨rfl, hv⟩, mode := .inl rfl
          highBits := fun _ _ _ => rfl, carry := fun _ _ => rfl, zeroSign := fun _ _ => ⟨rfl, rfl⟩, stores := .none s }

end Sys2Proof.Machine
end

