-- ==== Sys2Proof/Laws/PerInstr.lean ====
section
/-! SUPPORT. Statements about every instruction, one lemma per constructor. -/

namespace Sys2Proof.Laws.EncodedWord

open Sys2Proof

/-- The word of a well-formed instruction lies under the mask and match that the complete map prints for its mnemonic
(spec/30_encoding.md R102), so its reserved bits are zero and its register fields in their class (R98). -/
def Statement (i : Instr) : Prop :=
  i.wellFormed = true → ∃ row ∈ opcodeTable, row.mnemonic = i.mnemonic ∧ encodeWord i &&& row.mask = row.pattern

/-- A row of the map read by its place. -/
theorem row_of (n : Nat) {i : Instr} (h : (opcodeTable[n]?).any (fun row => row.mnemonic = i.mnemonic ∧
    encodeWord i &&& row.mask = row.pattern)) :
    ∃ row ∈ opcodeTable, row.mnemonic = i.mnemonic ∧ encodeWord i &&& row.mask = row.pattern := by
  cases hr : opcodeTable[n]? with
  | none => rw [hr] at h; cases h
  | some row =>
    rw [hr] at h
    exact ⟨row, List.mem_of_getElem? hr, by simpa using h⟩

/-- Under the mask of format I only the opcode byte is left. -/
theorem packImm_mask (op : BitVec 8) (v : BitVec 24) : packImm op v &&& 0xFF000000#32 = op ++ 0#24 := by
  have h : (0xFF000000#32 : Word) = 0xFF#8 ++ 0#24 := by decide
  unfold packImm
  rw [h, BitVec.and_append, BitVec.and_zero]
  exact congrArg (· ++ 0#24) BitVec.and_allOnes

/-- Under the mask of format RI the opcode byte is left, and nothing of a register of class GPR. -/
theorem packRegImm_mask (op : BitVec 8) {r : Reg} (h : r.isGpr = true) (v : BitVec 19) :
    packRegImm op r v &&& 0xFFC00000#32 = op ++ 0#24 := by
  have hm : (0xFFC00000#32 : Word) = 0xFF#8 ++ 0x18#5 ++ 0#19 := by decide
  have hz : (0#24 : BitVec 24) = 0#5 ++ 0#19 := by decide
  have hc : codeOfReg r &&& 0x18#5 = 0#5 := by cases r <;> first | rfl | cases h
  have h0 : op &&& 0xFF#8 = op := BitVec.and_allOnes
  unfold packRegImm
  rw [hm, BitVec.and_append, BitVec.and_append, BitVec.and_zero, hc, hz, h0, BitVec.append_assoc]
  rfl

theorem add (rd rs : Reg) : Statement (.add rd rs) := fun h => row_of 0 (by
  revert h; cases rd <;> cases rs <;> decide)
theorem sub (rd rs : Reg) : Statement (.sub rd rs) := fun h => row_of 1 (by
  revert h; cases rd <;> cases rs <;> decide)
theorem mul (rd rs : Reg) : Statement (.mul rd rs) := fun h => row_of 2 (by
  revert h; cases rd <;> cases rs <;> decide)
theorem div (rd rs : Reg) : Statement (.div rd rs) := fun h => row_of 3 (by
  revert h; cases rd <;> cases rs <;> decide)
theorem cmp (ra rb : Reg) : Statement (.cmp ra rb) := fun h => row_of 4 (by
  revert h; cases ra <;> cases rb <;> decide)
theorem neg (rd : Reg) : Statement (.neg rd) := fun h => row_of 5 (by
  revert h; cases rd <;> decide)
theorem and (rd rs : Reg) : Statement (.and rd rs) := fun h => row_of 6 (by
  revert h; cases rd <;> cases rs <;> decide)
theorem or (rd rs : Reg) : Statement (.or rd rs) := fun h => row_of 7 (by
  revert h; cases rd <;> cases rs <;> decide)
theorem xor (rd rs : Reg) : Statement (.xor rd rs) := fun h => row_of 8 (by
  revert h; cases rd <;> cases rs <;> decide)
theorem jmp (target : BitVec 24) : Statement (.jmp target) := fun _ => row_of 9 (by
  simp [opcodeTable, arithmeticTable, logicalTable, controlFlowTable, memoryTable, machineStateTable, Instr.mnemonic, encodeWord, packImm_mask])
theorem jc (target : BitVec 24) : Statement (.jc target) := fun _ => row_of 10 (by
  simp [opcodeTable, arithmeticTable, logicalTable, controlFlowTable, memoryTable, machineStateTable, Instr.mnemonic, encodeWord, packImm_mask])
theorem je (target : BitVec 24) : Statement (.je target) := fun _ => row_of 11 (by
  simp [opcodeTable, arithmeticTable, logicalTable, controlFlowTable, memoryTable, machineStateTable, Instr.mnemonic, encodeWord, packImm_mask])
theorem jne (target : BitVec 24) : Statement (.jne target) := fun _ => row_of 12 (by
  simp [opcodeTable, arithmeticTable, logicalTable, controlFlowTable, memoryTable, machineStateTable, Instr.mnemonic, encodeWord, packImm_mask])
theorem jnc (target : BitVec 24) : Statement (.jnc target) := fun _ => row_of 13 (by
  simp [opcodeTable, arithmeticTable, logicalTable, controlFlowTable, memoryTable, machineStateTable, Instr.mnemonic, encodeWord, packImm_mask])
theorem jl (target : BitVec 24) : Statement (.jl target) := fun _ => row_of 14 (by
  simp [opcodeTable, arithmeticTable, logicalTable, controlFlowTable, memoryTable, machineStateTable, Instr.mnemonic, encodeWord, packImm_mask])
theorem jm (target : BitVec 24) : Statement (.jm target) := fun _ => row_of 15 (by
  simp [opcodeTable, arithmeticTable, logicalTable, controlFlowTable, memoryTable, machineStateTable, Instr.mnemonic, encodeWord, packImm_mask])
theorem loop (rc : Reg) (target : BitVec 19) : Statement (.loop rc target) := fun h => row_of 16 (by
  simp [opcodeTable, arithmeticTable, logicalTable, controlFlowTable, memoryTable, machineStateTable, Instr.mnemonic, encodeWord, packRegImm_mask _ (show rc.isGpr = true from h)])
theorem call (target : BitVec 24) : Statement (.call target) := fun _ => row_of 17 (by
  simp [opcodeTable, arithmeticTable, logicalTable, controlFlowTable, memoryTable, machineStateTable, Instr.mnemonic, encodeWord, packImm_mask])
theorem ret : Statement .ret := fun _ => row_of 18 (by decide)
theorem load (rd ra : Reg) : Statement (.load rd ra) := fun h => row_of 19 (by
  revert h; cases rd <;> cases ra <;> decide)
theorem store (ra rs : Reg) : Statement (.store ra rs) := fun h => row_of 20 (by
  revert h; cases ra <;> cases rs <;> decide)
theorem loadb (rd ra : Reg) : Statement (.loadb rd ra) := fun h => row_of 21 (by
  revert h; cases rd <;> cases ra <;> decide)
theorem storeb (ra rs : Reg) : Statement (.storeb ra rs) := fun h => row_of 22 (by
  revert h; cases ra <;> cases rs <;> decide)
theorem mov (xd xs : Reg) : Statement (.mov xd xs) := fun h => row_of 23 (by
  revert h; cases xd <;> cases xs <;> decide)
theorem movd (rd : Reg) (value : BitVec 19) : Statement (.movd rd value) := fun h => row_of 24 (by
  simp [opcodeTable, arithmeticTable, logicalTable, controlFlowTable, memoryTable, machineStateTable, Instr.mnemonic, encodeWord, packRegImm_mask _ (show rd.isGpr = true from h)])
theorem push (rs : Reg) : Statement (.push rs) := fun h => row_of 25 (by
  revert h; cases rs <;> decide)
theorem pop (rd : Reg) : Statement (.pop rd) := fun h => row_of 26 (by
  revert h; cases rd <;> decide)
theorem pushall : Statement .pushall := fun _ => row_of 27 (by decide)
theorem popall : Statement .popall := fun _ => row_of 28 (by decide)
theorem popint : Statement .popint := fun _ => row_of 29 (by decide)
theorem int (code : BitVec 24) : Statement (.int code) := fun _ => row_of 30 (by
  simp [opcodeTable, arithmeticTable, logicalTable, controlFlowTable, memoryTable, machineStateTable, Instr.mnemonic, encodeWord, packImm_mask])
theorem enter : Statement .enter := fun _ => row_of 31 (by decide)
theorem exit : Statement .exit := fun _ => row_of 32 (by decide)
theorem halt : Statement .halt := fun _ => row_of 33 (by decide)

end Sys2Proof.Laws.EncodedWord
end

