-- ==== Sys2Proof/Laws/Step.lean ====
section
/-! SUPPORT. The inversion lemmas of `step` and of the moves of the other agents (spec/60_exceptions.md R222,
spec/70_reset_and_hazards.md R270). -/

namespace Sys2Proof.Machine

/-! ## The fetch -/

/-- The state an instruction runs on: `pc` advanced, the output of the step empty. -/
def State.fetched (s : State) : State := { s with pc := s.pc + 4#32, raised := none }

theorem fetchWord_withRaised (s : State) (o : Option Nat) : fetchWord { s with raised := o } = fetchWord s := rfl

/-- The fetch raises nothing but a page fault, and that only in virtual mode. -/
theorem fetchWord_interrupt {s : State} {c : Nat} (h : fetchWord s = .error (.interrupt c)) :
    c = 3 ∧ translate s.pc s = .ok .pageFault := by
  unfold fetchWord memReadWord at h
  rw [resolve_eq] at h
  cases ht : translate s.pc s with
  | error f => rw [ht] at h; cases h
  | ok r =>
    rw [ht] at h
    cases r with
    | pageFault => cases h; exact ⟨rfl, rfl⟩
    | mapped pa =>
      simp only at h
      cases hp : physReadWord pa s with
      | error f => rw [hp] at h; cases h
      | ok w => rw [hp] at h; cases h

/-! ## The step -/

/-- Everything a step that answers a next state can have done: taken the oldest pending interrupt, a fetch page fault or the
interrupt of an invalid opcode, or run the instruction fetched. -/
theorem step_next {s t : State} (h : step s = .next t) :
    s.halted = false ∧
    ((∃ code rest, s.irq = code :: rest ∧ interruptEntry code { s with irq := rest, raised := none } = .next t) ∨
      (s.irq = [] ∧ translate s.pc s = .ok .pageFault ∧ interruptEntry 3 { s with raised := none } = .next t) ∨
      (s.irq = [] ∧ interruptEntry 2 s.fetched = .next t) ∨
      ∃ i, s.AboutToRun i ∧ exec i s.fetched = .next t) := by
  unfold step cycle at h
  split_ifs at h with hh
  have hh : s.halted = false := by simpa using hh
  refine ⟨hh, ?_⟩
  split at h
  · rename_i code rest hi
    exact .inl ⟨code, rest, hi, h⟩
  · rename_i hi
    right
    unfold fetchAndRun at h
    simp only [fetchWord_withRaised] at h
    cases hf : fetchWord s with
    | error e =>
      rw [hf] at h
      cases e with
      | machineFault r => cases h
      | interrupt c =>
        obtain ⟨rfl, ht⟩ := fetchWord_interrupt hf
        exact .inl ⟨hi, ht, h⟩
    | ok w =>
      right
      rw [hf] at h
      simp only [runWord] at h
      cases hd : decode w with
      | error e => rw [hd] at h; exact .inl ⟨hi, h⟩
      | ok i => rw [hd] at h; exact .inr ⟨i, ⟨⟨hh, hi⟩, w, hf, hd⟩, h⟩

/-! ## Moves -/

/-- Everything a move can have done to RAM and the registers. -/
theorem applyMove_next {m : Move} {s t : State} (h : applyMove m s = .next t) :
    t = s ∨ (∃ code, t = { s with irq := s.irq ++ [code] } ∧ ((∃ w, m = .watcherRaise w ∧ code = w.code) ∨ m = .hostRaise code)) ∨
    (∃ pa b, t = { s with mem := s.mem.writeByte pa b } ∧ pa < ramSize ∧
      (m = .hostByte pa b ∨ ∃ c, m = .watcherByte c pa b ∧ c.holds pa = true)) ∨
    (∃ pa v, t = { s with mem := s.mem.writeWord pa v } ∧ pa < ramSize ∧
      (m = .hostWord pa v ∨ ∃ c, m = .watcherWord c pa v ∧ c.holds (wordBase pa) = true ∧ c.holds (wordBase pa + 3) = true)) ∨
    (∃ c, m = .hostContext c ∧ t = loadContext c s) ∨ (m = .clearHalted ∧ t = { s with halted := false }) ∨
    (m = .reset ∧ t = State.reset) := by
  have hb : ∀ {pa b}, ofAccess (physWriteByte pa b s) = .next t → t = { s with mem := s.mem.writeByte pa b } ∧ pa < ramSize := by
    intro pa b h
    cases hp : physWriteByte pa b s with
    | error f => rw [hp] at h; cases h
    | ok u => rw [hp] at h; cases h; exact ⟨(physWriteByte_ok.mp hp).2, (physWriteByte_ok.mp hp).1⟩
  have hw : ∀ {pa v}, ofAccess (physWriteWord pa v s) = .next t → t = { s with mem := s.mem.writeWord pa v } ∧ pa < ramSize := by
    intro pa v h
    cases hp : physWriteWord pa v s with
    | error f => rw [hp] at h; cases h
    | ok u => rw [hp] at h; cases h; exact ⟨(physWriteWord_ok.mp hp).2, (physWriteWord_ok.mp hp).1⟩
  cases m with
  | watcherRaise w => cases h; exact .inr (.inl ⟨_, rfl, .inl ⟨w, rfl, rfl⟩⟩)
  | watcherByte c pa b =>
    simp only [applyMove] at h
    split_ifs at h with hc
    · obtain ⟨rfl, hp⟩ := hb h
      exact .inr (.inr (.inl ⟨pa, b, rfl, hp, .inr ⟨c, rfl, hc⟩⟩))
    · cases h; exact .inl rfl
  | watcherWord c pa v =>
    simp only [applyMove, Bool.and_eq_true] at h
    split_ifs at h with hc
    · obtain ⟨rfl, hp⟩ := hw h
      exact .inr (.inr (.inr (.inl ⟨pa, v, rfl, hp, .inr ⟨c, rfl, hc⟩⟩)))
    · cases h; exact .inl rfl
  | hostRaise code => cases h; exact .inr (.inl ⟨code, rfl, .inr rfl⟩)
  | hostContext c => cases h; exact .inr (.inr (.inr (.inr (.inl ⟨c, rfl, rfl⟩))))
  | hostByte pa b =>
    obtain ⟨rfl, hp⟩ := hb h
    exact .inr (.inr (.inl ⟨pa, b, rfl, hp, .inl rfl⟩))
  | hostWord pa v =>
    obtain ⟨rfl, hp⟩ := hw h
    exact .inr (.inr (.inr (.inl ⟨pa, v, rfl, hp, .inl rfl⟩)))
  | clearHalted => cases h; exact .inr (.inr (.inr (.inr (.inr (.inl ⟨rfl, rfl⟩)))))
  | reset => cases h; exact .inr (.inr (.inr (.inr (.inr (.inr ⟨rfl, rfl⟩)))))

end Sys2Proof.Machine
end

