-- ==== Sys2Proof/Tests/Slice0.lean ====
section
/-! SUPPORT. The model's own tests: expected values are the words and vectors of spec/95_test_vectors.md (named by their ids) or
hand calculations from the rules cited there; and one witness for each obligation that has hypotheses. -/

namespace Sys2Proof.Tests

open Sys2Proof Sys2Proof.Machine

-- Each theorem's kernel check would otherwise hold a thread of its own while it waits for the one before.
set_option Elab.async false

/-! ## Helpers -/

/-- Words put into RAM. -/
def withWords (cells : List (Nat × Word)) (s : State) : State :=
  cells.foldl (fun t c => { t with mem := t.mem.writeWord c.1 c.2 }) s

/-- The start state of the vectors with the instruction word `w` at 0x100. -/
def at100 (w : Word) (s : State) : State := withWords [(0x100, w)] { s with pc := 0x100#32 }

/-- The result is a next state with the property. -/
def gives (r : Result) (p : State → Bool) : Bool :=
  match r with
  | .next t => p t
  | .fault _ => false
  | .refused _ => false

/-- The result is the fault. -/
def faults (r : Result) (f : Fault) : Bool :=
  match r with
  | .next _ => false
  | .fault g => g == f
  | .refused _ => false

/-- R0 to R7 holding 10 to 17. -/
def tens (s : State) : State := { s with r0 := 10, r1 := 11, r2 := 12, r3 := 13, r4 := 14, r5 := 15, r6 := 16, r7 := 17 }

/-- The virtual-mode state of section 2.6: page 0 at 0x5000, page 1 invalid, page 2 at the top of RAM; a real stack at 0x900, handlers
of codes 2, 3 and 4; the instruction word `w` at virtual 0. -/
def virt (w : Word) : State :=
  withWords [(0x1000, 3), (0x1004, 0xB), (0x1008, 0xE), (0x100C, 0x0007FFFF), (0x44, 0x900), (0x08, 0x320), (0x0C, 0x300),
    (0x10, 0x380), (0x5000, w)]
    { State.reset with fr := 4, ptbr := 0x1000, pc := 0, sp := 0x40 }

/-- The same with page 2 just beyond RAM (vector X11). -/
def virtFar (w : Word) : State := withWords [(0x100C, 0x00080001)] (virt w)

/-- The same with the table itself beyond RAM. -/
def virtLost (w : Word) : State := { virt w with ptbr := 0x40000000#32 }

/-! ## Well-formed terms: every check refuses an ill-formed one (spec/10_state.md R23) -/

theorem test_wellFormed_arithmetic_refused :
    (Instr.add .sp .r0).wellFormed = false ∧ (Instr.add .r0 .sp).wellFormed = false ∧
    (Instr.sub .sp .r0).wellFormed = false ∧ (Instr.sub .r0 .pc).wellFormed = false ∧
    (Instr.mul .ptbr .r0).wellFormed = false ∧ (Instr.mul .r0 .sp).wellFormed = false ∧
    (Instr.div .fr .r0).wellFormed = false ∧ (Instr.div .r0 .sp).wellFormed = false ∧
    (Instr.cmp .sp .r0).wellFormed = false ∧ (Instr.cmp .r0 .fr).wellFormed = false := by decide

theorem test_wellFormed_logical_refused :
    (Instr.neg .sp).wellFormed = false ∧ (Instr.and .sp .r0).wellFormed = false ∧ (Instr.and .r0 .sp).wellFormed = false ∧
    (Instr.or .pc .r0).wellFormed = false ∧ (Instr.or .r0 .sp).wellFormed = false ∧
    (Instr.xor .sp .r0).wellFormed = false ∧ (Instr.xor .r0 .ptbr).wellFormed = false := by decide

theorem test_wellFormed_memory_refused :
    (Instr.load .sp .r0).wellFormed = false ∧ (Instr.load .r0 .sp).wellFormed = false ∧
    (Instr.store .sp .r0).wellFormed = false ∧ (Instr.store .r0 .sp).wellFormed = false ∧
    (Instr.loadb .sp .r0).wellFormed = false ∧ (Instr.loadb .r0 .sp).wellFormed = false ∧
    (Instr.storeb .sp .r0).wellFormed = false ∧ (Instr.storeb .r0 .sp).wellFormed = false ∧
    (Instr.mov .pc .r0).wellFormed = false ∧ (Instr.mov .r0 .pc).wellFormed = false ∧
    (Instr.mov .ptbr .r0).wellFormed = false ∧ (Instr.mov .r0 .fr).wellFormed = false := by decide

theorem test_wellFormed_single_register_refused :
    (Instr.movd .sp 0).wellFormed = false ∧ (Instr.push .sp).wellFormed = false ∧ (Instr.pop .sp).wellFormed = false ∧
    (Instr.loop .sp 0).wellFormed = false := by decide

theorem test_wellFormed_accepts_classes :
    (Instr.add .r0 .r7).wellFormed = true ∧ (Instr.mov .sp .sp).wellFormed = true ∧ (Instr.loop .r7 0).wellFormed = true := by
  decide

/-! ## Decoding: the words of section 2.7 -/

theorem test_decode_arithmetic :
    decode 0x1039C000 = .ok (.add .r7 .r7) ∧ decode 0x1110C000 = .ok (.sub .r2 .r3) ∧ decode 0x12298000 = .ok (.mul .r5 .r6) ∧
    decode 0x13214000 = .ok (.div .r4 .r5) ∧ decode 0x1400C000 = .ok (.cmp .r0 .r3) := by decide

theorem test_decode_logical :
    decode 0x20180000 = .ok (.neg .r3) ∧ decode 0x21088000 = .ok (.and .r1 .r2) ∧ decode 0x22190000 = .ok (.or .r3 .r4) ∧
    decode 0x23318000 = .ok (.xor .r6 .r6) := by decide

theorem test_decode_control_flow :
    decode 0x30000120 = .ok (.jmp 0x120) ∧ decode 0x31000200 = .ok (.jc 0x200) ∧ decode 0x32000140 = .ok (.je 0x140) ∧
    decode 0x33000140 = .ok (.jne 0x140) ∧ decode 0x34000180 = .ok (.jnc 0x180) ∧ decode 0x350001A0 = .ok (.jl 0x1A0) ∧
    decode 0x360001C0 = .ok (.jm 0x1C0) ∧ decode 0x37100104 = .ok (.loop .r2 0x104) ∧
    decode 0x3707FFFF = .ok (.loop .r0 0x7FFFF) ∧ decode 0x38000200 = .ok (.call 0x200) ∧ decode 0x39000000 = .ok .ret := by
  decide

theorem test_decode_memory :
    decode 0x40004000 = .ok (.load .r0 .r1) ∧ decode 0x41080000 = .ok (.store .r1 .r0) ∧
    decode 0x42004000 = .ok (.loadb .r0 .r1) ∧ decode 0x43080000 = .ok (.storeb .r1 .r0) ∧
    decode 0x4440C000 = .ok (.mov .sp .r3) ∧ decode 0x44120000 = .ok (.mov .r2 .sp) ∧ decode 0x44420000 = .ok (.mov .sp .sp) ∧
    decode 0x44400000 = .ok (.mov .sp .r0) ∧ decode 0x453FFFFF = .ok (.movd .r7 0x7FFFF) ∧ decode 0x46280000 = .ok (.push .r5) ∧
    decode 0x47300000 = .ok (.pop .r6) ∧ decode 0x48000000 = .ok .pushall ∧ decode 0x49000000 = .ok .popall ∧
    decode 0x4A000000 = .ok .popint := by decide

theorem test_decode_machine_state :
    decode 0x5000000C = .ok (.int 12) ∧ decode 0x50FFFFFF = .ok (.int 0xFFFFFF) ∧ decode 0x51000000 = .ok .enter ∧
    decode 0x52000000 = .ok .exit ∧ decode 0x53000000 = .ok .halt := by decide

theorem test_decode_refuses_opcodes :
    decode 0x00000000 = .error .noSuchFamily ∧ decode 0xFFFFFFFF = .error .noSuchFamily ∧
    decode 0x60000000 = .error .noSuchFamily ∧ decode 0x15000000 = .error .noSuchIndex ∧
    decode 0x24000000 = .error .noSuchIndex ∧ decode 0x3A000000 = .error .noSuchIndex ∧
    decode 0x4B000000 = .error .noSuchIndex ∧ decode 0x54000000 = .error .noSuchIndex := by decide

theorem test_decode_refuses_registers :
    decode 0x10400000 = .error .badRegister ∧ decode 0x10020000 = .error .badRegister ∧
    decode 0x46400000 = .error .badRegister ∧ decode 0x37400000 = .error .badRegister ∧
    decode 0x45C00000 = .error .badRegister ∧ decode 0x44480000 = .error .badRegister ∧
    decode 0x44024000 = .error .badRegister := by decide

theorem test_decode_refuses_reserved_bits :
    decode 0x10000001 = .error .reservedBit ∧ decode 0x20000001 = .error .reservedBit ∧
    decode 0x39000001 = .error .reservedBit := by decide

/-- The bytes of `STORE R1, R0` in memory, in each byte order (spec/20_memory.md R52). -/
theorem test_decodeBytes :
    decodeBytes .little [0x00, 0x00, 0x08, 0x41, 0x99] = .ok (.store .r1 .r0, [0x99]) ∧
    decodeBytes .big [0x41, 0x08, 0x00, 0x00] = .ok (.store .r1 .r0, []) ∧
    decodeBytes .little [0x00, 0x00, 0x08] = .error .truncated := by decide

theorem test_decodeTableWord :
    decodeTableWord 32 0x41080000 = some (.store .r1 .r0) ∧ decodeTableWord 32 0x44480000 = none := by decide

theorem test_encode_mov_class : encode (.mov .sp .r3) = some 0x4440C000#32 ∧ encode (.mov .pc .r3) = none := by decide

theorem test_withFetchWord : gives (step (State.reset.withFetchWord 32 0x4508BEEF)) (fun t => t.r1 == 0xBEEF && t.pc == 0x104) = true := by
  decide +kernel

/-! ## Arithmetic family -/

theorem test_add_positive_overflow :
    gives (step (at100 0x10004000 { State.reset with r0 := 0x7FFFFFFF, r1 := 1 }))
      (fun t => t.r0 == 0x80000000 && t.r1 == 1 && t.fr == 9 && t.pc == 0x104) = true := by decide +kernel  -- S1, A1

theorem test_add_mode_kept :
    gives (step { virt 0x10004000 with r0 := 0x7FFFFFFF, r1 := 1 }) (fun t => t.r0 == 0x80000000 && t.fr == 0xD && t.pc == 4) =
      true := by decide +kernel  -- A29

theorem test_sub_negative_overflow :
    gives (step (at100 0x11004000 { State.reset with r0 := 0x80000000, r1 := 1 })) (fun t => t.r0 == 0x7FFFFFFF && t.fr == 0) =
      true := by decide +kernel  -- A8

theorem test_sub_overflow :
    gives (step (at100 0x11004000 { State.reset with r0 := 0x7FFFFFFF, r1 := 0xFFFFFFFF }))
      (fun t => t.r0 == 0x80000000 && t.fr == 9) = true := by decide +kernel  -- A9

theorem test_mul_wide :
    gives (step (at100 0x12004000 { State.reset with r0 := 0x10000, r1 := 0x10000 })) (fun t => t.r0 == 0 && t.fr == 3) = true := by
  decide +kernel  -- A11

theorem test_mul_negative :
    gives (step (at100 0x12004000 { State.reset with r0 := 0xFFFFFFFE, r1 := 3 })) (fun t => t.r0 == 0xFFFFFFFA && t.fr == 8) =
      true := by decide +kernel  -- A13

theorem test_div_rounds_toward_zero :
    gives (step (at100 0x13004000 { State.reset with r0 := 0xFFFFFFF9, r1 := 2 })) (fun t => t.r0 == 0xFFFFFFFD && t.fr == 8) =
      true := by decide +kernel  -- A20

theorem test_div_by_zero :
    gives (step (withWords [(0, 0x300)] (at100 0x13214000 { State.reset with r4 := 0x64, sp := 0x900, fr := 9 })))
      (fun t => t.r4 == 0x64 && t.pc == 0x300 && t.sp == 0x928 && t.fr == 9 && t.mem.readWord 0x910 == 0x64 &&
        t.mem.readWord 0x920 == 9 && t.mem.readWord 0x924 == 0x104 && t.raised == some 0) = true := by decide +kernel  -- A27

theorem test_cmp_no_write :
    gives (step (at100 0x14004000 { State.reset with r0 := 1, r1 := 2 })) (fun t => t.r0 == 1 && t.fr == 8) = true := by
  decide +kernel  -- A16

/-! ## Logical family -/

theorem test_neg_keeps_carry :
    gives (step (at100 0x20100000 { State.reset with r2 := 0xFFFFFFFF, fr := 9 })) (fun t => t.r2 == 0 && t.fr == 3) = true := by
  decide +kernel  -- G2

theorem test_neg_other_mode : negate .twosComplement 0x7FFFFFFF#32 = 0x80000001#32 := by decide +kernel  -- G3, NEG_MODE

theorem test_and_clears_sign :
    gives (step (at100 0x21004000 { State.reset with r0 := 0xFF00, r1 := 0xFF, fr := 8 })) (fun t => t.r0 == 0 && t.fr == 2) =
      true := by decide +kernel  -- G6

theorem test_or :
    gives (step (at100 0x22004000 { State.reset with r0 := 0x80000000, r1 := 1 })) (fun t => t.r0 == 0x80000001 && t.fr == 8) =
      true := by decide +kernel  -- G7

theorem test_xor_same_register :
    gives (step (at100 0x23318000 { State.reset with r6 := 0x12345678, fr := 9 })) (fun t => t.r6 == 0 && t.fr == 3) = true := by
  decide +kernel  -- G10

/-! ## Control-flow family -/

theorem test_jmp : gives (step (at100 0x30FFFFFF State.reset)) (fun t => t.pc == 0xFFFFFF) = true := by decide +kernel  -- J20

theorem test_jc :
    gives (step (at100 0x31000200 { State.reset with fr := 9 })) (fun t => t.pc == 0x200 && t.fr == 9) = true ∧
    gives (step (at100 0x31000200 { State.reset with fr := 8 })) (fun t => t.pc == 0x104) = true := by decide +kernel  -- J2, J3

theorem test_jnc :
    gives (step (at100 0x34000180 { State.reset with fr := 0 })) (fun t => t.pc == 0x180) = true ∧
    gives (step (at100 0x34000180 { State.reset with fr := 1 })) (fun t => t.pc == 0x104) = true := by decide +kernel  -- J4, J5

theorem test_je :
    gives (step (at100 0x32000140 { State.reset with fr := 2 })) (fun t => t.pc == 0x140) = true ∧
    gives (step (at100 0x32000140 { State.reset with fr := 0xD })) (fun t => t.pc == 0x140) = false := by decide +kernel  -- J6

theorem test_jne :
    gives (step (at100 0x33000140 { State.reset with fr := 2 })) (fun t => t.pc == 0x104) = true ∧
    gives (step (at100 0x33000140 { State.reset with fr := 8 })) (fun t => t.pc == 0x140) = true := by decide +kernel  -- J7, J8

theorem test_jl :
    gives (step (at100 0x350001A0 { State.reset with fr := 8 })) (fun t => t.pc == 0x1A0) = true ∧
    gives (step (at100 0x350001A0 { State.reset with fr := 2 })) (fun t => t.pc == 0x104) = true := by decide +kernel  -- J9, J10

theorem test_jm :
    gives (step (at100 0x360001C0 { State.reset with fr := 0 })) (fun t => t.pc == 0x1C0) = true ∧
    gives (step (at100 0x360001C0 { State.reset with fr := 2 })) (fun t => t.pc == 0x104) = true ∧
    gives (step (at100 0x360001C0 { State.reset with fr := 8 })) (fun t => t.pc == 0x104) = true := by
  decide +kernel  -- J11, J12, J13

theorem test_loop_last :
    gives (step (at100 0x37100200 { State.reset with r2 := 1 })) (fun t => t.r2 == 0 && t.pc == 0x104 && t.fr == 0) = true := by
  decide +kernel  -- J16

theorem test_loop_from_zero :
    gives (step (at100 0x37100200 { State.reset with r2 := 0 })) (fun t => t.r2 == 0xFFFFFFFF && t.pc == 0x200) = true := by
  decide +kernel  -- J17

theorem test_call :
    gives (step (at100 0x38000200 { State.reset with sp := 0x800 }))
      (fun t => t.mem.readWord 0x800 == 0x104 && t.sp == 0x804 && t.pc == 0x200) = true := by decide +kernel  -- J18

theorem test_ret :
    gives (step (withWords [(0x800, 0x104)] (at100 0x39000000 { State.reset with sp := 0x804 })))
      (fun t => t.sp == 0x800 && t.pc == 0x104) = true := by decide +kernel  -- J19

/-! ## Memory family -/

theorem test_load_low_bits :
    gives (step (withWords [(0x2000, 0xDEADBEEF)] (at100 0x40004000 { State.reset with r1 := 0x2003 })))
      (fun t => t.r0 == 0xDEADBEEF) = true := by decide +kernel  -- M2

theorem test_load_page_fault :
    gives (step { virt 0x40004000 with r0 := 0x1234, r1 := 0x1000 })
      (fun t => t.r0 == 0x1234 && t.pc == 0x300 && t.sp == 0x928 && t.fr == 0 && t.mem.readWord 0x48 == 4 &&
        t.mem.readWord 0x4C == 0x40 && t.mem.readWord 0x900 == 0x1234 && t.mem.readWord 0x904 == 0x1000 &&
        t.mem.readWord 0x920 == 4 && t.mem.readWord 0x924 == 4) = true := by decide +kernel  -- S2

theorem test_store :
    gives (step (at100 0x41080000 { State.reset with r1 := 0x2000, r0 := 0x11223344 }))
      (fun t => t.mem.readWord 0x2000 == 0x11223344) = true := by decide +kernel  -- M3

theorem test_store_page_fault :
    gives (step { virt 0x41080000 with r0 := 0x1234, r1 := 0x1000 })
      (fun t => t.pc == 0x300 && t.mem.readWord 0x7000 == 0) = true := by decide +kernel  -- S2

theorem test_loadb :
    gives (step (withWords [(0x2000, 0x11223344)] (at100 0x42004000 { State.reset with r0 := 0xFFFFFFFF, r1 := 0x2001 })))
      (fun t => t.r0 == 0x33) = true := by decide +kernel  -- M5

theorem test_storeb :
    gives (step (withWords [(0x2000, 0x11223344)] (at100 0x43080000 { State.reset with r1 := 0x2002, r0 := 0xABCDEFAA })))
      (fun t => t.mem.readWord 0x2000 == 0x11AA3344) = true := by decide +kernel  -- M7

theorem test_mov_to_sp :
    gives (step (at100 0x4440C000 { State.reset with r3 := 0x800 })) (fun t => t.sp == 0x800) = true := by decide +kernel  -- M8

theorem test_mov_from_sp :
    gives (step (at100 0x44120000 { State.reset with sp := 0x804 })) (fun t => t.r2 == 0x804) = true := by decide +kernel  -- M9

theorem test_movd : gives (step (at100 0x453FFFFF State.reset)) (fun t => t.r7 == 0x7FFFF) = true := by decide +kernel  -- M12

theorem test_push :
    gives (step (at100 0x46280000 { State.reset with sp := 0x800, r5 := 7 }))
      (fun t => t.mem.readWord 0x800 == 7 && t.sp == 0x804) = true := by decide +kernel  -- M13

theorem test_pop :
    gives (step (withWords [(0x800, 7)] (at100 0x47300000 { State.reset with sp := 0x804 })))
      (fun t => t.r6 == 7 && t.sp == 0x800 && t.mem.readWord 0x800 == 7) = true := by decide +kernel  -- M14

theorem test_pushall :
    gives (step (at100 0x48000000 (tens { State.reset with sp := 0x800 })))
      (fun t => t.mem.readWord 0x800 == 10 && t.mem.readWord 0x804 == 11 && t.mem.readWord 0x81C == 17 && t.sp == 0x820) = true := by
  decide +kernel  -- M15

theorem test_pushall_page_fault :
    gives (step (tens { virt 0x48000000 with sp := 0xFF0 }))
      (fun t => t.mem.readWord 0x5FF0 == 0 && t.mem.readWord 0x5FFC == 0 && t.sp == 0x928 && t.pc == 0x300 &&
        t.mem.readWord 0x4C == 0xFF0 && t.mem.readWord 0x900 == 10 && t.mem.readWord 0x924 == 4) = true := by
  decide +kernel  -- M18

theorem test_popall :
    gives (step (withWords [(0x800, 10), (0x804, 11), (0x808, 12), (0x80C, 13), (0x810, 14), (0x814, 15), (0x818, 16), (0x81C, 17)]
        (at100 0x49000000 { State.reset with sp := 0x820 })))
      (fun t => t.gprs == [10, 11, 12, 13, 14, 15, 16, 17] && t.sp == 0x800) = true := by decide +kernel  -- M16

theorem test_popint :
    gives (step (withWords [(0x904, 1), (0x908, 2), (0x91C, 7), (0x920, 2), (0x924, 0x10C)]
        (at100 0x4A000000 { State.reset with sp := 0x928 })))
      (fun t => t.gprs == [0, 1, 2, 0, 0, 0, 0, 7] && t.fr == 2 && t.pc == 0x10C && t.sp == 0x900) = true := by
  decide +kernel  -- M17

theorem test_popint_virtual :
    gives (step (virt 0x4A000000)) (fun t => t.pc == 0x320 && t.mem.readWord 0x920 == 4 && t.mem.readWord 0x924 == 4) = true := by
  decide +kernel  -- M19

/-! ## Machine-state family and taking an interrupt -/

theorem test_int :
    gives (step (withWords [(0x30, 0x300)] (at100 0x5000000C { State.reset with sp := 0x900, fr := 2, r7 := 7 })))
      (fun t => t.mem.readWord 0x91C == 7 && t.mem.readWord 0x920 == 2 && t.mem.readWord 0x924 == 0x104 && t.sp == 0x928 &&
        t.pc == 0x300 && t.fr == 2) = true := by decide +kernel  -- T1

theorem test_int_4_unmapped :
    gives (step { virt 0x50000004 with r0 := 0x9000 })
      (fun t => t.pc == 0x300 && t.r0 == 0x9000 && t.mem.readWord 0x900 == 0x9000 && t.raised == some 3) = true := by
  decide +kernel  -- T7

theorem test_enter :
    gives (step (withWords [(0x4C, 0x40)] (at100 0x51000000 { State.reset with sp := 0x900, fr := 0xB })))
      (fun t => t.mem.readWord 0x40 == 0x104 && t.mem.readWord 0x44 == 0x900 && t.pc == 0 && t.sp == 0x40 && t.fr == 0xF) = true := by
  decide +kernel  -- T2, S5

theorem test_enter_virtual :
    gives (step (virt 0x51000000))
      (fun t => t.pc == 0x320 && t.sp == 0x928 && t.fr == 0 && t.mem.readWord 0x48 == 4 && t.mem.readWord 0x40 == 0 &&
        t.mem.readWord 0x44 == 0x900) = true := by decide +kernel  -- T3

theorem test_exit :
    gives (step (withWords [(0x40, 0x108)] { virt 0x52000000 with fr := 0xF }))
      (fun t => t.pc == 0x108 && t.sp == 0x900 && t.fr == 0xB) = true := by decide +kernel  -- S5

theorem test_exit_real :
    gives (step (withWords [(8, 0x320)] (at100 0x52000000 { State.reset with sp := 0x900 })))
      (fun t => t.mem.readWord 0x924 == 0x104 && t.sp == 0x928 && t.pc == 0x320) = true := by decide +kernel  -- T4

theorem test_halt_real :
    gives (step (at100 0x53000000 State.reset)) (fun t => t.pc == 0x104 && t.halted) = true ∧
    faults (step { State.reset with halted := true }) .halted = true := by decide +kernel  -- T5

theorem test_halt_virtual :
    gives (step (withWords [(0x40, 0x108)] { virt 0x53000000 with fr := 0xF }))
      (fun t => t.pc == 0x108 && t.sp == 0x900 && t.fr == 0xB && !t.halted) = true := by decide +kernel  -- S5

theorem test_fetch_page_fault :
    gives (step { virt 0 with pc := 0x1000, fr := 6 })
      (fun t => t.pc == 0x300 && t.fr == 2 && t.sp == 0x928 && t.mem.readWord 0x920 == 6 && t.mem.readWord 0x924 == 0x1000 &&
        t.mem.readWord 0x48 == 0x1000) = true := by decide +kernel  -- T8

theorem test_external_interrupt :
    gives (step (withWords [(0x14, 0x340)] (enqueue 5 { State.reset with sp := 0x900, pc := 0x108, r7 := 0x900 })))
      (fun t => t.mem.readWord 0x91C == 0x900 && t.mem.readWord 0x924 == 0x108 && t.sp == 0x928 && t.pc == 0x340 && t.irq == []) =
      true := by decide +kernel  -- P4, step 3

/-! ## Translation -/

theorem test_translate :
    translate 0x00000000 (virt 0) = .ok (.mapped 0x5000) ∧ translate 0x00000FFF (virt 0) = .ok (.mapped 0x5FFF) ∧
    translate 0x00001000 (virt 0) = .ok .pageFault ∧ translate 0x00001FFF (virt 0) = .ok .pageFault ∧
    translate 0x00002ABC (virt 0) = .ok (.mapped 0x3FFFFABC) ∧ translate 0x00003000 (virt 0) = .ok .pageFault ∧
    translate 0xFFFFFFFF (virt 0) = .ok .pageFault ∧
    translate 0xDEADBEEF State.reset = .ok (.mapped 0xDEADBEEF) := by decide +kernel  -- X1, X3 to X5, X7 to X10

theorem test_beyond_ram :
    translate 0x00002000 (virtFar 0) = .ok (.mapped 0x40000000) ∧
    faults (step { virtFar 0x40004000 with r1 := 0x2000 }) .outOfRange = true ∧
    faults (step (at100 0x40004000 { State.reset with r1 := 0xDEADBEEF })) .outOfRange = true := by decide +kernel  -- X11, X10

/-! ## Witnesses: for each obligation with hypotheses, a state and operands that meet them, for each clause -/

/-- An instruction's word is what the next step of the state runs. -/
theorem aboutToRun_of {s : State} {i : Instr} (w : Word) (h : s.halted = false ∧ s.irq = []) (hf : fetchWord s = .ok w)
    (hd : decode w = .ok i) : s.AboutToRun i := ⟨h, w, hf, hd⟩

theorem witness_EncodeAndDecodeAreInverse :
    (Instr.loop .r7 0x7FFFF).wellFormed = true ∧ (Instr.mov .sp .pc).wellFormed = false ∧
    decode 0x3707FFFF = .ok (.loop .r0 0x7FFFF) := by decide

theorem witness_InvalidOpcodesAreTheFourCases :
    (at100 0x54000000 State.reset).Running ∧ fetchWord (at100 0x54000000 State.reset) = .ok 0x54000000 ∧
    decode 0x54000000 = .error .noSuchIndex := by
  exact ⟨⟨by decide +kernel, by decide +kernel⟩, by decide +kernel, by decide +kernel⟩

theorem witness_DecodedInstructionsAreWellFormed : decode 0x44420000 = .ok (.mov .sp .sp) := by decide

theorem witness_ZeroAndOnesAreInvalid :
    ((at100 0 State.reset).Running ∧ fetchWord (at100 0 State.reset) = .ok 0) ∧
    (at100 0xFFFFFFFF State.reset).Running ∧ fetchWord (at100 0xFFFFFFFF State.reset) = .ok 0xFFFFFFFF := by
  exact ⟨⟨⟨by decide +kernel, by decide +kernel⟩, by decide +kernel⟩, ⟨by decide +kernel, by decide +kernel⟩, by decide +kernel⟩

theorem witness_StepRunsTheDecodedInstruction : (at100 0x1039C000 State.reset).AboutToRun (.add .r7 .r7) :=
  aboutToRun_of 0x1039C000 (by decide +kernel) (by decide +kernel) (by decide +kernel)

theorem witness_PendingInterruptsAreTakenInOrder :
    (gives (step (enqueue 5 State.reset)) (fun t => t.raised == some 5) = true ∧ (enqueue 5 State.reset).irq.head? = some 5) ∧
    gives (step (enqueue 4 { virt 0 with r0 := 0x9000 })) (fun t => t.raised == some 3) = true := by decide +kernel

theorem witness_EveryInterruptGoesThroughItsVector :
    gives (step (at100 0x50000004 State.reset)) (fun t => t.raised == some 4) = true := by decide +kernel

theorem witness_HaltedCoreWaitsForTheHost :
    { enqueue 5 State.reset with halted := true }.halted = true ∧ { enqueue 5 State.reset with halted := true }.irq = [5] := by
  decide

theorem witness_InterruptEntrySequence :
    EntryFits 0xFFFFFFF { State.reset with sp := 0x3FFFFFDB } ∧ ¬ EntryFits 0 { State.reset with sp := 0x3FFFFFDC } ∧
    ¬ EntryFits 0x10000000 State.reset ∧ EntryFits 3 (virt 0) := by
  unfold EntryFits; decide +kernel

theorem witness_TerminalOutputPointerIsTranslated :
    (State.reset.isVirtual = false ∧ EntryFits 4 State.reset) ∧
    translate { virt 0 with r0 := 0x1000 }.r0 { virt 0 with r0 := 0x1000 } = .ok .pageFault ∧
    (translate { virt 0 with r0 := 0x2FFF }.r0 { virt 0 with r0 := 0x2FFF } = .ok (.mapped 0x3FFFFFFF) ∧
      EntryFits 4 { virt 0 with r0 := 0x2FFF }) ∧
    (translate { State.reset with sp := 0x3FFFFFDC }.r0 { State.reset with sp := 0x3FFFFFDC } = .ok (.mapped 0) ∧
      ¬ EntryFits 4 { State.reset with sp := 0x3FFFFFDC }) ∧
    translate (virtLost 0).r0 (virtLost 0) = .error .outOfRange := by unfold EntryFits; decide +kernel

theorem witness_EntryThenPopintRestores :
    gives (interruptEntry 5 { State.reset with sp := 0x900 }) (fun _ => true) = true ∧
    gives (interruptEntry 5 (virt 0)) (fun _ => true) = true ∧
    (virt 0).isVirtual = true ∧ (∀ p ∈ frameAddrs (frameBase (virt 0)).toNat, 0x4C / 4 ≠ p / 4) := by decide +kernel

/-- In real mode, the frame that ends just below `REAL_SP_SLOT` and the one that starts just above it. -/
theorem witness_EntryThenPopintRestores_real :
    (gives (interruptEntry 5 { State.reset with sp := 0x1C }) (fun _ => true) = true ∧
      ∀ p ∈ frameAddrs (frameBase { State.reset with sp := 0x1C }).toNat, 0x44 / 4 ≠ p / 4) ∧
    gives (interruptEntry 5 { State.reset with sp := 0x48 }) (fun _ => true) = true ∧
    ∀ p ∈ frameAddrs (frameBase { State.reset with sp := 0x48 }).toNat, 0x44 / 4 ≠ p / 4 := by decide +kernel

/-- The register classes of the arithmetic, logical and memory statements. -/
theorem witness_register_classes :
    Reg.r0.isGpr = true ∧ Reg.r7.isGpr = true ∧ Reg.sp.isGprSp = true ∧ Reg.r7.isGprSp = true := by decide

theorem witness_AddWritesSumAndFlags :
    Reg.r7.isGpr = true ∧ gives (exec (.add .r7 .r7) { State.reset with r7 := 0x40000000 })
      (fun t => t.r7 == 0x80000000 && t.fr == 9) = true := by decide +kernel  -- A28

theorem witness_SubWritesDifferenceAndFlags :
    Reg.r0.isGpr = true ∧ Reg.r7.isGpr = true ∧ gives (exec (.sub .r0 .r7) { State.reset with r7 := 1 })
      (fun t => t.r0 == 0xFFFFFFFF && t.fr == 8) = true := by decide +kernel  -- A7

theorem witness_MulWritesLowProductAndFlags :
    Reg.r0.isGpr = true ∧ Reg.r7.isGpr = true ∧ gives (exec (.mul .r0 .r7) { State.reset with r0 := 0x10000, r7 := 0xFFFF0000 })
      (fun t => t.r0 == 0 && t.fr == 2) = true := by decide +kernel  -- A14

theorem witness_DivWritesQuotientOrTraps :
    Reg.r0.isGpr = true ∧ Reg.r7.isGpr = true ∧ State.reset.reg .r7 = 0 ∧
    ({ State.reset with r0 := 0x80000000, r7 := 0xFFFFFFFF }.reg .r7 ≠ 0 ∧
      gives (exec (.div .r0 .r7) { State.reset with r0 := 0x80000000, r7 := 0xFFFFFFFF })
        (fun t => t.r0 == 0x80000000 && t.fr == 9) = true) := by decide +kernel  -- A24

theorem witness_CmpWritesOnlyFlags :
    Reg.r0.isGpr = true ∧ Reg.r7.isGpr = true ∧ gives (exec (.cmp .r0 .r7) { State.reset with r0 := 0x80000000, r7 := 1 })
      (fun t => t.r0 == 0x80000000 && t.fr == 0) = true := by decide +kernel  -- A18

theorem witness_NegComplementsTheRegister :
    Reg.r3.isGpr = true ∧ gives (exec (.neg .r3) { State.reset with r3 := 0xFFFF, fr := 1 })
      (fun t => t.r3 == 0xFFFF0000 && t.fr == 9) = true := by decide +kernel  -- G4

theorem witness_AndOrXorWriteResultAndFlags :
    Reg.r0.isGpr = true ∧ Reg.r1.isGpr = true ∧
    gives (exec (.and .r0 .r1) { State.reset with r0 := 0xF0F0F0F0, r1 := 0x0FF00FF0, fr := 1 })
      (fun t => t.r0 == 0x00F000F0 && t.fr == 1) = true ∧
    gives (exec (.or .r0 .r1) { State.reset with fr := 9 }) (fun t => t.r0 == 0 && t.fr == 3) = true ∧
    gives (exec (.xor .r0 .r1) { State.reset with r0 := 0x55555555, r1 := 0xFFFFFFFF, fr := 1 })
      (fun t => t.r0 == 0xAAAAAAAA && t.fr == 9) = true := by decide +kernel  -- G5, G8, G9

theorem witness_LoopDecrementsAndBranches :
    Reg.r2.isGpr = true ∧ gives (exec (.loop .r2 0x200) { State.reset with r2 := 1 }) (fun t => t.reg .r2 == 0) = true ∧
    gives (exec (.loop .r2 0x200) { State.reset with r2 := 2 }) (fun t => t.reg .r2 != 0) = true := by decide +kernel

/-! For an instruction with one access: the last address in RAM, the first beyond it, a page fault, and a walk outside RAM. -/

theorem witness_CallPushesReturnAddress :
    translate { virt 0 with sp := 0x2FFC }.sp { virt 0 with sp := 0x2FFC } = .ok (.mapped 0x3FFFFFFC) ∧ 0x3FFFFFFC < 2 ^ 30 ∧
    translate { virt 0 with sp := 0x1000 }.sp { virt 0 with sp := 0x1000 } = .ok .pageFault ∧
    (translate { virtFar 0 with sp := 0x2000 }.sp { virtFar 0 with sp := 0x2000 } = .ok (.mapped 0x40000000) ∧ 2 ^ 30 ≤ 0x40000000) ∧
    translate (virtLost 0).sp (virtLost 0) = .error .outOfRange := by decide +kernel

theorem witness_PushWritesAtTheStackPointer :
    Reg.r5.isGpr = true ∧
    translate { virt 0 with sp := 0x2FFC }.sp { virt 0 with sp := 0x2FFC } = .ok (.mapped 0x3FFFFFFC) ∧ 0x3FFFFFFC < 2 ^ 30 ∧
    translate { virt 0 with sp := 0x1000 }.sp { virt 0 with sp := 0x1000 } = .ok .pageFault ∧
    (translate { State.reset with sp := 0x40000000 }.sp { State.reset with sp := 0x40000000 } = .ok (.mapped 0x40000000) ∧
      2 ^ 30 ≤ 0x40000000) ∧
    translate (virtLost 0).sp (virtLost 0) = .error .outOfRange := by decide +kernel

theorem witness_RetPopsReturnAddress :
    translate ({ virt 0 with sp := 0x3000 }.sp - 4) { virt 0 with sp := 0x3000 } = .ok (.mapped 0x3FFFFFFC) ∧ 0x3FFFFFFC < 2 ^ 30 ∧
    translate ({ virt 0 with sp := 0x1004 }.sp - 4) { virt 0 with sp := 0x1004 } = .ok .pageFault ∧
    (translate (State.reset.sp - 4) State.reset = .ok (.mapped 0xFFFFFFFC) ∧ 2 ^ 30 ≤ 0xFFFFFFFC) ∧
    translate ((virtLost 0).sp - 4) (virtLost 0) = .error .outOfRange := by decide +kernel

theorem witness_PopReadsBelowTheStackPointer :
    Reg.r6.isGpr = true ∧
    translate ({ virt 0 with sp := 0x3000 }.sp - 4) { virt 0 with sp := 0x3000 } = .ok (.mapped 0x3FFFFFFC) ∧ 0x3FFFFFFC < 2 ^ 30 ∧
    translate ({ virt 0 with sp := 0x1004 }.sp - 4) { virt 0 with sp := 0x1004 } = .ok .pageFault ∧
    (translate (State.reset.sp - 4) State.reset = .ok (.mapped 0xFFFFFFFC) ∧ 2 ^ 30 ≤ 0xFFFFFFFC) ∧
    translate ((virtLost 0).sp - 4) (virtLost 0) = .error .outOfRange := by decide +kernel

/-- The same for the address register of LOAD and LOADB. -/
theorem witness_LoadReadsTheWord :
    Reg.r0.isGpr = true ∧ Reg.r1.isGpr = true ∧
    translate ({ virt 0 with r1 := 0x2FFF }.reg .r1) { virt 0 with r1 := 0x2FFF } = .ok (.mapped 0x3FFFFFFF) ∧ 0x3FFFFFFF < 2 ^ 30 ∧
    translate ({ virt 0 with r1 := 0x3000 }.reg .r1) { virt 0 with r1 := 0x3000 } = .ok .pageFault ∧
    (translate ({ virtFar 0 with r1 := 0x2000 }.reg .r1) { virtFar 0 with r1 := 0x2000 } = .ok (.mapped 0x40000000) ∧
      2 ^ 30 ≤ 0x40000000) ∧
    translate ((virtLost 0).reg .r1) (virtLost 0) = .error .outOfRange := by decide +kernel

theorem witness_LoadbReadsTheByte :
    Reg.r0.isGpr = true ∧ Reg.r1.isGpr = true ∧
    (translate ({ State.reset with r1 := 0x3FFFFFFF }.reg .r1) { State.reset with r1 := 0x3FFFFFFF } = .ok (.mapped 0x3FFFFFFF) ∧
      0x3FFFFFFF < 2 ^ 30) ∧
    translate ({ virt 0 with r1 := 0x1FFF }.reg .r1) { virt 0 with r1 := 0x1FFF } = .ok .pageFault ∧
    (translate ({ State.reset with r1 := 0x40000000 }.reg .r1) { State.reset with r1 := 0x40000000 } = .ok (.mapped 0x40000000) ∧
      2 ^ 30 ≤ 0x40000000) ∧
    translate ((virtLost 0).reg .r1) (virtLost 0) = .error .outOfRange := by decide +kernel

theorem witness_StoreWritesTheWord :
    Reg.r1.isGpr = true ∧ Reg.r0.isGpr = true ∧
    (translate ({ virt 0 with r1 := 0x2FFC }.reg .r1) { virt 0 with r1 := 0x2FFC } = .ok (.mapped 0x3FFFFFFC) ∧ 0x3FFFFFFC < 2 ^ 30) ∧
    translate ({ virt 0 with r1 := 0x1000 }.reg .r1) { virt 0 with r1 := 0x1000 } = .ok .pageFault ∧
    (translate ({ virtFar 0 with r1 := 0x2000 }.reg .r1) { virtFar 0 with r1 := 0x2000 } = .ok (.mapped 0x40000000) ∧
      2 ^ 30 ≤ 0x40000000) ∧
    translate ((virtLost 0).reg .r1) (virtLost 0) = .error .outOfRange := by decide +kernel

theorem witness_StorebWritesTheByte :
    Reg.r1.isGpr = true ∧ Reg.r0.isGpr = true ∧
    (translate ({ virt 0 with r1 := 0xFFF }.reg .r1) { virt 0 with r1 := 0xFFF } = .ok (.mapped 0x5FFF) ∧ 0x5FFF < 2 ^ 30) ∧
    translate ({ virt 0 with r1 := 0x1000 }.reg .r1) { virt 0 with r1 := 0x1000 } = .ok .pageFault ∧
    (translate ({ State.reset with r1 := 0xFFFFFFFF }.reg .r1) { State.reset with r1 := 0xFFFFFFFF } = .ok (.mapped 0xFFFFFFFF) ∧
      2 ^ 30 ≤ 0xFFFFFFFF) ∧
    translate ((virtLost 0).reg .r1) (virtLost 0) = .error .outOfRange := by decide +kernel

theorem witness_MovCopiesTheRegister :
    (Reg.sp.isGprSp = true ∧ Reg.r0.isGprSp = true) ∧ encode (.mov .ptbr .r0) = none ∧ encode (.mov .r0 .fr) = none := by decide

theorem witness_MovdLoadsTheConstant :
    Reg.r7.isGpr = true ∧ gives (exec (.movd .r7 0x7FFFF) State.reset) (fun t => t.r7 == 0x7FFFF) = true := by decide +kernel

/-- Eight words inside a page that ends RAM; across a page that faults; one beyond RAM; a walk outside RAM. -/
theorem witness_PushallWritesEightWords :
    (∀ k, k < 8 → translate (0x2FE0 + BitVec.ofNat 32 (4 * k)) { virt 0 with sp := 0x2FE0 } = .ok (.mapped (0x3FFFFFE0 + 4 * k)) ∧
      0x3FFFFFE0 + 4 * k < 2 ^ 30) ∧
    ((∀ k, k < 8 → (translate (0xFF0 + BitVec.ofNat 32 (4 * k)) { virt 0 with sp := 0xFF0 }).isOk = true) ∧
      translate (0xFF0 + BitVec.ofNat 32 16) { virt 0 with sp := 0xFF0 } = .ok .pageFault) ∧
    ((∀ k, k < 8 → translate (0x3FFFFFE4 + BitVec.ofNat 32 (4 * k)) { State.reset with sp := 0x3FFFFFE4 } =
      .ok (.mapped (0x3FFFFFE4 + 4 * k))) ∧ 2 ^ 30 ≤ 0x3FFFFFE4 + 4 * 7) ∧
    translate (0x40 + BitVec.ofNat 32 0) (virtLost 0) = .error .outOfRange := by decide +kernel

theorem witness_PopallReadsEightWords :
    (∀ k, k < 8 → translate (0x3000 - 32 + BitVec.ofNat 32 (4 * k)) { virt 0 with sp := 0x3000 } =
      .ok (.mapped (0x3FFFFFE0 + 4 * k)) ∧ 0x3FFFFFE0 + 4 * k < 2 ^ 30) ∧
    ((∀ k, k < 8 → (translate (0x1010 - 32 + BitVec.ofNat 32 (4 * k)) { virt 0 with sp := 0x1010 }).isOk = true) ∧
      translate (0x1010 - 32 + BitVec.ofNat 32 16) { virt 0 with sp := 0x1010 } = .ok .pageFault) ∧
    ((∀ k, k < 8 → translate (State.reset.sp - 32 + BitVec.ofNat 32 (4 * k)) State.reset = .ok (.mapped (0xFFFFFFE0 + 4 * k))) ∧
      2 ^ 30 ≤ 0xFFFFFFE0) ∧
    translate (0x40 - 32 + BitVec.ofNat 32 0) (virtLost 0) = .error .outOfRange := by decide +kernel

/-- In virtual mode; in real mode with the frame up to the last word of RAM, from real and from virtual mode; out of RAM. -/
theorem witness_PopintRestoresTheFrame :
    (virt 0).isVirtual = true ∧ State.reset.isVirtual = false ∧
    (∀ k, k < 10 → ((0x40000000 : Word) - 40 + BitVec.ofNat 32 (4 * k)).toNat < 2 ^ 30) ∧
    ((withWords [(0x920, 4)] { State.reset with sp := 0x928 }).mem.readWord 0x920).getLsbD 2 = true ∧
    (State.reset.mem.readWord 0x920).getLsbD 2 = false ∧
    2 ^ 30 ≤ (State.reset.sp - 40 + BitVec.ofNat 32 0).toNat := by decide +kernel

theorem witness_IntEntersItsCode :
    (EntryFits (0xFFFFFF#24).toNat State.reset ∧ (0xFFFFFF#24) ≠ 4#24) ∧ (State.reset.isVirtual = false ∧ EntryFits 4 State.reset) ∧
    (translate { virt 0 with r0 := 0xABC }.r0 { virt 0 with r0 := 0xABC } = .ok (.mapped 0x5ABC) ∧ 0x5ABC < 2 ^ 32 ∧
      EntryFits 4 { virt 0 with r0 := 0xABC }) := by unfold EntryFits; decide +kernel

/-- The two modes in the hypotheses of ENTER, EXIT and HALT. -/
theorem witness_EnterExitHalt : (virt 0).isVirtual = true ∧ State.reset.isVirtual = false := by decide +kernel

/-- ENTER at 0x100 in real mode, then EXIT or HALT at the virtual entry (S5). -/
theorem witness_ModeSwitchIsSymmetric (w : Word) (i : Instr) (h : (w = 0x52000000#32 ∧ i = .exit) ∨ (w = 0x53000000#32 ∧ i = .halt)) :
    (at100 0x51000000 { virt w with fr := 0xB, sp := 0x900 }).isVirtual = false ∧
    (at100 0x51000000 { virt w with fr := 0xB, sp := 0x900 }).AboutToRun .enter ∧
    ∃ t, step (at100 0x51000000 { virt w with fr := 0xB, sp := 0x900 }) = .next t ∧ t.AboutToRun i := by
  obtain ⟨rfl, rfl⟩ | ⟨rfl, rfl⟩ := h
  · exact ⟨by decide +kernel, aboutToRun_of 0x51000000 (by decide +kernel) (by decide +kernel) (by decide +kernel), _, rfl,
      aboutToRun_of 0x52000000 (by decide +kernel) (by decide +kernel) (by decide +kernel)⟩
  · exact ⟨by decide +kernel, aboutToRun_of 0x51000000 (by decide +kernel) (by decide +kernel) (by decide +kernel), _, rfl,
      aboutToRun_of 0x53000000 (by decide +kernel) (by decide +kernel) (by decide +kernel)⟩

/-- Each clause of the translation rule at a boundary value. -/
theorem witness_TranslateFollowsTheTable :
    State.reset.fr.getLsbD 2 = false ∧ (virtLost 0).fr.getLsbD 2 = true ∧ 2 ^ 30 ≤ (virtLost 0).ptbr.toNat ∧
    translate 0x3000 (virt 0) = .ok .pageFault ∧
    translate 0x1000 { withWords [(0x3FFFFFF8, 2)] (virt 0) with ptbr := 0x3FFFFFF8 } = .error .outOfRange ∧
    translate 0x1000 (virt 0) = .ok .pageFault ∧ translate 0x2FFF (virt 0) = .ok (.mapped 0x3FFFFFFF) := by decide +kernel

theorem witness_ByteAccessesShareTheWord : (0x3FFFFFFF < 2 ^ 30 ∧ 2 ^ 30 ≤ 0x40000000) ∧ 3 < 4 := by decide

theorem witness_WordAccessIgnoresLowBits :
    translate 0x2FFF (virt 0) = .ok (.mapped 0x3FFFFFFF) ∧ translate (0x2FFF &&& 0xFFFFFFFC) (virt 0) = .ok (.mapped 0x3FFFFFFC) := by
  decide +kernel

theorem witness_WordAccessReadsWhatWasWritten : 0x3FFFFFFC < 2 ^ 30 ∧ 2 ^ 30 ≤ 0x40000000 := by decide

/-- The memory of the test states is canonical, and a step of one answers a next state. -/
theorem witness_StepKeepsMemoryCanonical :
    (at100 0x46280000 { State.reset with sp := 0x800, r5 := 7 }).Inv ∧
    gives (step (at100 0x46280000 { State.reset with sp := 0x800, r5 := 7 })) (fun _ => true) = true := by
  exact ⟨⟨⟨by decide +kernel, by decide +kernel⟩, by decide +kernel⟩, by decide +kernel⟩

theorem witness_EveryEventKeepsMemoryCanonical :
    gives (runEvents [.move (.hostWord 0x100 0x53000000), .move (.watcherRaise .timer), .core] { State.reset with sp := 0x900 })
      (fun t => t.mem.readWord 0x100 == 0x53000000 && t.raised == some 5) = true := by decide +kernel

theorem witness_OnlyTheHostWritesPtbr :
    gives (step (at100 0x53000000 State.reset)) (fun _ => true) = true ∧
    gives (applyMove (.hostContext { storeContext State.reset with ptbr := 0x1000 }) State.reset)
      (fun t => t.ptbr != State.reset.ptbr) = true := by decide +kernel

theorem witness_ModeChangesOnlyWhereListed :
    gives (step (at100 0x51000000 State.reset)) (fun t => !State.reset.isVirtual && t.isVirtual) = true ∧
    gives (step (virt 0x52000000)) (fun t => (virt 0x52000000).isVirtual && !t.isVirtual) = true ∧
    gives (applyMove (.hostContext { storeContext State.reset with fr := 4 }) State.reset) (fun t => t.isVirtual) = true := by
  decide +kernel

theorem witness_FlagsChangeOnlyWhereListed :
    (Instr.mov .sp .r0).wellFormed = true ∧ gives (exec (.mov .sp .r0) { State.reset with fr := 0xFFFFFFFB }) (fun _ => true) = true ∧
    (Instr.mov .sp .r0) ≠ .popint ∧ (Instr.mov .sp .r0).mnemonic ∉ ["ADD", "SUB", "MUL", "DIV", "CMP", "NEG", "AND", "OR", "XOR"] := by
  decide +kernel

/-- Steps that change C, Z and S, and one that changes a high bit; and a context load that changes FR. -/
theorem witness_FlagsChangeOnlyWhereListed_step :
    gives (step (at100 0x10004000 { State.reset with r0 := 0x7FFFFFFF, r1 := 1, fr := 2 })) (fun t => t.fr == 9) = true ∧
    gives (step (at100 0x4A000000 (withWords [(0x920, 0x10)] { State.reset with sp := 0x928 }))) (fun t => t.fr == 0x10) = true ∧
    gives (applyMove (.hostContext { storeContext State.reset with fr := 1 }) State.reset) (fun t => t.fr != State.reset.fr) = true := by
  decide +kernel

theorem witness_OnlyRealModeHaltSetsHalted :
    gives (step (at100 0x53000000 State.reset)) (fun t => t.halted) = true ∧
    gives (applyMove .clearHalted { State.reset with halted := true }) (fun t => t.halted != true) = true := by decide +kernel

/-- A store in virtual mode without an interrupt, and one that takes one. -/
theorem witness_VirtualModeWritesOnlyGrantedPages :
    (virt 0x41080000).isVirtual = true ∧
    gives (step { virt 0x41080000 with r0 := 1, r1 := 0xFFC }) (fun t => t.raised == none && t.mem.readByte 0x5FFC != 0) = true ∧
    gives (step { virt 0x41080000 with r0 := 1, r1 := 0x1000 }) (fun t => t.raised == some 3) = true := by decide +kernel

/-- A state about to load in virtual mode, and one that differs from it in a word of no granted page (0x6000). -/
def loading : State := { virt 0x40004000 with r1 := 0xABC }

def loadingToo : State := withWords [(0x6000, 0x55)] loading

theorem loadingToo_agrees (a : Nat) (h : loading.TableByte a ∨ loading.Granted a) :
    loadingToo.mem.readByte a = loading.mem.readByte a := by
  have hl : (loading.mem.readWord loading.ptbr.toNat).toNat = 3 := by decide +kernel
  have hp : loading.ptbr.toNat = 0x1000 := rfl
  have h0 : (loading.mem.readWord 0x1004).toNat = 0xB := by decide +kernel
  have h1 : (loading.mem.readWord 0x1008).toNat = 0xE := by decide +kernel
  have h2 : (loading.mem.readWord 0x100C).toNat = 0x7FFFF := by decide +kernel
  show (loading.mem.writeWord 0x6000 0x55#32).readByte a = _
  rw [Memory.readByte_writeWord, if_neg]
  intro ha
  rcases h with (h | ⟨v, -, hv, h⟩) | ⟨v, -, hv, ho, h⟩
  · rw [hp] at h; omega
  · rw [hl] at hv; rw [hp] at h; omega
  · rw [hl] at hv; rw [hp] at ho h
    interval_cases v <;> simp only [Nat.reduceMul, Nat.reduceAdd, h0, h1, h2] at ho h <;> omega

theorem witness_VirtualModeReadsOnlyGrantedPages :
    loading.isVirtual = true ∧ loading.Running ∧ loadingToo.Running ∧ (∀ r, loadingToo.reg r = loading.reg r) ∧
    (∀ a, loading.TableByte a ∨ loading.Granted a → loadingToo.mem.readByte a = loading.mem.readByte a) ∧
    gives (step loading) (fun t => t.isVirtual) = true ∧ loadingToo ≠ loading :=
  ⟨by decide +kernel, ⟨by decide +kernel, by decide +kernel⟩, ⟨by decide +kernel, by decide +kernel⟩,
    fun r => by cases r <;> decide +kernel, loadingToo_agrees, by decide +kernel, by decide +kernel⟩

theorem witness_WatchersWriteOnlyDeviceCells :
    gives (applyMove (.watcherRaise .keyboard) State.reset) (fun t => t.irq == [1]) = true := by decide

end Sys2Proof.Tests
end

/-! # Memory and translation (spec/20_memory.md) -/

namespace Sys2Proof.Machine

/-! ## RAM in the numbers of the rules -/

theorem ramSize_eq : ramSize = 2 ^ 30 := rfl

/-- A store changes RAM alone. -/
theorem keeps_withMem (s : State) (m : Memory) : Keeps s { s with mem := m } [] :=
  ⟨fun r _ => State.reg_withMem s m r, rfl, rfl, rfl⟩

/-- Settles O45: the range check decides whether the access completes, and a word written is read back at each of its
addresses and at no other. -/
theorem wordAccessReadsWhatWasWritten : Obligations.WordAccessReadsWhatWasWritten := by
  intro pa v s
  rw [← ramSize_eq]
  refine ⟨fun hout => ⟨physReadWord_error.mpr ⟨hout, rfl⟩, physWriteWord_error.mpr ⟨hout, rfl⟩⟩, fun hin => ⟨?_, ?_⟩⟩
  · exact physReadWord_ok.mpr ⟨hin, Memory.readWord_congr _ (by omega)⟩
  · refine ⟨_, physWriteWord_ok.mpr ⟨hin, rfl⟩, keeps_withMem s _, fun a ha => ?_, fun a ha => ?_⟩
    · rw [Memory.readWord_writeWord, if_pos ha]
    · rw [Memory.readWord_writeWord, if_neg ha]

/-! ## Translation by the fields of an address and of an entry (R64 to R66) -/

/-- The page number of an address is its bits 31:12. -/
theorem toNat_vpageBits (va : Word) : (va.extractLsb' 12 20).toNat = va.toNat / pageSize := by
  have hva : va.toNat / 2 ^ 12 < 2 ^ 20 := by omega
  rw [BitVec.extractLsb'_toNat, Nat.shiftRight_eq_div_pow, Nat.mod_eq_of_lt hva]
  rfl

/-- The offset in a page is bits 11:0 of the address. -/
theorem toNat_offsetBits (va : Word) : (va.extractLsb' 0 12).toNat = va.toNat % pageSize := by
  rw [BitVec.extractLsb'_toNat]
  rfl

/-- The physical page of an entry is its bits 31:1. -/
theorem toNat_entryPageBits (entry : Word) : (entry.extractLsb' 1 31).toNat = entryPage entry := by
  have he : entry.toNat / 2 ^ 1 < 2 ^ 31 := by omega
  rw [BitVec.extractLsb'_toNat, Nat.shiftRight_eq_div_pow, Nat.mod_eq_of_lt he, entryPage, BitVec.toNat_ushiftRight,
    Nat.shiftRight_eq_div_pow]

/-- Settles O42: in each mode the walk branches on the numbers the rule names. -/
theorem translateFollowsTheTable : Obligations.TranslateFollowsTheTable := by
  intro va s
  simp only [toNat_vpageBits, toNat_offsetBits, toNat_entryPageBits, ← ramSize_eq, ← State.isVirtual_eq]
  cases hv : s.isVirtual with
  | false => rw [if_pos rfl, translate_real hv]
  | true =>
    rw [if_neg (by decide)]
    split_ifs with hptbr hlength hentry hinvalid <;> rw [translate_virtual hv]
    · rw [if_pos hptbr]
    · rw [if_neg hptbr, if_pos hlength]
    · rw [if_neg hptbr, if_neg hlength]
      exact if_pos hentry
    · rw [if_neg hptbr, if_neg hlength]
      exact (if_neg hentry).trans (if_neg (Bool.eq_false_iff.mp hinvalid))
    · rw [if_neg hptbr, if_neg hlength]
      exact (if_neg hentry).trans (if_pos (Bool.of_not_eq_false hinvalid))

/-! ## Bytes of a word (R52, R56) -/

/-- Bit `j` of a word of RAM is a bit of the byte `j / 8` above the word's lowest address. -/
theorem Memory.getLsbD_readWord (m : Memory) (a : Nat) {j : Nat} (hj : j < 32) :
    (m.readWord a).getLsbD j = (m.readByte (wordBase a + j / 8)).getLsbD (j % 8) := by
  have hbase : (wordBase a + j / 8) / 4 = a / 4 := by unfold wordBase; omega
  have hbyte : (wordBase a + j / 8) % 4 = j / 8 := by unfold wordBase; omega
  rw [← Memory.byteOfWord_readWord, Memory.readWord_congr m hbase, hbyte]
  change _ = ((m.readWord a).extractLsb' (8 * (j / 8)) 8).getLsbD (j % 8)
  rw [BitVec.getLsbD_extractLsb', Nat.div_add_mod]
  simp [Nat.mod_lt]

/-- The read-modify-write of R56: byte `k` of the word is replaced, its other bits stay. -/
theorem getLsbD_replaceByte (w : Word) (b : Byte) (k : Nat) {j : Nat} (hj : j < 32) :
    ((w &&& ~~~(0xFF#32 <<< (8 * k))) ||| (b.setWidth 32 <<< (8 * k))).getLsbD j =
      if j / 8 = k then b.getLsbD (j % 8) else w.getLsbD j := by
  have hmask : 0xFF#32 = (BitVec.allOnes 8).setWidth 32 := by decide
  simp only [hmask, BitVec.getLsbD_or, BitVec.getLsbD_and, BitVec.getLsbD_not, BitVec.getLsbD_shiftLeft,
    BitVec.getLsbD_setWidth, BitVec.getLsbD_allOnes]
  split_ifs with hjk
  · have hlow : j - 8 * k = j % 8 := by omega
    have hge : ¬ j < 8 * k := by omega
    have hin : j % 8 < 32 := by omega
    simp [hj, hlow, hge, hin, Nat.mod_lt]
  · by_cases hlt : j < 8 * k
    · simp [hj, hlt]
    · have hhigh : 8 ≤ j - 8 * k := by omega
      simp [hj, Nat.not_lt.mpr hhigh, BitVec.getLsbD_of_ge b _ hhigh]

/-- A byte written replaces its eight bits of the word that holds it (R56). -/
theorem Memory.readWord_writeByte_same (m : Memory) (a : Nat) (b : Byte) :
    (m.writeByte a b).readWord a =
      (m.readWord a &&& ~~~(0xFF#32 <<< (8 * (a % 4)))) ||| (b.setWidth 32 <<< (8 * (a % 4))) := by
  refine BitVec.eq_of_getLsbD_eq fun j hj => ?_
  have haddr : wordBase a + j / 8 = a ↔ j / 8 = a % 4 := by unfold wordBase; omega
  rw [getLsbD_replaceByte _ _ _ hj, Memory.getLsbD_readWord _ _ hj, Memory.readByte_writeByte, Memory.getLsbD_readWord _ _ hj]
  simp only [haddr]
  split_ifs <;> rfl

/-- Settles O44: a byte is its bits of the containing word, and a byte store replaces those bits alone. -/
theorem byteAccessesShareTheWord : Obligations.ByteAccessesShareTheWord := by
  unfold Obligations.ByteAccessesShareTheWord
  rw [← ramSize_eq]
  refine ⟨fun pa s => ?_, fun pa b s hout => physWriteByte_error.mpr ⟨hout, rfl⟩, fun pa b s hin => ?_,
    fun w k _ => ⟨rfl, rfl⟩, wordOfBytes_byteOfWord⟩
  · split_ifs with hin
    · exact physReadByte_ok.mpr ⟨hin, Memory.byteOfWord_readWord s.mem pa⟩
    · exact physReadByte_error.mpr ⟨Nat.le_of_not_lt hin, rfl⟩
  · exact ⟨_, physWriteByte_ok.mpr ⟨hin, rfl⟩, keeps_withMem s _, Memory.readWord_writeByte_same s.mem pa b,
      fun a ha => Memory.readWord_writeByte_of_ne s.mem b ha⟩

end Sys2Proof.Machine

/-! # The printed opcode map against the decoder (spec/30_encoding.md) -/

namespace Sys2Proof

/-! ## Which field values a format admits (R98, R101) -/

/-- A code of class `GPR` names a register of that class (R101). -/
theorem exists_gprField : ∀ {c : BitVec 5}, c.toNat < 8 → ∃ r, gprField c = some r := by
  simp only [← Option.isSome_iff_exists]
  decide

theorem exists_gprSpField : ∀ {c : BitVec 5}, c.toNat < 9 → ∃ r, gprSpField c = some r := by
  simp only [← Option.isSome_iff_exists]
  decide

theorem codeOfReg_lt_of_isGpr {r : Reg} (h : r.isGpr = true) : (codeOfReg r).toNat < 8 := by
  revert h; cases r <;> decide

theorem codeOfReg_lt_of_isGprSp {r : Reg} (h : r.isGprSp = true) : (codeOfReg r).toNat < 9 := by
  revert h; cases r <;> decide

/-- The fields of `w` are legal in the layout: register codes in their class, reserved bits zero. -/
def Layout.Accepts (l : Layout) (w : Word) : Prop :=
  match l with
  | .bare _ => imm24Field w = 0#24
  | .oneReg _ => (r1Field w).toNat < 8 ∧ imm19Field w = 0#19
  | .twoRegs _ => (r1Field w).toNat < 8 ∧ (r2Field w).toNat < 8 ∧ low14Field w = 0#14
  | .twoRegsSp _ => (r1Field w).toNat < 9 ∧ (r2Field w).toNat < 9 ∧ low14Field w = 0#14
  | .imm _ => True
  | .regImm _ => (r1Field w).toNat < 8

/-- What a layout reads has legal fields. -/
theorem Layout.accepts_of_readFields_ok {l : Layout} {w : Word} {i : Instr} (h : readFields l w = .ok i) : l.Accepts w := by
  have hok := readFields_ok h
  cases l with
  | bare j => exact hok.2
  | oneReg f =>
    obtain ⟨r, hr, h1, h0, -⟩ := hok
    exact ⟨h1 ▸ codeOfReg_lt_of_isGpr hr, h0⟩
  | twoRegs f =>
    obtain ⟨r, q, hr, hq, h1, h2, h0, -⟩ := hok
    exact ⟨h1 ▸ codeOfReg_lt_of_isGpr hr, h2 ▸ codeOfReg_lt_of_isGpr hq, h0⟩
  | twoRegsSp f =>
    obtain ⟨r, q, hr, hq, h1, h2, h0, -⟩ := hok
    exact ⟨h1 ▸ codeOfReg_lt_of_isGprSp hr, h2 ▸ codeOfReg_lt_of_isGprSp hq, h0⟩
  | imm f => trivial
  | regImm f =>
    obtain ⟨r, hr, h1, -⟩ := hok
    rw [Accepts, h1]
    exact codeOfReg_lt_of_isGpr hr

/-- Legal fields are read: their codes name registers of the class. -/
theorem Layout.Accepts.exists_readFields_ok {l : Layout} {w : Word} (h : l.Accepts w) : ∃ i, readFields l w = .ok i := by
  cases l with
  | bare i => exact ⟨i, if_pos h⟩
  | oneReg f =>
    obtain ⟨h1, h0⟩ := h
    obtain ⟨r, hr⟩ := exists_gprField h1
    exact ⟨f r, by simp [readFields, hr, h0]⟩
  | twoRegs f =>
    obtain ⟨h1, h2, h0⟩ := h
    obtain ⟨r, hr⟩ := exists_gprField h1
    obtain ⟨q, hq⟩ := exists_gprField h2
    exact ⟨f r q, by simp [readFields, hr, hq, h0]⟩
  | twoRegsSp f =>
    obtain ⟨h1, h2, h0⟩ := h
    obtain ⟨r, hr⟩ := exists_gprSpField h1
    obtain ⟨q, hq⟩ := exists_gprSpField h2
    exact ⟨f r q, by simp [readFields, hr, hq, h0]⟩
  | imm f => exact ⟨_, rfl⟩
  | regImm f =>
    obtain ⟨r, hr⟩ := exists_gprField h
    exact ⟨f r (imm19Field w), by simp [readFields, hr]⟩

theorem readFields_isError_iff {l : Layout} {w : Word} : (∃ e, readFields l w = .error e) ↔ ¬ l.Accepts w := by
  refine ⟨fun ⟨e, he⟩ h => ?_, fun h => ?_⟩
  · obtain ⟨i, hi⟩ := h.exists_readFields_ok
    exact nomatch he.symm.trans hi
  · cases hread : readFields l w with
    | ok i => exact absurd (Layout.accepts_of_readFields_ok hread) h
    | error e => exact ⟨e, rfl⟩

/-! ## A layout under a mask and a match (R102) -/

/-- Concatenations are equal exactly when their parts are. -/
theorem append_inj_iff {m n : Nat} {x y : BitVec m} {u v : BitVec n} : x ++ u = y ++ v ↔ x = y ∧ u = v := by
  refine ⟨fun h => ⟨?_, ?_⟩, fun ⟨h1, h2⟩ => by rw [h1, h2]⟩
  · rw [← BitVec.extractLsb'_append_eq_left (a := x) (b := u), h, BitVec.extractLsb'_append_eq_left]
  · rw [← BitVec.extractLsb'_append_eq_right (a := x) (b := u), h, BitVec.extractLsb'_append_eq_right]

theorem opField_and_0xFF (w : Word) : opField w &&& 0xFF#8 = opField w := BitVec.and_allOnes

/-- Under a mask that keeps the opcode byte, a word is its opcode byte alone exactly when the rest is masked to zero. -/
theorem and_bare_eq_iff (w : Word) (m : BitVec 24) :
    w &&& (0xFF#8 ++ m) = opField w ++ 0#24 ↔ imm24Field w &&& m = 0#24 := by
  have h := @BitVec.and_append _ _ (opField w) 0xFF#8 (imm24Field w) m
  rw [word_bare] at h
  rw [h, append_inj_iff, opField_and_0xFF, and_iff_right rfl]

theorem and_reg_eq_iff (w : Word) (m : BitVec 5) (k : BitVec 19) :
    w &&& (0xFF#8 ++ m ++ k) = opField w ++ 0#5 ++ 0#19 ↔ r1Field w &&& m = 0#5 ∧ imm19Field w &&& k = 0#19 := by
  have h := @BitVec.and_append _ _ (opField w ++ r1Field w) (0xFF#8 ++ m) (imm19Field w) k
  rw [word_reg] at h
  rw [h, BitVec.and_append, append_inj_iff, append_inj_iff, opField_and_0xFF, and_iff_right rfl]

theorem and_regs_eq_iff (w : Word) (m n : BitVec 5) (k : BitVec 14) :
    w &&& (0xFF#8 ++ m ++ n ++ k) = opField w ++ 0#5 ++ 0#5 ++ 0#14 ↔
      r1Field w &&& m = 0#5 ∧ r2Field w &&& n = 0#5 ∧ low14Field w &&& k = 0#14 := by
  have h := @BitVec.and_append _ _ (opField w ++ r1Field w ++ r2Field w) (0xFF#8 ++ m ++ n) (low14Field w) k
  rw [word_regs] at h
  rw [h, BitVec.and_append, BitVec.and_append, append_inj_iff, append_inj_iff, append_inj_iff, opField_and_0xFF,
    and_iff_right rfl, and_assoc]

/-- A code is of class `GPR` exactly when its two high bits are zero. -/
theorem and_0x18_eq_zero_iff (c : BitVec 5) : c &&& 0x18#5 = 0#5 ↔ c.toNat < 8 := by
  revert c; decide

/-- The one high bit MOV's mask tests is zero on every code of class `GPR_SP`. -/
theorem and_0x10_eq_zero_of_lt : ∀ {c : BitVec 5}, c.toNat < 9 → c &&& 0x10#5 = 0#5 := by
  decide

/-- The mask of a layout, field by field: the opcode byte, the bits a register class leaves zero, the reserved bits. -/
def Layout.mask : Layout → Word
  | .bare _ => 0xFF#8 ++ 0xFFFFFF#24
  | .oneReg _ => 0xFF#8 ++ 0x18#5 ++ 0x7FFFF#19
  | .twoRegs _ => 0xFF#8 ++ 0x18#5 ++ 0x18#5 ++ 0x3FFF#14
  | .twoRegsSp _ => 0xFF#8 ++ 0x10#5 ++ 0x10#5 ++ 0x3FFF#14
  | .imm _ => 0xFF#8 ++ 0#24
  | .regImm _ => 0xFF#8 ++ 0x18#5 ++ 0#19

/-- The match of a layout at an opcode byte: every other field zero. -/
def Layout.pattern (op : BitVec 8) : Layout → Word
  | .bare _ => op ++ 0#24
  | .oneReg _ => op ++ 0#5 ++ 0#19
  | .twoRegs _ => op ++ 0#5 ++ 0#5 ++ 0#14
  | .twoRegsSp _ => op ++ 0#5 ++ 0#5 ++ 0#14
  | .imm _ => op ++ 0#24
  | .regImm _ => op ++ 0#5 ++ 0#19

/-- MOV's layout, whose class `GPR_SP` the mask alone does not decide (R102). -/
def Layout.isMov : Layout → Prop
  | .twoRegsSp _ => True
  | _ => False

/-- The mask and match, with MOV's class check, admit the fields that the layout admits. -/
theorem Layout.accepts_iff_mask (l : Layout) (w : Word) :
    l.Accepts w ↔ w &&& l.mask = l.pattern (opField w) ∧
      ¬ (l.isMov ∧ (8 < (r1Field w).toNat ∨ 8 < (r2Field w).toNat)) := by
  have h24 : imm24Field w &&& 0xFFFFFF#24 = imm24Field w := BitVec.and_allOnes
  have h19 : imm19Field w &&& 0x7FFFF#19 = imm19Field w := BitVec.and_allOnes
  have h14 : low14Field w &&& 0x3FFF#14 = low14Field w := BitVec.and_allOnes
  -- `reduceAppend` would turn a mask into a numeral, where the lemmas above speak of its fields.
  cases l with
  | bare i => simp [Accepts, mask, pattern, isMov, and_bare_eq_iff, h24, -BitVec.reduceAppend]
  | oneReg f => simp [Accepts, mask, pattern, isMov, and_reg_eq_iff, h19, and_0x18_eq_zero_iff, -BitVec.reduceAppend]
  | twoRegs f => simp [Accepts, mask, pattern, isMov, and_regs_eq_iff, h14, and_0x18_eq_zero_iff, -BitVec.reduceAppend]
  | imm f => simp [Accepts, mask, pattern, isMov, and_bare_eq_iff, -BitVec.reduceAppend]
  | regImm f => simp [Accepts, mask, pattern, isMov, and_reg_eq_iff, and_0x18_eq_zero_iff, -BitVec.reduceAppend]
  | twoRegsSp f =>
    simp only [Accepts, mask, pattern, isMov, and_regs_eq_iff, h14, true_and, not_or, Nat.not_lt]
    constructor
    · rintro ⟨h1, h2, h0⟩
      exact ⟨⟨and_0x10_eq_zero_of_lt h1, and_0x10_eq_zero_of_lt h2, h0⟩, by omega⟩
    · rintro ⟨⟨-, -, h0⟩, hcodes⟩
      exact ⟨by omega, by omega, h0⟩

/-! ## The rows of the two maps, side by side -/

/-- The format of a layout. -/
def Layout.format : Layout → Format
  | .bare _ => .n
  | .oneReg _ => .r
  | .twoRegs _ | .twoRegsSp _ => .rr
  | .imm _ => .i
  | .regImm _ => .ri

/-- The layout builds the instruction of that name, with the fields as its operands in order. -/
def Layout.Builds (name : String) : Layout → Prop
  | .bare i => i.mnemonic = name ∧ i.operands = []
  | .oneReg f => ∀ r, (f r).mnemonic = name ∧ (f r).operands = [r.number]
  | .twoRegs f | .twoRegsSp f => ∀ r q, (f r q).mnemonic = name ∧ (f r q).operands = [r.number, q.number]
  | .imm f => ∀ v, (f v).mnemonic = name ∧ (f v).operands = [v.toNat]
  | .regImm f => ∀ r v, (f r v).mnemonic = name ∧ (f r v).operands = [r.number, v.toNat]

theorem toNat_codeOfReg (r : Reg) : (codeOfReg r).toNat = r.number := by
  cases r <;> rfl

/-- The operands of what a layout reads are the fields of its format. -/
theorem mnemonic_operands_of_readFields_ok {l : Layout} {name : String} (hl : l.Builds name) {w : Word} {i : Instr}
    (h : readFields l w = .ok i) : i.mnemonic = name ∧ i.operands = l.format.fieldsOf w := by
  have hok := readFields_ok h
  cases l with
  | bare j => obtain ⟨rfl, -⟩ := hok; exact hl
  | oneReg f =>
    obtain ⟨r, -, h1, -, rfl⟩ := hok
    simpa [Layout.format, Format.fieldsOf, ← r1Field.eq_def, h1, toNat_codeOfReg] using hl r
  | twoRegs f =>
    obtain ⟨r, q, -, -, h1, h2, -, rfl⟩ := hok
    simpa [Layout.format, Format.fieldsOf, ← r1Field.eq_def, ← r2Field.eq_def, h1, h2, toNat_codeOfReg] using hl r q
  | twoRegsSp f =>
    obtain ⟨r, q, -, -, h1, h2, -, rfl⟩ := hok
    simpa [Layout.format, Format.fieldsOf, ← r1Field.eq_def, ← r2Field.eq_def, h1, h2, toNat_codeOfReg] using hl r q
  | imm f => cases hok; exact hl _
  | regImm f =>
    obtain ⟨r, -, h1, rfl⟩ := hok
    simpa [Layout.format, Format.fieldsOf, ← r1Field.eq_def, h1, toNat_codeOfReg, imm19Field] using hl r (imm19Field w)

/-- A row of the printed map says what the decoder's layout of its opcode byte does. -/
def TableRow.Prints (row : TableRow) (op : BitVec 8) (l : Layout) : Prop :=
  row.op = op ∧ row.format = l.format ∧ row.mask = l.mask ∧ row.pattern = l.pattern op ∧
    (row.mnemonic = "MOV" ↔ l.isMov) ∧ l.Builds row.mnemonic

/-- The two maps print the same rows in the same order. -/
def SameRows : List (BitVec 8 × Layout) → List TableRow → Prop :=
  List.Forall₂ fun entry row => row.Prints entry.1 entry.2

/-- Row by row: opcode byte, format, mask, match, mnemonic and operand order. -/
theorem sameRows_opcodeMap : SameRows opcodeMap opcodeTable := by
  simp [SameRows, TableRow.Prints, Layout.format, Layout.mask, Layout.pattern, Layout.isMov, Layout.Builds, Instr.mnemonic,
    Instr.operands, opcodeMap, arithmeticRows, logicalRows, controlFlowRows, memoryRows, machineStateRows,
    opcodeTable, arithmeticTable, logicalTable, controlFlowTable, memoryTable, machineStateTable]

/-- In maps of the same rows, a byte is found in both, with a layout that its row prints, or in neither. -/
theorem SameRows.lookup_rel_find? {entries : List (BitVec 8 × Layout)} {rows : List TableRow} (h : SameRows entries rows)
    (op : BitVec 8) :
    Option.Rel (fun l row => TableRow.Prints row op l) (entries.lookup op) (rows.find? fun row => row.op == op) := by
  induction h with
  | nil => exact .none
  | @cons entry row entries rows hrow _ ih =>
    obtain ⟨rop, l⟩ := entry
    have hop : row.op = rop := hrow.1
    by_cases heq : rop = op
    · subst heq
      rw [List.lookup_cons_self, List.find?_cons_of_pos (by simp [hop])]
      exact .some hrow
    · rw [List.lookup_cons, beq_false_of_ne (Ne.symm heq), List.find?_cons_of_neg (by simpa [hop] using heq)]
      exact ih

/-- A row's mask and match, with MOV's class check, admit the words that its layout reads. -/
theorem TableRow.Prints.accepts_iff {row : TableRow} {l : Layout} {w : Word} (h : row.Prints (opField w) l) :
    l.Accepts w ↔ w &&& row.mask = row.pattern ∧
      ¬ (row.mnemonic = "MOV" ∧ (8 < (r1Field w).toNat ∨ 8 < (r2Field w).toNat)) := by
  obtain ⟨-, -, hmask, hpattern, hmov, -⟩ := h
  rw [l.accepts_iff_mask, hmask, hpattern, hmov]

/-- What a row's layout reads is the row's instruction, with the fields of the row's format. -/
theorem TableRow.Prints.mnemonic_operands {row : TableRow} {op : BitVec 8} {l : Layout} {w : Word} {i : Instr}
    (h : row.Prints op l) (hi : readFields l w = .ok i) :
    i.mnemonic = row.mnemonic ∧ i.operands = row.format.fieldsOf w := by
  obtain ⟨-, hformat, -, -, -, hbuilds⟩ := h
  rw [hformat]
  exact mnemonic_operands_of_readFields_ok hbuilds hi

theorem decode_of_layoutOf_none {w : Word} (h : layoutOf (opField w) = none) :
    decode w = .error (unknownOpcode (opField w)) := by
  rw [decode, h]

theorem decode_of_layoutOf_some {w : Word} {l : Layout} (h : layoutOf (opField w) = some l) : decode w = readFields l w := by
  rw [decode, h]

/-- Settles O2: the decoder finds a layout exactly where the printed map has a row, and the two agree on which words are legal
and on what a legal word means. -/
theorem decodeFollowsThePrintedMap : Obligations.DecodeFollowsThePrintedMap := by
  intro w
  have hrel : Option.Rel _ (layoutOf (opField w)) _ := sameRows_opcodeMap.lookup_rel_find? (opField w)
  rw [← opField, ← r1Field, ← r2Field]
  generalize hlayout : layoutOf (opField w) = layout, opcodeTable.find? (fun row => row.op == opField w) = printed at hrel ⊢
  cases hrel with
  | none => exact ⟨_, decode_of_layoutOf_none hlayout⟩
  | @some l row hprints =>
    have haccepts := hprints.accepts_iff
    rw [decode_of_layoutOf_some hlayout]
    dsimp only
    split_ifs with hmask hmov
    · exact readFields_isError_iff.mpr fun h => hmask (haccepts.mp h).1
    · exact readFields_isError_iff.mpr fun h => (haccepts.mp h).2 hmov
    · obtain ⟨i, hi⟩ := (haccepts.mpr ⟨not_not.mp hmask, hmov⟩).exists_readFields_ok
      exact ⟨i, hi, hprints.mnemonic_operands hi⟩

end Sys2Proof

/-! # The arithmetic family (spec/40_arithmetic.md) -/

namespace Sys2Proof

/-! ## A word of format RR as a number (spec/30_encoding.md R95) -/

theorem toNat_packRegs (op : BitVec 8) (r q : Reg) :
    (packRegs op r q).toNat = op.toNat <<< 24 ||| r.number <<< 19 ||| q.number <<< 14 := by
  simp only [packRegs, BitVec.toNat_append, toNat_codeOfReg, Nat.shiftLeft_or_distrib, ← Nat.shiftLeft_add,
    BitVec.toNat_ofNat, Nat.zero_mod, Nat.or_zero]

/-- A well-formed instruction of format RR has the encoding its rule prints: the opcode byte in place, then the fields. -/
theorem encode_of_packRegs {i : Instr} {op : BitVec 8} {bits : Nat} {r q : Reg} (hi : i.wellFormed = true)
    (hpack : encodeWord i = packRegs op r q) (hop : op.toNat <<< 24 = bits) :
    encode i = some (BitVec.ofNat 32 (bits ||| r.number <<< 19 ||| q.number <<< 14)) := by
  rw [encode, if_pos hi, hpack, ← hop, ← toNat_packRegs, BitVec.ofNat_toNat, BitVec.setWidth_eq]

namespace Machine

/-! ## What the shared end of an arithmetic instruction writes and keeps (R121, R122, R130) -/

/-- Where FR is what `SetFlagsArith` makes of the wide result, C, Z and S are those of R121 and every other bit is kept. -/
theorem flagsAre_of_fr_eq {s t : State} {wide : Int} (h : t.fr = setFlagsArith wide (wrap32 wide) s.fr) :
    FlagsAre s t (decide (wide > 2147483647)) (decide (BitVec.ofInt 32 wide = 0#32)) ((BitVec.ofInt 32 wide).getLsbD 31) := by
  intro k
  rw [h]
  exact getLsbD_setFlagsArith wide _ s.fr k

/-- Flags alone, as CMP writes them. -/
theorem arithStep_withFlags (wide : Int) (s : State) :
    ArithStep s { s with fr := setFlagsArith wide (wrap32 wide) s.fr } none wide :=
  ⟨nofun, flagsAre_of_fr_eq rfl,
    ⟨fun _ hr => State.reg_withFr s _ (List.ne_of_not_mem_cons hr), rfl, rfl, rfl⟩, fun _ _ => rfl⟩

theorem writeArith_fr {rd : Reg} (hd : rd.isGpr = true) (wide : Int) (s : State) :
    (writeArith rd wide s).fr = setFlagsArith wide (wrap32 wide) s.fr :=
  congrArg (setFlagsArith wide (wrap32 wide)) (State.setReg_fr_of_gpr s _ hd)

theorem reg_writeArith (rd : Reg) (wide : Int) (s : State) {r : Reg} (hr : r ≠ .fr) :
    (writeArith rd wide s).reg r = if r = rd then wrap32 wide else s.reg r :=
  (State.reg_withFr _ _ hr).trans (State.reg_setReg s rd r _)

/-- A destination of class `GPR` and the flags, as ADD, SUB, MUL and DIV write them. -/
theorem arithStep_writeArith {rd : Reg} (hd : rd.isGpr = true) (wide : Int) (s : State) :
    ArithStep s (writeArith rd wide s) (some rd) wide := by
  refine ⟨?_, flagsAre_of_fr_eq (writeArith_fr hd wide s), ⟨fun r hr => ?_, ?_, ?_, ?_⟩, fun a _ => ?_⟩
  · rintro r ⟨⟩
    have hfr : rd ≠ .fr := by rintro rfl; cases hd
    rw [reg_writeArith rd wide s hfr, if_pos rfl, wrap32]
  · obtain ⟨hfr, hrd⟩ : r ≠ .fr ∧ r ≠ rd := by simpa using hr
    rw [reg_writeArith rd wide s hfr, if_neg hrd]
  · exact State.setReg_halted s rd _
  · exact State.setReg_irq s rd _
  · exact State.setReg_raised s rd _
  · exact congrArg (Memory.readByte · a) (State.setReg_mem s rd _)

/-! ## The one quotient that overflows (R127) -/

/-- A quotient rounded toward zero exceeds `INT_MAX` only for `INT_MIN / -1`: every other one is a signed word. -/
theorem eq_of_intMax_lt_tdiv {a b : Word} (h : a.toInt.tdiv b.toInt > 2147483647) :
    a = 0x80000000#32 ∧ b = 0xFFFFFFFF#32 := by
  by_contra hne
  have hsdiv : (a.sdiv b).toInt = a.toInt.tdiv b.toInt := BitVec.toInt_sdiv_of_ne_or_ne a b (not_and_or.mp hne)
  have hlt : (a.sdiv b).toInt < 2 ^ 31 := BitVec.toInt_lt
  omega

/-! ## The instructions -/

/-- Settles O15: ADD is the shared end of the family on the signed sum. -/
theorem addWritesSumAndFlags : Obligations.AddWritesSumAndFlags := by
  intro rd rs s hd hs
  exact ⟨encode_of_packRegs (Bool.and_eq_true_iff.mpr ⟨hd, hs⟩) rfl rfl, _, rfl, arithStep_writeArith hd _ s⟩

/-- Settles O16: SUB is the shared end of the family on the signed difference. -/
theorem subWritesDifferenceAndFlags : Obligations.SubWritesDifferenceAndFlags := by
  intro rd rs s hd hs
  exact ⟨encode_of_packRegs (Bool.and_eq_true_iff.mpr ⟨hd, hs⟩) rfl rfl, _, rfl, arithStep_writeArith hd _ s⟩

/-- Settles O17: MUL is the shared end of the family on the exact signed product. -/
theorem mulWritesLowProductAndFlags : Obligations.MulWritesLowProductAndFlags := by
  intro rd rs s hd hs
  exact ⟨encode_of_packRegs (Bool.and_eq_true_iff.mpr ⟨hd, hs⟩) rfl rfl, _, rfl, arithStep_writeArith hd _ s⟩

/-- Settles O18: a zero divisor is the entry of interrupt 0; any other is the shared end of the family on the quotient, whose C
is the wide result's, so only the quotient that overflows sets it. -/
theorem divWritesQuotientOrTraps : Obligations.DivWritesQuotientOrTraps := by
  intro rd rs s hd hs
  refine ⟨encode_of_packRegs (Bool.and_eq_true_iff.mpr ⟨hd, hs⟩) rfl rfl, fun hzero => if_pos hzero, fun hdivisor => ?_⟩
  have hstep := arithStep_writeArith hd ((s.reg rd).toInt.tdiv (s.reg rs).toInt) s
  refine ⟨_, if_neg hdivisor, hstep, fun hcarry => ?_⟩
  obtain ⟨-, hflags, -, -⟩ := hstep
  rw [hflags 0, if_pos rfl] at hcarry
  exact eq_of_intMax_lt_tdiv (of_decide_eq_true hcarry)

/-- Settles O19: CMP writes the flags of the signed difference alone. -/
theorem cmpWritesOnlyFlags : Obligations.CmpWritesOnlyFlags := by
  intro ra rb s ha hb
  exact ⟨encode_of_packRegs (Bool.and_eq_true_iff.mpr ⟨ha, hb⟩) rfl rfl, _, rfl, arithStep_withFlags _ s⟩

end Machine

end Sys2Proof

/-! # The logical family (spec/41_logical.md) -/

namespace Sys2Proof

/-! ## A word of format R as a number (spec/30_encoding.md R94) -/

theorem toNat_packReg (op : BitVec 8) (r : Reg) : (packReg op r).toNat = op.toNat <<< 24 ||| r.number <<< 19 := by
  simp only [packReg, BitVec.toNat_append, toNat_codeOfReg, Nat.shiftLeft_or_distrib, ← Nat.shiftLeft_add,
    BitVec.toNat_ofNat, Nat.zero_mod, Nat.or_zero]

/-- A well-formed instruction of format R has the encoding its rule prints: the opcode byte in place, then the field. -/
theorem encode_of_packReg {i : Instr} {op : BitVec 8} {bits : Nat} {r : Reg} (hi : i.wellFormed = true)
    (hpack : encodeWord i = packReg op r) (hop : op.toNat <<< 24 = bits) :
    encode i = some (BitVec.ofNat 32 (bits ||| r.number <<< 19)) := by
  rw [encode, if_pos hi, hpack, ← hop, ← toNat_packReg, BitVec.ofNat_toNat, BitVec.setWidth_eq]

namespace Machine

/-! ## What the shared end of a logical instruction writes and keeps (R141, R146) -/

/-- A register and FR written, whatever their values: nothing else of the state changes. -/
theorem keeps_setReg_withFr (s : State) (rd : Reg) (v flags : Word) :
    Keeps s { s.setReg rd v with fr := flags } [.fr, rd] := by
  refine ⟨fun r hr => ?_, State.setReg_halted s rd v, State.setReg_irq s rd v, State.setReg_raised s rd v⟩
  obtain ⟨hfr, hrd⟩ : r ≠ .fr ∧ r ≠ rd := by simpa using hr
  rw [State.reg_withFr _ _ hfr, State.reg_setReg_ne s v hrd]

/-- Where FR is what `SetFlagsLogic` makes of the result, Z and S are those of R141 and every other bit, C among them, is
kept. -/
theorem flagsAre_of_fr_eq_setFlagsLogic {s t : State} {res : Word} (h : t.fr = setFlagsLogic res s.fr) :
    FlagsAre s t (s.fr.getLsbD 0) (decide (res = 0#32)) (res.getLsbD 31) := by
  intro k
  rw [h, getLsbD_setFlagsLogic]
  by_cases hk : k = 0
  · subst hk; rfl
  · rw [if_neg hk]

/-- A destination of class `GPR` and the flags, as all four instructions write them. -/
theorem logicStep_writeLogic {rd : Reg} (hd : rd.isGpr = true) (res : Word) (s : State) :
    LogicStep s (writeLogic rd res s) rd res := by
  have hfr : rd ≠ .fr := by rintro rfl; cases hd
  have hflags : (writeLogic rd res s).fr = setFlagsLogic res s.fr :=
    congrArg (setFlagsLogic res) (State.setReg_fr_of_gpr s res hd)
  refine ⟨?_, flagsAre_of_fr_eq_setFlagsLogic hflags, keeps_setReg_withFr s rd res _, fun a _ => ?_⟩
  · exact (State.reg_withFr _ _ hfr).trans (State.reg_setReg_same s rd res)
  · exact congrArg (Memory.readByte · a) (State.setReg_mem s rd res)

/-! ## The two readings of NEG (R142) -/

/-- Under the spec's default NEG is the exclusive or with the word of ones. -/
theorem negate_bitwiseNot (v : Word) : negate .bitwiseNot v = 0xFFFFFFFF#32 ^^^ v :=
  BitVec.not_def

/-! ## The instructions -/

/-- Settles O20: under both readings NEG is the shared end of the family, on the complement or on the arithmetic negative. -/
theorem negComplementsTheRegister : Obligations.NegComplementsTheRegister := by
  intro rd s hd
  refine ⟨encode_of_packReg hd rfl rfl, ⟨_, rfl, ?_⟩, logicStep_writeLogic hd _ s⟩
  rw [← negate_bitwiseNot]
  exact logicStep_writeLogic hd _ s

/-- Settles O21: AND, OR and XOR are the shared end of the family on their bitwise results. -/
theorem andOrXorWriteResultAndFlags : Obligations.AndOrXorWriteResultAndFlags := by
  intro rd rs s hd hs
  have hclasses : (rd.isGpr && rs.isGpr) = true := Bool.and_eq_true_iff.mpr ⟨hd, hs⟩
  exact ⟨encode_of_packRegs hclasses rfl rfl, encode_of_packRegs hclasses rfl rfl, encode_of_packRegs hclasses rfl rfl,
    ⟨_, rfl, logicStep_writeLogic hd _ s⟩, ⟨_, rfl, logicStep_writeLogic hd _ s⟩, ⟨_, rfl, logicStep_writeLogic hd _ s⟩⟩

end Machine

end Sys2Proof

/-! # The control-flow family (spec/42_control_flow.md) -/

namespace Sys2Proof

/-! ## Words of formats I and RI as numbers (spec/30_encoding.md R96, R97) -/

theorem toNat_packImm (op : BitVec 8) (v : BitVec 24) : (packImm op v).toNat = op.toNat <<< 24 ||| v.toNat :=
  BitVec.toNat_append op v

/-- A well-formed instruction of format I has the encoding its rule prints: the opcode byte in place, then the immediate. -/
theorem encode_of_packImm {i : Instr} {op : BitVec 8} {bits : Nat} {v : BitVec 24} (hi : i.wellFormed = true)
    (hpack : encodeWord i = packImm op v) (hop : op.toNat <<< 24 = bits) :
    encode i = some (BitVec.ofNat 32 (bits ||| v.toNat)) := by
  rw [encode, if_pos hi, hpack, ← hop, ← toNat_packImm, BitVec.ofNat_toNat, BitVec.setWidth_eq]

theorem toNat_packRegImm (op : BitVec 8) (r : Reg) (v : BitVec 19) :
    (packRegImm op r v).toNat = op.toNat <<< 24 ||| r.number <<< 19 ||| v.toNat := by
  simp only [packRegImm, BitVec.toNat_append, toNat_codeOfReg, Nat.shiftLeft_or_distrib, ← Nat.shiftLeft_add]

/-- A well-formed instruction of format RI has the encoding its rule prints: the opcode byte in place, then the fields. -/
theorem encode_of_packRegImm {i : Instr} {op : BitVec 8} {bits : Nat} {r : Reg} {v : BitVec 19} (hi : i.wellFormed = true)
    (hpack : encodeWord i = packRegImm op r v) (hop : op.toNat <<< 24 = bits) :
    encode i = some (BitVec.ofNat 32 (bits ||| r.number <<< 19 ||| v.toNat)) := by
  rw [encode, if_pos hi, hpack, ← hop, ← toNat_packRegImm, BitVec.ofNat_toNat, BitVec.setWidth_eq]

namespace Machine

/-! ## Zero-extended immediates (spec/30_encoding.md R99, R100) -/

@[simp] theorem toNat_zext24 (v : BitVec 24) : (zext24 v).toNat = v.toNat := BitVec.toNat_setWidth_of_le (by decide)

@[simp] theorem toNat_zext19 (v : BitVec 19) : (zext19 v).toNat = v.toNat := BitVec.toNat_setWidth_of_le (by decide)

/-! ## The shared end of a jump (R150) -/

theorem jumpIf_eq (taken : Bool) (target : Word) (s : State) :
    jumpIf taken target s = { s with pc := if taken then target else s.pc } := by
  cases taken <;> rfl

/-- A jump whose flag test decides the rule's condition moves `pc` as the rule says and keeps the rest. -/
theorem jumpStep_jumpIf {taken : Prop} {b : Bool} (hb : b = true ↔ taken) (target : Word) (s : State) :
    JumpStep s (jumpIf b target s) taken target.toNat := by
  rw [jumpIf_eq]
  refine ⟨fun h => ?_, fun h => ?_, ⟨fun r hr => ?_, rfl, rfl, rfl⟩, fun _ _ => rfl⟩
  · rw [if_pos (hb.mpr h)]
  · exact if_neg (mt hb.mp h)
  · exact State.reg_withPc s _ (List.ne_of_not_mem_cons hr)

/-- The form the jumps with a 24-bit target have. -/
theorem jumpStep_zext24 {taken : Prop} {b : Bool} (hb : b = true ↔ taken) (target : BitVec 24) (s : State) :
    ∃ t, (.next (jumpIf b (zext24 target) s) : Result) = .next t ∧ JumpStep s t taken target.toNat :=
  ⟨_, rfl, toNat_zext24 target ▸ jumpStep_jumpIf hb _ s⟩

/-! ## What one translated access raises where it does not complete (spec/20_memory.md R57 to R59) -/

/-- How an access at `va` stops: the counterpart of `memReadWord_ok` and `memWriteWord_ok`. -/
inductive AccessRaises (va : Word) (s : State) : Raise → Prop
  | pageFault (h : translate va s = .ok .pageFault) : AccessRaises va s (.interrupt pageFaultCode)
  | beyondRam {pa : Nat} (h : translate va s = .ok (.mapped pa)) (hpa : ramSize ≤ pa) :
      AccessRaises va s (.machineFault .outOfRange)
  | walk {f : Fault} (h : translate va s = .error f) : AccessRaises va s (.machineFault f)

theorem memReadWord_error {va : Word} {s : State} {e : Raise} (h : AccessRaises va s e) : memReadWord va s = .error e := by
  cases h with
  | pageFault h => rw [memReadWord, resolve_eq, h]
  | beyondRam h hpa => rw [memReadWord, resolve_ok.mpr h]; exact congrArg orFault (physReadWord_error.mpr ⟨hpa, rfl⟩)
  | walk h => rw [memReadWord, resolve_eq, h]

theorem memWriteWord_error {va v : Word} {s : State} {e : Raise} (h : AccessRaises va s e) :
    memWriteWord va v s = .error e := by
  cases h with
  | pageFault h => rw [memWriteWord, resolve_eq, h]
  | beyondRam h hpa => rw [memWriteWord, resolve_ok.mpr h]; exact congrArg orFault (physWriteWord_error.mpr ⟨hpa, rfl⟩)
  | walk h => rw [memWriteWord, resolve_eq, h]

theorem pushWord_error {v : Word} {s : State} {e : Raise} (h : AccessRaises s.sp s e) : pushWord v s = .error e := by
  rw [pushWord, memWriteWord_error h]

theorem popWord_error {s : State} {e : Raise} (h : AccessRaises (s.sp - 4#32) s e) : popWord s = .error e := by
  rw [popWord, memReadWord_error h]

/-- An instruction whose body stops as its one access does ends as the rules of that access say. -/
theorem accessStops_of_perform {i : Instr} {va : Word} {s : State} {body : State → Except Raise State}
    (hexec : exec i s = perform body s) (hbody : ∀ e, AccessRaises va s e → body s = .error e) : AccessStops i va s := by
  rw [AccessStops, hexec]
  refine ⟨fun h => ?_, fun pa h hpa => ?_, fun f h => ?_⟩
  · exact perform_interrupt (hbody _ (.pageFault h))
  · exact perform_fault (hbody _ (.beyondRam h hpa))
  · obtain rfl := translate_error h
    exact perform_fault (hbody _ (.walk h))

/-! ## The counter of LOOP (R159) -/

/-- The decrement wraps modulo 2^32: from 0 to `0xFFFFFFFF`. -/
theorem sub_one_eq_ofInt (v : Word) : v - 1#32 = BitVec.ofInt 32 (v.toNat - 1) := by
  rw [Int.sub_eq_add_neg, BitVec.ofInt_add, BitVec.ofInt_natCast, BitVec.ofNat_toNat, BitVec.setWidth_eq, BitVec.sub_eq_add_neg]
  rfl

/-! ## What LOOP, CALL and RET keep (R159, R162, R163) -/

/-- A register and `pc` written, whatever their values: nothing else of the state changes. -/
theorem keeps_setReg_withPc (s : State) (rc : Reg) (v pc : Word) : Keeps s { s.setReg rc v with pc := pc } [rc, .pc] := by
  refine ⟨fun r hr => ?_, State.setReg_halted s rc v, State.setReg_irq s rc v, State.setReg_raised s rc v⟩
  obtain ⟨hrc, hpc⟩ : r ≠ rc ∧ r ≠ .pc := by simpa using hr
  rw [State.reg_withPc _ _ hpc, State.reg_setReg_ne s v hrc]

/-- RAM, `sp` and `pc` written, whatever their values: no other register changes. -/
theorem keeps_withMem_withSp_withPc (s : State) (m : Memory) (sp pc : Word) :
    Keeps s { s with mem := m, sp := sp, pc := pc } [.sp, .pc] := by
  refine ⟨fun r hr => ?_, rfl, rfl, rfl⟩
  obtain ⟨hsp, hpc⟩ : r ≠ .sp ∧ r ≠ .pc := by simpa using hr
  calc State.reg { s with mem := m, sp := sp, pc := pc } r
      = State.reg { s with mem := m, sp := sp } r := State.reg_withPc { s with mem := m, sp := sp } pc hpc
    _ = State.reg { s with mem := m } r := State.reg_withSp { s with mem := m } sp hsp
    _ = s.reg r := State.reg_withMem s m r

/-- A word stored leaves every byte outside that word. -/
theorem keepsBytes_of_mem_eq_writeWord {s t : State} {pa : Nat} {v : Word} (h : t.mem = s.mem.writeWord pa v) :
    KeepsBytes s t (wordBytes pa) := by
  intro a ha
  rw [h, Memory.readByte_writeWord]
  exact if_neg ha

/-! ## The instructions -/

theorem exec_call_ok (target : BitVec 24) {s t : State} (h : pushWord s.pc s = .ok t) :
    exec (.call target) s = .next { t with pc := zext24 target } := by
  rw [exec, execCall]
  exact perform_ok (by rw [h])

theorem exec_ret_ok {s t : State} {v : Word} (h : popWord s = .ok (v, t)) : exec .ret s = .next { t with pc := v } := by
  rw [exec, execRet]
  exact perform_ok (by rw [h])

/-- Settles O23: the counter is written first, so the jump tests the value the register then holds. -/
theorem loopDecrementsAndBranches : Obligations.LoopDecrementsAndBranches := by
  intro rc target s hrc
  have hpc : rc ≠ .pc := by rintro rfl; cases hrc
  refine ⟨encode_of_packRegImm hrc rfl rfl, _, congrArg Host.Outcome.next (jumpIf_eq _ _ _), ?_⟩
  rw [State.reg_withPc _ _ hpc, State.reg_setReg_same]
  refine ⟨sub_one_eq_ofInt _, fun htaken => ?_, fun hlast => ?_, keeps_setReg_withPc s rc _ _, fun a _ => ?_⟩
  · rw [if_pos (bne_iff_ne.mpr htaken), toNat_zext19]
  · rw [hlast]
    exact State.reg_setReg_ne s _ hpc.symm
  · exact congrArg (Memory.readByte · a) (State.setReg_mem s rc _)

/-- Settles O24: CALL is a push of the next instruction's address followed by the jump, and stops where the push does. -/
theorem callPushesReturnAddress : Obligations.CallPushesReturnAddress := by
  intro target s
  refine ⟨encode_of_packImm rfl rfl rfl, fun pa hva hpa => ?_, accessStops_of_perform (by rw [exec, execCall]) fun e he => ?_⟩
  · refine ⟨_, exec_call_ok target (pushWord_ok.mpr ⟨pa, hva, hpa, rfl⟩), ?_, rfl, toNat_zext24 target,
      keeps_withMem_withSp_withPc s _ _ _, keepsBytes_of_mem_eq_writeWord rfl⟩
    rw [Memory.readWord_writeWord, if_pos rfl]
  · rw [pushWord_error he]

/-- Settles O25: RET is a pop into `pc`, and stops where the pop does. -/
theorem retPopsReturnAddress : Obligations.RetPopsReturnAddress := by
  intro s
  refine ⟨by decide, fun pa hva hpa => ?_, accessStops_of_perform (by rw [exec, execRet]) fun e he => ?_⟩
  · exact ⟨_, exec_ret_ok (popWord_ok.mpr ⟨pa, hva, hpa, rfl, rfl⟩), rfl, rfl,
      keeps_withMem_withSp_withPc s s.mem _ _, fun _ _ => rfl⟩
  · rw [popWord_error he]

/-- Settles O22: each jump is the shared end of the family on its own test of C, Z and S. -/
theorem jumpsTestTheirFlags : Obligations.JumpsTestTheirFlags := by
  intro target s
  have hjm : (!s.sign && !s.zero) = true ↔ s.fr.getLsbD 3 = false ∧ s.fr.getLsbD 1 = false := by
    rw [Bool.and_eq_true_iff, Bool.not_eq_true', Bool.not_eq_true']
    rfl
  exact ⟨⟨encode_of_packImm rfl rfl rfl, jumpStep_zext24 (iff_of_true rfl trivial) target s⟩,
    ⟨encode_of_packImm rfl rfl rfl, jumpStep_zext24 Iff.rfl target s⟩,
    ⟨encode_of_packImm rfl rfl rfl, jumpStep_zext24 Iff.rfl target s⟩,
    ⟨encode_of_packImm rfl rfl rfl, jumpStep_zext24 (Bool.not_eq_true' _).to_iff target s⟩,
    ⟨encode_of_packImm rfl rfl rfl, jumpStep_zext24 (Bool.not_eq_true' _).to_iff target s⟩,
    ⟨encode_of_packImm rfl rfl rfl, jumpStep_zext24 Iff.rfl target s⟩,
    ⟨encode_of_packImm rfl rfl rfl, jumpStep_zext24 hjm target s⟩⟩

end Machine

end Sys2Proof

/-! # The memory family (spec/43_memory_ops.md) -/

namespace Sys2Proof.Machine

/-! ## What one translated byte access raises where it does not complete (spec/20_memory.md R57 to R59) -/

theorem memReadByte_error {va : Word} {s : State} {e : Raise} (h : AccessRaises va s e) : memReadByte va s = .error e := by
  cases h with
  | pageFault h => rw [memReadByte, resolve_eq, h]
  | beyondRam h hpa => rw [memReadByte, resolve_ok.mpr h]; exact congrArg orFault (physReadByte_error.mpr ⟨hpa, rfl⟩)
  | walk h => rw [memReadByte, resolve_eq, h]

theorem memWriteByte_error {va : Word} {b : Byte} {s : State} {e : Raise} (h : AccessRaises va s e) :
    memWriteByte va b s = .error e := by
  cases h with
  | pageFault h => rw [memWriteByte, resolve_eq, h]
  | beyondRam h hpa => rw [memWriteByte, resolve_ok.mpr h]; exact congrArg orFault (physWriteByte_error.mpr ⟨hpa, rfl⟩)
  | walk h => rw [memWriteByte, resolve_eq, h]

/-! ## What the writes of the family keep (R173) -/

/-- What two writes in a row keep is what both keep. -/
theorem Keeps.trans {s t u : State} {rs qs : List Reg} (hst : Keeps s t rs) (htu : Keeps t u qs) : Keeps s u (rs ++ qs) := by
  obtain ⟨hreg, hhalted, hirq, hraised⟩ := hst
  obtain ⟨hreg', hhalted', hirq', hraised'⟩ := htu
  refine ⟨fun r hr => ?_, hhalted'.trans hhalted, hirq'.trans hirq, hraised'.trans hraised⟩
  obtain ⟨hrs, hqs⟩ := not_or.mp (mt List.mem_append.mpr hr)
  exact (hreg' r hqs).trans (hreg r hrs)

theorem keeps_setReg (s : State) (r : Reg) (v : Word) : Keeps s (s.setReg r v) [r] :=
  ⟨fun _ hq => State.reg_setReg_ne s v (List.ne_of_not_mem_cons hq), State.setReg_halted s r v, State.setReg_irq s r v,
    State.setReg_raised s r v⟩

theorem keeps_withSp (s : State) (v : Word) : Keeps s { s with sp := v } [.sp] :=
  ⟨fun _ hr => State.reg_withSp s v (List.ne_of_not_mem_cons hr), rfl, rfl, rfl⟩

theorem keepsBytes_of_mem_eq {s t : State} (h : t.mem = s.mem) : KeepsBytes s t noBytes :=
  fun a _ => congrArg (Memory.readByte · a) h

/-- A byte stored leaves every other byte. -/
theorem keepsBytes_of_mem_eq_writeByte {s t : State} {pa : Nat} {b : Byte} (h : t.mem = s.mem.writeByte pa b) :
    KeepsBytes s t (fun a => a = pa) := by
  intro a ha
  rw [h, Memory.readByte_writeByte]
  exact if_neg ha

/-! ## The instructions where their access completes -/

theorem exec_load_ok {rd ra : Reg} {s : State} {v : Word} (h : memReadWord (s.reg ra) s = .ok v) :
    exec (.load rd ra) s = .next (s.setReg rd v) := by
  rw [exec, execLoad]
  exact perform_ok (by rw [h])

theorem exec_store_ok {ra rs : Reg} {s t : State} (h : memWriteWord (s.reg ra) (s.reg rs) s = .ok t) :
    exec (.store ra rs) s = .next t := by
  rw [exec, execStore]
  exact perform_ok h

theorem exec_loadb_ok {rd ra : Reg} {s : State} {b : Byte} (h : memReadByte (s.reg ra) s = .ok b) :
    exec (.loadb rd ra) s = .next (s.setReg rd (b.setWidth 32)) := by
  rw [exec, execLoadb]
  exact perform_ok (by rw [h])

theorem exec_storeb_ok {ra rs : Reg} {s t : State} (h : memWriteByte (s.reg ra) ((s.reg rs).extractLsb' 0 8) s = .ok t) :
    exec (.storeb ra rs) s = .next t := by
  rw [exec, execStoreb]
  exact perform_ok h

theorem exec_push_ok {rs : Reg} {s t : State} (h : pushWord (s.reg rs) s = .ok t) : exec (.push rs) s = .next t := by
  rw [exec, execPush]
  exact perform_ok h

theorem exec_pop_ok {rd : Reg} {s t : State} {v : Word} (h : popWord s = .ok (v, t)) :
    exec (.pop rd) s = .next (t.setReg rd v) := by
  rw [exec, execPop]
  exact perform_ok (by rw [h])

/-! ## The loads and the stores (R174 to R177) -/

/-- Settles O26: LOAD is a word read written to its destination, and stops where the read does. -/
theorem loadReadsTheWord : Obligations.LoadReadsTheWord := by
  intro rd ra s hd ha
  refine ⟨encode_of_packRegs (Bool.and_eq_true_iff.mpr ⟨hd, ha⟩) rfl rfl, fun pa hva hpa => ?_,
    accessStops_of_perform (by rw [exec, execLoad]) fun e he => ?_⟩
  · exact ⟨_, exec_load_ok (memReadWord_ok.mpr ⟨pa, hva, hpa, rfl⟩), State.reg_setReg_same s rd _, keeps_setReg s rd _,
      keepsBytes_of_mem_eq (State.setReg_mem s rd _)⟩
  · rw [memReadWord_error he]

/-- Settles O27: STORE is a word write and nothing more, and stops where the write does. -/
theorem storeWritesTheWord : Obligations.StoreWritesTheWord := by
  intro ra rs s ha hs
  refine ⟨encode_of_packRegs (Bool.and_eq_true_iff.mpr ⟨ha, hs⟩) rfl rfl, fun pa hva hpa => ?_,
    accessStops_of_perform (by rw [exec, execStore]) fun e he => ?_⟩
  · refine ⟨_, exec_store_ok (memWriteWord_ok.mpr ⟨pa, hva, hpa, rfl⟩), ?_, keeps_withMem s _,
      keepsBytes_of_mem_eq_writeWord rfl⟩
    rw [Memory.readWord_writeWord, if_pos rfl]
  · exact memWriteWord_error he

/-- Settles O28: LOADB is a byte read whose extension, having the byte's number, is written to its destination, and stops
where the read does. -/
theorem loadbReadsTheByte : Obligations.LoadbReadsTheByte := by
  intro rd ra s hd ha
  refine ⟨encode_of_packRegs (Bool.and_eq_true_iff.mpr ⟨hd, ha⟩) rfl rfl, fun pa hva hpa => ?_,
    accessStops_of_perform (by rw [exec, execLoadb]) fun e he => ?_⟩
  · refine ⟨_, exec_loadb_ok (memReadByte_ok.mpr ⟨pa, hva, hpa, rfl⟩), ?_, keeps_setReg s rd _,
      keepsBytes_of_mem_eq (State.setReg_mem s rd _)⟩
    rw [State.reg_setReg_same]
    exact BitVec.toNat_setWidth_of_le (by decide)
  · rw [memReadByte_error he]

/-- Settles O29: STOREB is a write of the register's low byte and nothing more, and stops where the write does. -/
theorem storebWritesTheByte : Obligations.StorebWritesTheByte := by
  intro ra rs s ha hs
  refine ⟨encode_of_packRegs (Bool.and_eq_true_iff.mpr ⟨ha, hs⟩) rfl rfl, fun pa hva hpa => ?_,
    accessStops_of_perform (by rw [exec, execStoreb]) fun e he => ?_⟩
  · refine ⟨_, exec_storeb_ok (memWriteByte_ok.mpr ⟨pa, hva, hpa, rfl⟩), ?_, keeps_withMem s _,
      keepsBytes_of_mem_eq_writeByte rfl⟩
    rw [Memory.readByte_writeByte, if_pos rfl, BitVec.extractLsb'_toNat, Nat.shiftRight_zero]
  · exact memWriteByte_error he

/-! ## The stack (R180, R181) -/

/-- Settles O32: PUSH is the shared push of its register, and stops where the push does. -/
theorem pushWritesAtTheStackPointer : Obligations.PushWritesAtTheStackPointer := by
  intro rs s hs
  refine ⟨encode_of_packReg hs rfl rfl, fun pa hva hpa => ?_,
    accessStops_of_perform (by rw [exec, execPush]) fun e he => ?_⟩
  · refine ⟨_, exec_push_ok (pushWord_ok.mpr ⟨pa, hva, hpa, rfl⟩), ?_, rfl, (keeps_withMem s _).trans (keeps_withSp _ _),
      keepsBytes_of_mem_eq_writeWord rfl⟩
    rw [Memory.readWord_writeWord, if_pos rfl]
  · exact pushWord_error he

/-- Settles O33: POP is the shared pop into its register, which is not SP, and stops where the pop does. -/
theorem popReadsBelowTheStackPointer : Obligations.PopReadsBelowTheStackPointer := by
  intro rd s hd
  have hsp : Reg.sp ≠ rd := by rintro rfl; cases hd
  refine ⟨encode_of_packReg hd rfl rfl, fun pa hva hpa => ?_,
    accessStops_of_perform (by rw [exec, execPop]) fun e he => ?_⟩
  · exact ⟨_, exec_pop_ok (popWord_ok.mpr ⟨pa, hva, hpa, rfl, rfl⟩), State.reg_setReg_same _ rd _,
      State.reg_setReg_ne _ _ hsp, (keeps_withSp s _).trans (keeps_setReg _ rd _),
      keepsBytes_of_mem_eq (State.setReg_mem _ rd _)⟩
  · rw [popWord_error he]

/-! ## Register and constant moves (R178, R179) -/

/-- Settles O30: MOV is one register write, and PC, PTBR and FR lie outside the class of both its fields. -/
theorem movCopiesTheRegister : Obligations.MovCopiesTheRegister := by
  intro xd xs s
  refine ⟨fun hd hs => ⟨encode_of_packRegs (Bool.and_eq_true_iff.mpr ⟨hd, hs⟩) rfl rfl, _, rfl,
    State.reg_setReg_same s xd _, keeps_setReg s xd _, keepsBytes_of_mem_eq (State.setReg_mem s xd _)⟩, fun hout => if_neg ?_⟩
  obtain rfl | rfl | rfl | rfl | rfl | rfl := hout
  all_goals simp [Instr.wellFormed, Reg.isGprSp]

/-- Settles O31: MOVD is one write of the zero-extended constant. -/
theorem movdLoadsTheConstant : Obligations.MovdLoadsTheConstant := by
  intro rd value s hd
  refine ⟨encode_of_packRegImm hd rfl rfl, _, rfl, ?_, keeps_setReg s rd _, keepsBytes_of_mem_eq (State.setReg_mem s rd _)⟩
  rw [State.reg_setReg_same, toNat_zext19]

end Sys2Proof.Machine

/-! # The machine-state family (spec/44_machine_state.md) -/

namespace Sys2Proof.Machine

/-! ## What a mode switch keeps -/

theorem keeps_withPc (s : State) (v : Word) : Keeps s { s with pc := v } [.pc] :=
  ⟨fun _ hr => State.reg_withPc s v (List.ne_of_not_mem_cons hr), rfl, rfl, rfl⟩

theorem keeps_setMode (s : State) (b : Bool) : Keeps s (s.setMode b) [.fr] :=
  ⟨fun _ hr => State.reg_setMode s b (List.ne_of_not_mem_cons hr), rfl, rfl, rfl⟩

/-- RAM, `pc`, `sp` and the mode written, whatever their values: no other register changes. -/
theorem keeps_modeSwitch (s : State) (m : Memory) (pc sp : Word) (b : Bool) :
    Keeps s ({ s with mem := m, pc := pc, sp := sp }.setMode b) [.pc, .sp, .fr] :=
  (((keeps_withMem s m).trans (keeps_withPc _ pc)).trans (keeps_withSp _ sp)).trans (keeps_setMode _ b)

/-- The mode is bit 2 of FR, and setting it leaves the other bits (spec/10_state.md R26, R30). -/
theorem getLsbD_setMode_fr (s : State) (b : Bool) (k : Nat) :
    (s.setMode b).fr.getLsbD k = if k = 2 then b else s.fr.getLsbD k :=
  getLsbD_putBit s.fr modeBit b (by decide) k

/-- Words stored leave every byte outside those words. -/
theorem keepsBytes_of_mem_eq_writeWords {s t : State} {cells : List (Nat × Word)} (h : t.mem = s.mem.writeWords cells) :
    KeepsBytes s t (wordsBytes (cells.map Prod.fst)) := by
  intro a ha
  rw [h]
  exact Memory.readByte_writeWords s.mem cells fun p hp hpa => ha ⟨p.1, List.mem_map_of_mem hp, hpa⟩

/-! ## The instructions in the mode they switch from (R201) -/

/-- ENTER in real mode, as one update of the state: the slots it writes and the slots it reads are different words. -/
theorem exec_enter_real {s : State} (hv : s.isVirtual = false) :
    exec .enter s = .next ({ s with mem := s.mem.writeWords [(realPcSlot, s.pc), (realSpSlot, s.sp)]
                                    pc := s.mem.readWord virtPcSlot
                                    sp := s.mem.readWord virtSpSlot }.setMode true) := by
  rw [exec, execEnter, if_neg (Bool.eq_false_iff.mp hv)]
  exact perform_ok (congrArg orFault (enterVirtual_eq s))

/-- EXIT in virtual mode, as one update of the state. -/
theorem exec_exit_virtual {s : State} (hv : s.isVirtual = true) :
    exec .exit s =
      .next ({ s with pc := s.mem.readWord realPcSlot, sp := s.mem.readWord realSpSlot }.setMode false) := by
  rw [exec, execExit, if_pos hv]
  exact perform_ok (congrArg orFault (leaveVirtual_eq s))

theorem exec_halt_virtual {s : State} (hv : s.isVirtual = true) : exec .halt s = exec .exit s := by
  rw [exec, exec, execHalt, execExit, if_pos hv, if_pos hv]

theorem exec_halt_real {s : State} (hv : s.isVirtual = false) : exec .halt s = .next { s with halted := true } := by
  rw [exec, execHalt, if_neg (Bool.eq_false_iff.mp hv)]
  rfl

/-! ## ENTER, EXIT and HALT (R203 to R205) -/

/-- Settles O38: ENTER traps in virtual mode, and in real mode its two writes go to different words, so both are read back. -/
theorem enterSwitchesToVirtualMode : Obligations.EnterSwitchesToVirtualMode := by
  intro s
  refine ⟨by decide, fun hv => ?_, fun hv => ?_⟩
  · rw [exec, execEnter, if_pos hv]
    rfl
  · have hslots : [(realPcSlot, s.pc), (realSpSlot, s.sp)].Pairwise (fun p q => p.1 / 4 ≠ q.1 / 4) := by
      simp [realPcSlot, realSpSlot]
    have hsaved := fun p => Memory.readWord_writeWords_of_mem s.mem _ hslots (p := p)
    exact ⟨_, exec_enter_real hv, hsaved (realPcSlot, s.pc) (by simp), hsaved (realSpSlot, s.sp) (by simp), rfl, rfl,
      getLsbD_setMode_fr _ true, keeps_modeSwitch s _ _ _ true,
      keepsBytes_of_mem_eq_writeWords (cells := [(realPcSlot, s.pc), (realSpSlot, s.sp)]) rfl⟩

/-- Settles O39: EXIT traps in real mode, and in virtual mode reads the real slots and stores nothing. -/
theorem exitReturnsToRealMode : Obligations.ExitReturnsToRealMode := by
  intro s
  refine ⟨by decide, fun hv => ?_, fun hv => ?_⟩
  · rw [exec, execExit, if_neg (Bool.eq_false_iff.mp hv)]
    rfl
  · exact ⟨_, exec_exit_virtual hv, rfl, rfl, getLsbD_setMode_fr _ false, keeps_modeSwitch s s.mem _ _ false,
      keepsBytes_of_mem_eq rfl⟩

/-- Settles O40: in virtual mode HALT runs as EXIT does, so what it leaves is what EXIT leaves. -/
theorem haltLeavesOrStops : Obligations.HaltLeavesOrStops := by
  intro s
  refine ⟨by decide, fun hv => ⟨exec_halt_virtual hv, ?_⟩, fun hv => ⟨exec_halt_real hv, rfl⟩⟩
  rw [exec_halt_virtual hv]
  obtain ⟨_, _, hexit⟩ := exitReturnsToRealMode s
  exact hexit hv

end Sys2Proof.Machine

/-! # The return from an interrupt (spec/60_exceptions.md) -/

namespace Sys2Proof.Machine

/-! ## The general registers written together -/

theorem keeps_withFr (s : State) (v : Word) : Keeps s { s with fr := v } [.fr] :=
  ⟨fun _ hr => State.reg_withFr s v (List.ne_of_not_mem_cons hr), rfl, rfl, rfl⟩

/-- Writes to registers of `rs`, in any order, keep the others. -/
theorem keeps_foldl_setReg {rs : List Reg} {cells : List (Reg × Word)} (h : ∀ p ∈ cells, p.1 ∈ rs) (s : State) :
    Keeps s (cells.foldl (fun t p => t.setReg p.1 p.2) s) rs := by
  induction cells generalizing s with
  | nil => exact ⟨fun _ _ => rfl, rfl, rfl, rfl⟩
  | cons p cells ih =>
    obtain ⟨hp, hcells⟩ := List.forall_mem_cons.mp h
    obtain ⟨hreg, hrest⟩ := (keeps_setReg s p.1 p.2).trans (ih hcells (s.setReg p.1 p.2))
    refine ⟨fun r hr => hreg r (mt List.mem_cons.mp (not_or.mpr ⟨?_, hr⟩)), hrest⟩
    rintro rfl
    exact hr hp

theorem keeps_setGprs (s : State) (ws : List Word) : Keeps s (s.setGprs ws) [.r0, .r1, .r2, .r3, .r4, .r5, .r6, .r7] :=
  keeps_foldl_setReg (fun _ hp => (List.of_mem_zip hp).1) s

/-- R0 to R7, RAM, `sp`, FR and `pc` written, whatever their values: no other register changes. -/
theorem keeps_frameReturn (s : State) (ws : List Word) (m : Memory) (sp fr pc : Word) :
    Keeps s { s.setGprs ws with mem := m, sp := sp, fr := fr, pc := pc }
      [.r0, .r1, .r2, .r3, .r4, .r5, .r6, .r7, .sp, .fr, .pc] :=
  ((((keeps_setGprs s ws).trans (keeps_withMem _ m)).trans (keeps_withSp _ sp)).trans (keeps_withFr _ fr)).trans
    (keeps_withPc _ pc)

/-- The words written to R0 to R7 are there, whatever else the return writes. -/
theorem gprs_frameReturn (s : State) {ws : List Word} (h : ws.length = 8) (m : Memory) (sp fr pc : Word) :
    State.gprs { s.setGprs ws with mem := m, sp := sp, fr := fr, pc := pc } = ws := by
  match ws, h with
  | [_, _, _, _, _, _, _, _], _ => rfl

theorem readWord_of_mem_eq_writeWord {s t : State} {pa : Nat} {v : Word} (h : t.mem = s.mem.writeWord pa v) :
    t.mem.readWord pa = v := by
  rw [h, Memory.readWord_writeWord, if_pos rfl]

/-! ## POPINT in real mode (spec/43_memory_ops.md R184) -/

theorem map_toNat_wordsFrom {base : Word} {n : Nat} {pa : Nat → Nat}
    (h : ∀ k, k < n → pa k = (base + BitVec.ofNat 32 (4 * k)).toNat) :
    (wordsFrom base n).map BitVec.toNat = (List.range n).map pa := by
  rw [wordsFrom, List.map_map]
  exact List.map_congr_left fun k hk => (h k (List.mem_range.mp hk)).symm

section
variable {s : State} {pa : Nat → Nat} (hv : s.isVirtual = false)
  (haddr : ∀ k, k < 10 → pa k = (s.sp - 40#32 + BitVec.ofNat 32 (4 * k)).toNat)
include hv haddr

/-- POPINT with its frame in RAM, as one update of the state: the two slots it uses are different words. -/
theorem exec_popint_real (hin : ∀ k, k < 10 → pa k < ramSize) :
    exec .popint s = .next
      { s.setGprs ((List.range 8).map fun k => s.mem.readWord (pa k)) with
        mem := if (s.mem.readWord (pa 8)).getLsbD modeBit then s.mem.writeWord realSpSlot (s.sp - 40#32) else s.mem
        sp := if (s.mem.readWord (pa 8)).getLsbD modeBit then s.mem.readWord virtSpSlot else s.sp - 40#32
        fr := s.mem.readWord (pa 8)
        pc := s.mem.readWord (pa 9) } := by
  have hread : physReadWords ((List.range 10).map pa) s = .ok (((List.range 10).map pa).map s.mem.readWord) :=
    physReadWords_ok.mpr ⟨List.forall_mem_map.mpr fun k hk => hin k (List.mem_range.mp hk), rfl⟩
  have hfr : (((List.range 10).map pa).map s.mem.readWord).getD 8 0#32 = s.mem.readWord (pa 8) := rfl
  rw [exec, execPopint, if_neg (Bool.eq_false_iff.mp hv)]
  refine perform_ok ?_
  rw [popFrame_real hv, map_toNat_wordsFrom haddr, hread]
  simp only [hfr]
  split_ifs <;> rfl

theorem exec_popint_real_outOfRange (hout : ∃ k, k < 10 ∧ ramSize ≤ pa k) : exec .popint s = .fault .outOfRange := by
  obtain ⟨k, hk, hpa⟩ := hout
  rw [exec, execPopint, if_neg (Bool.eq_false_iff.mp hv)]
  refine perform_fault ?_
  rw [popFrame_real hv, map_toNat_wordsFrom haddr,
    physReadWords_error.mpr ⟨⟨pa k, List.mem_map_of_mem (List.mem_range.mpr hk), hpa⟩, rfl⟩]

end

/-- Settles O36: POPINT traps in virtual mode, and in real mode is a read of the ten words, which decides whether it
completes, then the update of the state that the saved M selects. -/
theorem popintRestoresTheFrame : Obligations.PopintRestoresTheFrame := by
  intro s
  refine ⟨by decide, fun hv => if_pos hv, fun hv pa haddr => ⟨fun hin => ?_, exec_popint_real_outOfRange hv haddr⟩⟩
  refine ⟨_, exec_popint_real hv haddr hin, fun k hk => ?_, rfl, rfl, keeps_frameReturn s _ _ _ _ _, ?_⟩
  · rw [gprs_frameReturn s (by simp)]
    simp [hk]
  · by_cases hm : (s.mem.readWord (pa 8)).getLsbD 2 = true
    · rw [if_pos hm]
      exact ⟨readWord_of_mem_eq_writeWord (if_pos hm), if_pos hm, keepsBytes_of_mem_eq_writeWord (if_pos hm)⟩
    · rw [if_neg hm]
      exact ⟨if_neg hm, keepsBytes_of_mem_eq (if_neg hm)⟩

end Sys2Proof.Machine

/-! # Reset and contexts (spec/70_reset_and_hazards.md) -/

namespace Sys2Proof.Machine

/-! ## Reset (R260) -/

/-- Real mode is read from bit 2 of FR, so a clear FR means real mode (R26, R30). -/
theorem State.isVirtual_eq_false_of_fr_eq_zero {s : State} (hfr : s.fr = 0#32) : s.isVirtual = false := by
  rw [State.isVirtual_eq, hfr, BitVec.getLsbD_zero]

theorem State.reset_fr : State.reset.fr = 0#32 := rfl

/-- Settles O49: reset clears FR, which makes the mode real, and gives `pc`, `halted` and `irq` their values. -/
theorem resetStartsInRealMode : Obligations.ResetStartsInRealMode :=
  ⟨State.reset_fr, State.isVirtual_eq_false_of_fr_eq_zero State.reset_fr, rfl, rfl, rfl⟩

/-! ## Contexts (R271) -/

@[simp] theorem storeContext_loadContext (c : Context) (s : State) : storeContext (loadContext c s) = c := rfl

@[simp] theorem loadContext_storeContext (s : State) : loadContext (storeContext s) s = s := rfl

@[simp] theorem loadContext_mem (c : Context) (s : State) : (loadContext c s).mem = s.mem := rfl

@[simp] theorem loadContext_halted (c : Context) (s : State) : (loadContext c s).halted = s.halted := rfl

@[simp] theorem loadContext_irq (c : Context) (s : State) : (loadContext c s).irq = s.irq := rfl

/-- Settles O56: load and store are inverse on the twelve registers, and a load touches no other part of the machine. -/
theorem contextLoadIsVerbatim : Obligations.ContextLoadIsVerbatim := fun c s =>
  ⟨storeContext_loadContext c s, loadContext_storeContext s, loadContext_mem c s, loadContext_halted c s, loadContext_irq c s⟩

end Sys2Proof.Machine

/-! # Decoding and encoding are inverse (spec/30_encoding.md) -/

namespace Sys2Proof

/-! ## The decoder on each packed format (R93 to R97, R109) -/

section
variable {op : BitVec 8}

theorem decode_packBare {i : Instr} (h : layoutOf op = some (.bare i)) : decode (packBare op) = .ok i := by
  rw [decode_of_layoutOf_some (by rw [opField_packBare, h])]
  exact if_pos (imm24Field_packBare op)

theorem decode_packReg {f : Reg → Instr} (h : layoutOf op = some (.oneReg f)) {r : Reg} (hr : r.isGpr = true) :
    decode (packReg op r) = .ok (f r) := by
  rw [decode_of_layoutOf_some (by rw [opField_packReg, h])]
  simp [readFields, r1Field_packReg, gprField_codeOfReg hr, imm19Field_packReg]

theorem decode_packRegs {f : Reg → Reg → Instr} (h : layoutOf op = some (.twoRegs f)) {r q : Reg}
    (hrq : (r.isGpr && q.isGpr) = true) : decode (packRegs op r q) = .ok (f r q) := by
  obtain ⟨hr, hq⟩ := Bool.and_eq_true_iff.mp hrq
  rw [decode_of_layoutOf_some (by rw [opField_packRegs, h])]
  simp [readFields, r1Field_packRegs, r2Field_packRegs, gprField_codeOfReg hr, gprField_codeOfReg hq, low14Field_packRegs]

theorem decode_packRegsSp {f : Reg → Reg → Instr} (h : layoutOf op = some (.twoRegsSp f)) {r q : Reg}
    (hrq : (r.isGprSp && q.isGprSp) = true) : decode (packRegs op r q) = .ok (f r q) := by
  obtain ⟨hr, hq⟩ := Bool.and_eq_true_iff.mp hrq
  rw [decode_of_layoutOf_some (by rw [opField_packRegs, h])]
  simp [readFields, r1Field_packRegs, r2Field_packRegs, gprSpField_codeOfReg hr, gprSpField_codeOfReg hq,
    low14Field_packRegs]

theorem decode_packImm {f : BitVec 24 → Instr} (h : layoutOf op = some (.imm f)) (v : BitVec 24) :
    decode (packImm op v) = .ok (f v) := by
  rw [decode_of_layoutOf_some (by rw [opField_packImm, h]), readFields, imm24Field_packImm]

theorem decode_packRegImm {f : Reg → BitVec 19 → Instr} (h : layoutOf op = some (.regImm f)) {r : Reg}
    (hr : r.isGpr = true) (v : BitVec 19) : decode (packRegImm op r v) = .ok (f r v) := by
  rw [decode_of_layoutOf_some (by rw [opField_packRegImm, h])]
  simp [readFields, r1Field_packRegImm, gprField_codeOfReg hr, imm19Field_packRegImm]

end

/-- The word of a well-formed instruction decodes to it: the map gives its opcode byte the layout it is packed by. -/
theorem decode_encodeWord {i : Instr} (h : i.wellFormed = true) : decode (encodeWord i) = .ok i := by
  cases i with
  | ret | pushall | popall | popint | enter | exit | halt => exact decode_packBare rfl
  | neg | push | pop => exact decode_packReg rfl h
  | add | sub | mul | div | cmp | and | or | xor | load | store | loadb | storeb => exact decode_packRegs rfl h
  | mov => exact decode_packRegsSp rfl h
  | jmp | jc | je | jne | jnc | jl | jm | call | int => exact decode_packImm rfl _
  | loop | movd => exact decode_packRegImm rfl h _

/-! ## The encoder on each row of the map (R98, R101, R109) -/

/-- What a layout builds is packed by that layout under the opcode byte, and is well formed where its registers are in
their class. -/
def Layout.Encodes (op : BitVec 8) : Layout → Prop
  | .bare i => i.wellFormed = true ∧ encodeWord i = packBare op
  | .oneReg f => ∀ r, (f r).wellFormed = r.isGpr ∧ encodeWord (f r) = packReg op r
  | .twoRegs f => ∀ r q, (f r q).wellFormed = (r.isGpr && q.isGpr) ∧ encodeWord (f r q) = packRegs op r q
  | .twoRegsSp f => ∀ r q, (f r q).wellFormed = (r.isGprSp && q.isGprSp) ∧ encodeWord (f r q) = packRegs op r q
  | .imm f => ∀ v, (f v).wellFormed = true ∧ encodeWord (f v) = packImm op v
  | .regImm f => ∀ r v, (f r v).wellFormed = r.isGpr ∧ encodeWord (f r v) = packRegImm op r v

/-- Row by row, the encoder's opcode byte, format and classes are the map's. -/
theorem encodes_of_mem_opcodeMap : ∀ p ∈ opcodeMap, p.2.Encodes p.1 := by
  simp only [opcodeMap, arithmeticRows, logicalRows, controlFlowRows, memoryRows, machineStateRows, List.forall_mem_append,
    List.forall_mem_cons, List.not_mem_nil, false_implies, implies_true, and_true, Layout.Encodes]
  -- One goal per row is left, and each holds by evaluation at operands that are variables.
  and_intros <;> intros <;> and_intros <;> rfl

/-- What a layout reads is well formed, and the word is the packing of its fields, the reserved bits being zero. -/
theorem Layout.Encodes.of_readFields_ok {l : Layout} {w : Word} {i : Instr} (hl : l.Encodes (opField w))
    (h : readFields l w = .ok i) : i.wellFormed = true ∧ encodeWord i = w := by
  have hok := readFields_ok h
  cases l with
  | bare j =>
    obtain ⟨rfl, h0⟩ := hok
    obtain ⟨hwf, hpack⟩ := hl
    exact ⟨hwf, by rw [hpack, packBare, ← h0, word_bare]⟩
  | oneReg f =>
    obtain ⟨r, hr, h1, h0, rfl⟩ := hok
    obtain ⟨hwf, hpack⟩ := hl r
    exact ⟨hwf.trans hr, by rw [hpack, packReg, ← h1, ← h0, word_reg]⟩
  | twoRegs f =>
    obtain ⟨r, q, hr, hq, h1, h2, h0, rfl⟩ := hok
    obtain ⟨hwf, hpack⟩ := hl r q
    exact ⟨hwf.trans (Bool.and_eq_true_iff.mpr ⟨hr, hq⟩), by rw [hpack, packRegs, ← h1, ← h2, ← h0, word_regs]⟩
  | twoRegsSp f =>
    obtain ⟨r, q, hr, hq, h1, h2, h0, rfl⟩ := hok
    obtain ⟨hwf, hpack⟩ := hl r q
    exact ⟨hwf.trans (Bool.and_eq_true_iff.mpr ⟨hr, hq⟩), by rw [hpack, packRegs, ← h1, ← h2, ← h0, word_regs]⟩
  | imm f =>
    cases hok
    obtain ⟨hwf, hpack⟩ := hl (imm24Field w)
    exact ⟨hwf, by rw [hpack, packImm, word_bare]⟩
  | regImm f =>
    obtain ⟨r, hr, h1, rfl⟩ := hok
    obtain ⟨hwf, hpack⟩ := hl r (imm19Field w)
    exact ⟨hwf.trans hr, by rw [hpack, packRegImm, ← h1, word_reg]⟩

/-- A legal word is the word of the well-formed instruction it decodes to. -/
theorem wellFormed_encodeWord_of_decode_ok {w : Word} {i : Instr} (h : decode w = .ok i) :
    i.wellFormed = true ∧ encodeWord i = w := by
  obtain ⟨l, hmem, hread⟩ := decode_ok h
  exact (encodes_of_mem_opcodeMap _ hmem).of_readFields_ok hread

theorem wellFormed_of_decode_ok {w : Word} {i : Instr} (h : decode w = .ok i) : i.wellFormed = true :=
  (wellFormed_encodeWord_of_decode_ok h).1

/-- A legal word is the encoding of what it decodes to. -/
theorem encode_of_decode_ok {w : Word} {i : Instr} (h : decode w = .ok i) : encode i = some w := by
  obtain ⟨hwf, hword⟩ := wellFormed_encodeWord_of_decode_ok h
  rw [encode, if_pos hwf, hword]

/-- Settles O1: the packing of an instruction is read back field by field, and a word whose reserved bits are zero is the
packing of the fields it holds. -/
theorem encodeAndDecodeAreInverse : Obligations.EncodeAndDecodeAreInverse :=
  ⟨fun i hi => ⟨encodeWord i, if_pos hi, decode_encodeWord hi⟩, fun _ hi => if_neg (Bool.eq_false_iff.mp hi),
    fun _ _ => encode_of_decode_ok⟩

/-- Settles O4: every row of the map reads its register fields in the classes of its instruction. -/
theorem decodedInstructionsAreWellFormed : Obligations.DecodedInstructionsAreWellFormed :=
  fun _ _ => wellFormed_of_decode_ok

/-- Settles O5: the decoder evaluated on each of the seven words. -/
theorem printedWordsDecode : Obligations.PrintedWordsDecode := by
  unfold Obligations.PrintedWordsDecode
  decide

/-! ## The words the decoder refuses (R104) -/

/-- The family of a word is the high half of its opcode byte (R92). -/
theorem toNat_familyBits (w : Word) : (w.extractLsb' 28 4).toNat = (opField w).toNat / 16 := by
  simp only [opField, BitVec.extractLsb'_toNat, Nat.shiftRight_eq_div_pow]
  omega

/-- Every row of the printed map lies in a family from 1 to 5. -/
theorem family_of_mem_opcodeTable : ∀ row ∈ opcodeTable, 1 ≤ row.op.toNat / 16 ∧ row.op.toNat / 16 ≤ 5 := by decide

/-- The printed map has one row for an opcode byte. -/
theorem eq_of_op_eq_of_mem_opcodeTable :
    ∀ row ∈ opcodeTable, ∀ row' ∈ opcodeTable, row.op = row'.op → row = row' := by decide +kernel

/-- R104 (c): a register field of the row's format holds a code outside its class, which for MOV's two fields ends at 8. -/
def TableRow.BadRegister (row : TableRow) (w : Word) : Prop :=
  ((row.format = .r ∨ row.format = .rr ∨ row.format = .ri) ∧ (if row.mnemonic = "MOV" then 9 else 8) ≤ (r1Field w).toNat) ∨
    (row.format = .rr ∧ (if row.mnemonic = "MOV" then 9 else 8) ≤ (r2Field w).toNat)

/-- R104 (d): a reserved bit of the row's format is 1. -/
def TableRow.ReservedBit (row : TableRow) (w : Word) : Prop :=
  (row.format = .n ∧ imm24Field w ≠ 0#24) ∨ (row.format = .r ∧ imm19Field w ≠ 0#19) ∨
    (row.format = .rr ∧ low14Field w ≠ 0#14)

/-- The fields a layout refuses are those of cases (c) and (d) in the row that prints it. -/
theorem TableRow.Prints.not_accepts_iff {row : TableRow} {op : BitVec 8} {l : Layout} (h : TableRow.Prints row op l) (w : Word) :
    ¬ l.Accepts w ↔ row.BadRegister w ∨ row.ReservedBit w := by
  obtain ⟨-, hformat, -, -, hmov, -⟩ := h
  rw [TableRow.BadRegister, TableRow.ReservedBit, hformat]
  cases l <;> simp only [Layout.isMov, iff_false, iff_true] at hmov <;>
    simp [Layout.Accepts, Layout.format, hmov, imp_iff_not_or, or_assoc]

/-- A word is refused where the map has no row for its opcode byte, or where its row refuses a field. -/
theorem decode_isError_iff_row (w : Word) :
    (∃ e, decode w = .error e) ↔ (∀ row ∈ opcodeTable, row.op ≠ opField w) ∨
      ∃ row ∈ opcodeTable, row.op = opField w ∧ (row.BadRegister w ∨ row.ReservedBit w) := by
  have hrel : Option.Rel _ (layoutOf (opField w)) _ := sameRows_opcodeMap.lookup_rel_find? (opField w)
  generalize hlayout : layoutOf (opField w) = layout,
    hfind : opcodeTable.find? (fun row => row.op == opField w) = printed at hrel
  cases hrel with
  | none =>
    have hnone : ∀ row ∈ opcodeTable, row.op ≠ opField w := by simpa using hfind
    exact iff_of_true ⟨_, decode_of_layoutOf_none hlayout⟩ (.inl hnone)
  | @some l row hprints =>
    have hmem : row ∈ opcodeTable := List.mem_of_find?_eq_some hfind
    have hop : row.op = opField w := hprints.1
    rw [decode_of_layoutOf_some hlayout, readFields_isError_iff, hprints.not_accepts_iff]
    refine ⟨fun h => .inr ⟨row, hmem, hop, h⟩, ?_⟩
    rintro (hnone | ⟨row', hmem', hop', h⟩)
    · exact absurd hop (hnone row hmem)
    · rwa [eq_of_op_eq_of_mem_opcodeTable row hmem row' hmem' (hop.trans hop'.symm)]

/-- The same in the numbers of R104: an opcode byte without a row has no family (a), or a family that has no such index (b). -/
theorem decode_isError_iff (w : Word) :
    (∃ e, decode w = .error e) ↔
      ((w.extractLsb' 28 4).toNat = 0 ∨ 6 ≤ (w.extractLsb' 28 4).toNat) ∨
      ((1 ≤ (w.extractLsb' 28 4).toNat ∧ (w.extractLsb' 28 4).toNat ≤ 5) ∧ ∀ row ∈ opcodeTable, row.op ≠ opField w) ∨
      (∃ row ∈ opcodeTable, row.op = opField w ∧ row.BadRegister w) ∨
      (∃ row ∈ opcodeTable, row.op = opField w ∧ row.ReservedBit w) := by
  have hfamily : (∃ row ∈ opcodeTable, row.op = opField w) →
      1 ≤ (w.extractLsb' 28 4).toNat ∧ (w.extractLsb' 28 4).toNat ≤ 5 := by
    rintro ⟨row, hmem, hop⟩
    rw [toNat_familyBits, ← hop]
    exact family_of_mem_opcodeTable row hmem
  rw [decode_isError_iff_row]
  constructor
  · rintro (hnone | ⟨row, hmem, hop, h | h⟩)
    · by_cases hf : 1 ≤ (w.extractLsb' 28 4).toNat ∧ (w.extractLsb' 28 4).toNat ≤ 5
      · exact .inr (.inl ⟨hf, hnone⟩)
      · exact .inl (by omega)
    · exact .inr (.inr (.inl ⟨row, hmem, hop, h⟩))
    · exact .inr (.inr (.inr ⟨row, hmem, hop, h⟩))
  · rintro (hf | ⟨-, hnone⟩ | ⟨row, hmem, hop, h⟩ | ⟨row, hmem, hop, h⟩)
    · refine .inl fun row hmem hop => ?_
      obtain ⟨h1, h5⟩ := hfamily ⟨row, hmem, hop⟩
      omega
    · exact .inl hnone
    · exact .inr ⟨row, hmem, hop, .inl h⟩
    · exact .inr ⟨row, hmem, hop, .inr h⟩

end Sys2Proof

/-! # The step (spec/60_exceptions.md) -/

namespace Sys2Proof.Machine

/-! ## What a step does in each case of the sequence (R222, R229) -/

section
variable {s : State}

theorem step_of_halted (h : s.halted = true) : step s = .fault .halted := if_pos h

theorem step_of_pending (hh : s.halted = false) {code : Nat} {rest : List Nat} (hi : s.irq = code :: rest) :
    step s = interruptEntry code { s with irq := rest, raised := none } := by
  rw [step, cycle, if_neg (Bool.eq_false_iff.mp hh), hi]

theorem step_of_running (h : s.Running) : step s = fetchAndRun { s with raised := none } := by
  obtain ⟨hh, hi⟩ := h
  rw [step, cycle, if_neg (Bool.eq_false_iff.mp hh), hi]

theorem step_of_fetch_fault (h : s.Running) {f : Fault} (hf : fetchWord s = .error (.machineFault f)) : step s = .fault f := by
  rw [step_of_running h, fetchAndRun, fetchWord_withRaised, hf]

theorem step_of_fetch_interrupt (h : s.Running) {code : Nat} (hf : fetchWord s = .error (.interrupt code)) :
    step s = interruptEntry code { s with raised := none } := by
  rw [step_of_running h, fetchAndRun, fetchWord_withRaised, hf]

theorem step_of_fetch_ok (h : s.Running) {w : Word} (hf : fetchWord s = .ok w) : step s = runWord w s.fetched := by
  rw [step_of_running h, fetchAndRun, fetchWord_withRaised, hf]
  rfl

theorem step_of_invalid (h : s.Running) {w : Word} (hf : fetchWord s = .ok w) {e : DecodeError} (hd : decode w = .error e) :
    step s = interruptEntry 2 s.fetched := by
  rw [step_of_fetch_ok h hf, runWord, hd]
  rfl

theorem step_of_aboutToRun {i : Instr} (h : s.AboutToRun i) : step s = exec i s.fetched := by
  obtain ⟨hrun, w, hf, hd⟩ := h
  rw [step_of_fetch_ok hrun hf, runWord, hd]

end

/-- Settles O7: the step of a state that fetches a legal word. -/
theorem stepRunsTheDecodedInstruction : Obligations.StepRunsTheDecodedInstruction :=
  fun _ _ => step_of_aboutToRun

/-- Settles O8: the sequence of R222, one case of the step after the other. -/
theorem stepFollowsTheSequence : Obligations.StepFollowsTheSequence := by
  intro s
  by_cases hh : s.halted = true
  · rw [if_pos hh]
    exact step_of_halted hh
  rw [if_neg hh, ← ramSize_eq]
  have hh : s.halted = false := Bool.eq_false_iff.mpr hh
  cases hi : s.irq with
  | cons code rest => exact step_of_pending hh hi
  | nil =>
    have hrun : s.Running := ⟨hh, hi⟩
    cases ht : translate s.pc s with
    | error f => exact translate_error ht ▸ step_of_fetch_fault hrun (memReadWord_error (.walk ht))
    | ok r =>
      cases r with
      | pageFault =>
        dsimp only
        rw [← hi]
        exact step_of_fetch_interrupt hrun (memReadWord_error (.pageFault ht))
      | mapped pa =>
        dsimp only
        split_ifs with hpa
        · exact step_of_fetch_fault hrun (memReadWord_error (.beyondRam ht hpa))
        have hf : fetchWord s = .ok (s.mem.readWord pa) := memReadWord_ok.mpr ⟨pa, ht, Nat.lt_of_not_le hpa, rfl⟩
        rw [← hi]
        cases hd : decode (s.mem.readWord pa) with
        | error e => exact step_of_invalid hrun hf hd
        | ok i => exact step_of_aboutToRun ⟨hrun, _, hf, hd⟩

/-- Settles O11: a move of the host leaves a halted core halted unless it clears the flag, after which the oldest pending
code is taken. -/
theorem haltedCoreWaitsForTheHost : Obligations.HaltedCoreWaitsForTheHost := fun _ hh =>
  ⟨step_of_halted hh, fun _ => ⟨_, rfl, hh, rfl, step_of_halted hh⟩,
    ⟨_, rfl, rfl, fun _ _ hi => step_of_pending rfl hi⟩⟩

/-! ## Invalid opcodes (spec/30_encoding.md R104, R105) -/

theorem decode_zero : decode 0#32 = .error .noSuchFamily := by decide

theorem decode_ones : decode 0xFFFFFFFF#32 = .error .noSuchFamily := by decide

/-- Settles O6: neither word has a family, so fetching either is the step of an invalid word. -/
theorem zeroAndOnesAreInvalid : Obligations.ZeroAndOnesAreInvalid :=
  ⟨decode_zero, decode_ones, fun _ hrun hf =>
    hf.elim (step_of_invalid hrun · decode_zero) (step_of_invalid hrun · decode_ones)⟩

/-- Settles O3: a word is refused where no row has its opcode byte or where its row refuses a field, and a step that fetches
it is the step of an invalid word. -/
theorem invalidOpcodesAreTheFourCases : Obligations.InvalidOpcodesAreTheFourCases :=
  ⟨decode_isError_iff, fun _ _ _ hrun hf hd => step_of_invalid hrun hf hd⟩

end Sys2Proof.Machine

/-! # What every step and every move keeps (spec/10_state.md, spec/60_exceptions.md) -/

namespace Sys2Proof.Machine

/-! ## The inversion of a step -/

theorem pointerWord_of_lt {pa : Nat} (h : pa < 2 ^ 32) : pointerWord pa = BitVec.ofNat 32 pa := if_pos h

/-- In real mode step (a) puts back into R0 what stands there (R66). -/
theorem pointerWord_toNat (v : Word) : pointerWord v.toNat = v := by
  rw [pointerWord_of_lt v.isLt, BitVec.ofNat_toNat, BitVec.setWidth_eq]

/-- A completed entry, with the one register step (a) may have translated: R0, for code 4 from virtual mode (R231). -/
theorem interruptEntry_next_afterEntry {code : Nat} {s t : State} (h : interruptEntry code s = .next t) :
    ∃ (c : Nat) (w : Word), (c = code ∨ code = 4 ∧ c = 3) ∧ (code ≠ 4 ∨ s.isVirtual = false → w = s.r0) ∧ EntryFits c s ∧
      t = afterEntry c { s with r0 := w } := by
  obtain ⟨hfits, rfl⟩ | ⟨rfl, -, hfits, rfl⟩ | ⟨rfl, pa, hva, hfits, rfl⟩ := interruptEntry_next h
  · exact ⟨code, s.r0, .inl rfl, fun _ => rfl, hfits, rfl⟩
  · exact ⟨3, s.r0, .inr ⟨rfl, rfl⟩, fun _ => rfl, hfits, rfl⟩
  · refine ⟨4, pointerWord pa, .inl rfl, ?_, hfits, rfl⟩
    rintro (h4 | hv)
    · exact absurd rfl h4
    · rw [translate_real hv] at hva
      cases hva
      exact pointerWord_toNat s.r0

/-- `s` where steps (b) to (e) of an entry begin: whatever step (a) left in R0, and `pc` before the fetch or after it. -/
def State.entering (s : State) (r0 pc : Word) : State := { s with r0 := r0, pc := pc, irq := s.irq.tail, raised := none }

/-- `t` is `s` after the entry of code `c`. -/
def TookInterrupt (c : Nat) (s t : State) : Prop :=
  EntryFits c s ∧ ∃ r0 pc, t = afterEntry c (s.entering r0 pc)

theorem tookInterrupt_of_interruptEntry {code : Nat} {s t : State} {pc : Word} {q : List Nat} (hq : q = s.irq.tail)
    (h : interruptEntry code { s with pc := pc, irq := q, raised := none } = .next t) :
    ∃ c, (c = code ∨ code = 4 ∧ c = 3) ∧ TookInterrupt c s t := by
  obtain ⟨c, w, hc, -, hfits, rfl⟩ := interruptEntry_next_afterEntry h
  exact ⟨c, hc, hfits, w, pc, by rw [hq]; rfl⟩

/-- `t` is `s` after an instruction that `s` fetches has had its own effect. -/
def RanInstruction (i : Instr) (s t : State) : Prop :=
  s.AboutToRun i ∧ OwnEffect i s.fetched t

/-- Everything a step can have done: the entry of the oldest pending code, or, where none is pending, the entry of a code that
the fetch or the instruction raised, or an instruction's own effect. -/
theorem step_next_cases {s t : State} (h : step s = .next t) :
    (∃ code rest c, s.irq = code :: rest ∧ (c = code ∨ code = 4 ∧ c = 3) ∧ TookInterrupt c s t) ∨
      (s.irq = [] ∧ ∃ c, TookInterrupt c s t) ∨ ∃ i, RanInstruction i s t := by
  have raised {code : Nat} {pc : Word} (hi : s.irq = []) (h : interruptEntry code { s with pc := pc, raised := none } = .next t) :
      s.irq = [] ∧ ∃ c, TookInterrupt c s t := by
    obtain ⟨c, -, htook⟩ := tookInterrupt_of_interruptEntry (s := s) (q := s.irq) (by rw [hi]; rfl) h
    exact ⟨hi, c, htook⟩
  obtain ⟨-, ⟨code, rest, hi, h⟩ | ⟨hi, -, h⟩ | ⟨hi, h⟩ | ⟨i, hrun, h⟩⟩ := step_next h
  · obtain ⟨c, hc, htook⟩ := tookInterrupt_of_interruptEntry (s := s) (by rw [hi]; rfl) h
    exact .inl ⟨code, rest, c, hi, hc, htook⟩
  · exact .inr (.inl (raised hi h))
  · exact .inr (.inl (raised hi h))
  · obtain ⟨⟨-, hi⟩, w, -, hd⟩ := id hrun
    obtain ⟨code, h⟩ | heffect := exec_next (wellFormed_of_decode_ok hd) h
    · exact .inr (.inl (raised hi h))
    · exact .inr (.inr ⟨i, hrun, heffect⟩)

/-- The same without what was pending. -/
theorem step_next_took_or_ran {s t : State} (h : step s = .next t) : (∃ c, TookInterrupt c s t) ∨ ∃ i, RanInstruction i s t := by
  obtain ⟨_, _, c, -, -, htook⟩ | ⟨-, c, htook⟩ | hran := step_next_cases h
  · exact .inl ⟨c, htook⟩
  · exact .inl ⟨c, htook⟩
  · exact .inr hran

/-! ## What an entry leaves (R230 to R234) -/

namespace TookInterrupt
variable {c : Nat} {s t : State} (h : TookInterrupt c s t)
include h

theorem irq : t.irq = s.irq.tail := by obtain ⟨-, r0, pc, rfl⟩ := h; rfl

theorem raised : t.raised = some c := by obtain ⟨-, r0, pc, rfl⟩ := h; rfl

theorem halted : t.halted = s.halted := by obtain ⟨-, r0, pc, rfl⟩ := h; rfl

theorem ptbr : t.ptbr = s.ptbr := by obtain ⟨-, r0, pc, rfl⟩ := h; rfl

theorem isVirtual : t.isVirtual = false := by obtain ⟨-, r0, pc, rfl⟩ := h; exact afterEntry_isVirtual c _

/-- The vector is the word at `4 * c`, inside RAM (R234). -/
theorem vector : 4 * c < 2 ^ 30 ∧ t.pc = t.mem.readWord (4 * c) := by
  obtain ⟨⟨-, hvector⟩, r0, pc, rfl⟩ := h
  refine ⟨hvector, ?_⟩
  rw [← Nat.zero_add (4 * c)]
  rfl

/-- Of FR only M changes (R234). -/
theorem getLsbD_fr {k : Nat} (hk : k ≠ 2) : t.fr.getLsbD k = s.fr.getLsbD k := by
  obtain ⟨-, r0, pc, rfl⟩ := h
  exact (getLsbD_setMode_fr s false k).trans (if_neg hk)

/-- Only the entry's own bytes change (R232, R233). -/
theorem keepsBytes : KeepsBytes s t (entryBytes s) := by
  obtain ⟨-, r0, pc, rfl⟩ := h
  exact fun a => readByte_memAfterFrame (s.entering r0 pc)

theorem inv (hs : s.Inv) : t.Inv := by
  obtain ⟨⟨hframe, -⟩, r0, pc, rfl⟩ := h
  obtain ⟨hwf, hram⟩ := hs
  exact ⟨wf_memAfterFrame (s := s.entering r0 pc) hwf, mem_memAfterFrame (s := s.entering r0 pc) hram hframe⟩

end TookInterrupt

/-! ## What an instruction leaves of the rest of the machine -/

namespace RanInstruction
variable {i : Instr} {s t : State} (h : RanInstruction i s t)
include h

theorem raised : t.raised = none := h.2.raised

theorem irq : s.irq = [] ∧ t.irq = [] := by
  obtain ⟨⟨⟨-, hi⟩, -⟩, heffect⟩ := h
  exact ⟨hi, heffect.irq.trans hi⟩

theorem halted : t.halted = true → i = .halt ∧ s.isVirtual = false := by
  obtain ⟨⟨⟨hh, -⟩, -⟩, heffect⟩ := h
  intro ht
  obtain heq | hhalt := heffect.halted
  · exact nomatch (ht.symm.trans heq).trans hh
  · exact hhalt

end RanInstruction

/-! ## The canonical form of RAM (spec/20_memory.md R51) -/

/-- RAM of a state with the invariant, after words stored inside RAM. -/
theorem State.Inv.writeWords {s : State} (hs : s.Inv) {cells : List (Nat × Word)} (h : ∀ p ∈ cells, p.1 < ramSize) :
    (s.mem.writeWords cells).wf ∧ ∀ c ∈ s.mem.writeWords cells, c.1 < ramSize := by
  obtain ⟨hwf, hram⟩ := hs
  refine ⟨Memory.wf_writeWords hwf cells, fun c hc => ?_⟩
  obtain ⟨p, hp, hpc⟩ | hc := Memory.mem_writeWords hc
  · have hlt := h p hp
    unfold ramSize at *
    omega
  · exact hram c hc

/-- RAM of a state with the invariant, after a byte stored inside RAM. -/
theorem State.Inv.writeByte {s : State} (hs : s.Inv) {pa : Nat} (h : pa < ramSize) (b : Byte) :
    (s.mem.writeByte pa b).wf ∧ ∀ c ∈ s.mem.writeByte pa b, c.1 < ramSize := by
  obtain ⟨hwf, hram⟩ := hs
  refine ⟨Memory.wf_writeByte hwf pa b, fun c hc => ?_⟩
  obtain hpc | hc := Memory.mem_writeByte hc
  · exact hpc ▸ h
  · exact hram c hc

theorem OwnEffect.inv {i : Instr} {s t : State} (h : OwnEffect i s t) (hs : s.Inv) : t.Inv := by
  unfold State.Inv
  obtain ⟨cells, hm, hcells⟩ | ⟨pa, b, hm, hpa, -⟩ := h.stores <;> rw [hm]
  · exact hs.writeWords fun p hp => (hcells p hp).1
  · exact hs.writeByte hpa b

theorem inv_reset : State.reset.Inv := ⟨Memory.wf_nil, nofun⟩

theorem inv_of_step {s t : State} (hs : s.Inv) (h : step s = .next t) : t.Inv := by
  obtain ⟨c, htook⟩ | ⟨i, -, heffect⟩ := step_next_took_or_ran h
  · exact htook.inv hs
  · exact heffect.inv (s := s.fetched) hs

theorem inv_of_applyMove {m : Move} {s t : State} (hs : s.Inv) (h : applyMove m s = .next t) : t.Inv := by
  obtain rfl | ⟨_, rfl, -⟩ | ⟨pa, b, rfl, hpa, -⟩ | ⟨pa, v, rfl, hpa, -⟩ | ⟨_, -, rfl⟩ | ⟨-, rfl⟩ | ⟨-, rfl⟩ := applyMove_next h
  · exact hs
  · exact hs
  · exact hs.writeByte hpa b
  · exact hs.writeWords (cells := [(pa, v)]) (by simpa using hpa)
  · exact hs
  · exact hs
  · exact inv_reset

/-- Settles O46: an entry stores words and an instruction words or a byte, each checked to lie in RAM. -/
theorem stepKeepsMemoryCanonical : Obligations.StepKeepsMemoryCanonical :=
  fun _ _ => inv_of_step

/-- Settles O47, by induction on the events: a step keeps the invariant, and so does a move. -/
theorem everyEventKeepsMemoryCanonical : Obligations.EveryEventKeepsMemoryCanonical := by
  intro es
  induction es with
  | nil => intro s t hs h; cases h; exact hs
  | cons e es ih =>
    intro s t hs h
    rw [runEvents] at h
    cases he : advance e s with
    | fault f => rw [he] at h; cases h
    | refused q => rw [he] at h; cases h
    | next u =>
      rw [he] at h
      have hu : u.Inv := by
        cases e with
        | core => exact inv_of_step hs he
        | move m => exact inv_of_applyMove hs he
      exact ih u t hu h

/-- Settles O48: RAM lists nothing at reset. -/
theorem resetMemoryIsCanonical : Obligations.ResetMemoryIsCanonical := inv_reset

/-! ## Interrupts (spec/60_exceptions.md R225 to R234) -/

/-- Settles O9: an entry empties the queue of its head and nothing else, and an instruction runs only where it is empty. -/
theorem pendingInterruptsAreTakenInOrder : Obligations.PendingInterruptsAreTakenInOrder := by
  refine ⟨fun _ _ => rfl, ⟨rfl, rfl, rfl, rfl⟩, fun _ _ => rfl, fun s t h => ?_⟩
  obtain ⟨code, rest, c, hi, hc, htook⟩ | ⟨hi, c, htook⟩ | ⟨i, hran⟩ := step_next_cases h
  · refine ⟨htook.irq, fun code' hcode' => ?_⟩
    obtain rfl : code = code' := by simpa [hi] using hcode'
    rw [htook.raised]
    obtain rfl | ⟨h4, rfl⟩ := hc
    · exact .inl rfl
    · exact .inr ⟨h4, rfl⟩
  · exact ⟨htook.irq, by simp [hi]⟩
  · obtain ⟨hi, ht⟩ := hran.irq
    exact ⟨by simp [hi, ht], by simp [hi]⟩

/-- Settles O10: the output names the code of an entry, and an instruction's own effect leaves it empty. -/
theorem everyInterruptGoesThroughItsVector : Obligations.EveryInterruptGoesThroughItsVector := by
  intro s t code h hcode
  obtain ⟨c, htook⟩ | ⟨i, hran⟩ := step_next_took_or_ran h
  · obtain rfl : c = code := Option.some.inj (htook.raised.symm.trans hcode)
    exact ⟨htook.isVirtual, htook.vector⟩
  · exact nomatch hran.raised.symm.trans hcode

/-! ## PTBR, the mode, the flags, `halted` (spec/10_state.md R25 to R38) -/

/-- A move that changes a part of the state which arriving codes, stores to RAM and the clearing of `halted` all keep is the
host's context load or reset. -/
theorem hostContext_or_reset_of_applyMove {α : Type} {f : State → α} {m : Move} {s t : State} (h : applyMove m s = .next t)
    (hf : ∀ mem halted irq, f { s with mem := mem, halted := halted, irq := irq } = f s) (hne : f t ≠ f s) :
    (∃ c, m = .hostContext c) ∨ m = .reset := by
  obtain rfl | ⟨_, rfl, -⟩ | ⟨_, _, rfl, -⟩ | ⟨_, _, rfl, -⟩ | ⟨c, rfl, -⟩ | ⟨-, rfl⟩ | ⟨rfl, -⟩ := applyMove_next h
  · exact absurd rfl hne
  · exact absurd (hf _ _ _) hne
  · exact absurd (hf _ _ _) hne
  · exact absurd (hf _ _ _) hne
  · exact .inl ⟨c, rfl⟩
  · exact absurd (hf _ _ _) hne
  · exact .inr rfl

/-- Settles O50: neither an entry nor an instruction's own effect writes PTBR. -/
theorem onlyTheHostWritesPtbr : Obligations.OnlyTheHostWritesPtbr := by
  refine ⟨fun s t h => ?_, fun m s t h => hostContext_or_reset_of_applyMove h fun _ _ _ => rfl⟩
  obtain ⟨c, htook⟩ | ⟨i, -, heffect⟩ := step_next_took_or_ran h
  · exact htook.ptbr
  · exact heffect.ptbr

/-- An instruction that changes the mode is ENTER or POPINT in real mode, EXIT or HALT in virtual mode. -/
theorem RanInstruction.mode {i : Instr} {s t : State} (h : RanInstruction i s t) :
    t.isVirtual = s.isVirtual ∨ (s.isVirtual = false ∧ (s.AboutToRun .enter ∨ s.AboutToRun .popint)) ∨
      (s.isVirtual = true ∧ (s.AboutToRun .exit ∨ s.AboutToRun .halt)) := by
  obtain ⟨hrun, heffect⟩ := h
  obtain heq | ⟨hv, rfl | rfl⟩ | ⟨hv, rfl | rfl⟩ := heffect.mode
  · exact .inl heq
  · exact .inr (.inl ⟨hv, .inl hrun⟩)
  · exact .inr (.inl ⟨hv, .inr hrun⟩)
  · exact .inr (.inr ⟨hv, .inl hrun⟩)
  · exact .inr (.inr ⟨hv, .inr hrun⟩)

/-- Settles O51: an entry ends in real mode, and four instructions switch the mode, each out of one of the two. -/
theorem modeChangesOnlyWhereListed : Obligations.ModeChangesOnlyWhereListed := by
  refine ⟨fun s t h hs ht => ?_, fun s t h hs ht => ?_,
    fun m s t h => hostContext_or_reset_of_applyMove h fun _ _ _ => rfl⟩ <;>
    obtain ⟨c, htook⟩ | ⟨i, hran⟩ := step_next_took_or_ran h
  · exact nomatch htook.isVirtual.symm.trans ht
  · obtain heq | ⟨-, henter⟩ | ⟨hv, -⟩ := hran.mode
    · exact nomatch (ht.symm.trans heq).trans hs
    · exact henter
    · exact nomatch hv.symm.trans hs
  · exact .inr (.inr (by simp [htook.raised]))
  · obtain heq | ⟨hv, -⟩ | ⟨-, hexit | hhalt⟩ := hran.mode
    · exact nomatch (ht.symm.trans heq).trans hs
    · exact nomatch hv.symm.trans hs
    · exact .inl hexit
    · exact .inr (.inl hhalt)

/-- Settles O52: an entry changes no bit of FR but M, and an instruction those of its family; a bit that changes therefore
names the instruction. -/
theorem flagsChangeOnlyWhereListed : Obligations.FlagsChangeOnlyWhereListed := by
  refine ⟨fun i s t hi h hpop => ?_, fun s t h => ?_, fun m s t h => hostContext_or_reset_of_applyMove h fun _ _ _ => rfl⟩
  · obtain ⟨c, h⟩ | heffect := exec_next hi h
    · have hkept := fun k (hk : k ≠ 2) => interruptEntry_getLsbD_fr h hk
      exact ⟨fun k hk => hkept k (by omega), fun _ => hkept 0 (by omega), fun _ => ⟨hkept 1 (by omega), hkept 3 (by omega)⟩⟩
    · exact ⟨heffect.highBits hpop, heffect.carry hpop, heffect.zeroSign hpop⟩
  · obtain ⟨c, htook⟩ | ⟨i, hrun, heffect⟩ := step_next_took_or_ran h
    · have hkept := fun k (hk : k ≠ 2) => htook.getLsbD_fr hk
      exact ⟨fun k hk hne => absurd (hkept k (by omega)) hne, fun hne => absurd (hkept 0 (by omega)) hne,
        fun hne => absurd ⟨hkept 1 (by omega), hkept 3 (by omega)⟩ (not_and_or.mpr hne)⟩
    · by_cases hpop : i = .popint
      · subst hpop
        exact ⟨fun _ _ _ => hrun, fun _ => ⟨_, hrun, by decide⟩, fun _ => ⟨_, hrun, by decide⟩⟩
      · refine ⟨fun k hk hne => absurd (heffect.highBits hpop k hk) hne, fun hne => ⟨i, hrun, ?_⟩, fun hne => ⟨i, hrun, ?_⟩⟩
        · have hmem := not_imp_comm.mp (heffect.carry hpop) hne
          simp only [List.mem_cons] at hmem ⊢
          tauto
        · have hmem := not_imp_comm.mp (heffect.zeroSign hpop) (not_and_or.mpr hne)
          simp only [List.mem_cons] at hmem ⊢
          tauto

/-- Settles O53: a step that is taken starts from a state not halted, and only real-mode HALT sets the flag. -/
theorem onlyRealModeHaltSetsHalted : Obligations.OnlyRealModeHaltSetsHalted := by
  refine ⟨fun s t h ht => ?_, fun m s t h hne => ?_⟩
  · obtain ⟨c, htook⟩ | ⟨i, hran⟩ := step_next_took_or_ran h
    · obtain ⟨hh, -⟩ := step_next h
      exact nomatch (ht.symm.trans htook.halted).trans hh
    · obtain ⟨rfl, hv⟩ := hran.halted ht
      exact ⟨hv, hran.1⟩
  · obtain rfl | ⟨_, rfl, -⟩ | ⟨_, _, rfl, -⟩ | ⟨_, _, rfl, -⟩ | ⟨_, -, rfl⟩ | ⟨rfl, -⟩ | ⟨rfl, -⟩ := applyMove_next h
    · exact absurd rfl hne
    · exact absurd rfl hne
    · exact absurd rfl hne
    · exact absurd rfl hne
    · exact absurd rfl hne
    · exact .inl rfl
    · exact .inr rfl

/-! ## The watchers (spec/20_memory.md R76) -/

/-- A cell that holds the first and the last byte of a word holds the word. -/
theorem DeviceCell.holds_of_div_eq {c : DeviceCell} {pa a : Nat} (hfirst : c.holds (wordBase pa) = true)
    (hlast : c.holds (wordBase pa + 3) = true) (h : a / 4 = pa / 4) : c.holds a = true := by
  obtain ⟨hlow, -⟩ := of_decide_eq_true hfirst
  obtain ⟨-, hhigh⟩ := of_decide_eq_true hlast
  unfold wordBase at hlow hhigh
  exact decide_eq_true ⟨by omega, by omega⟩

/-- Settles O57: a watcher's store lies in its cell, so a byte of no cell is not one it replaces. -/
theorem watchersWriteOnlyDeviceCells : Obligations.WatchersWriteOnlyDeviceCells := by
  intro m s t hm h
  obtain rfl | ⟨_, rfl, -⟩ | ⟨pa, b, rfl, -, hcell⟩ | ⟨pa, v, rfl, -, hcell⟩ | ⟨c, rfl, -⟩ | ⟨rfl, -⟩ | ⟨rfl, -⟩ :=
    applyMove_next h
  · exact ⟨fun _ => rfl, rfl, fun _ _ => rfl⟩
  · exact ⟨State.reg_withIrq s _, rfl, fun _ _ => rfl⟩
  · obtain rfl | ⟨c, -, hc⟩ := hcell
    · simp at hm
    refine ⟨State.reg_withMem s _, rfl, fun a ha => ?_⟩
    have hne : a ≠ pa := by rintro rfl; exact nomatch hc.symm.trans (ha c)
    exact (Memory.readByte_writeByte s.mem pa a b).trans (if_neg hne)
  · obtain rfl | ⟨c, -, hfirst, hlast⟩ := hcell
    · simp at hm
    refine ⟨State.reg_withMem s _, rfl, fun a ha => ?_⟩
    have hne : a / 4 ≠ pa / 4 := fun heq => nomatch (DeviceCell.holds_of_div_eq hfirst hlast heq).symm.trans (ha c)
    exact (Memory.readByte_writeWord s.mem pa a v).trans (if_neg hne)
  · simp at hm
  · simp at hm
  · simp at hm

end Sys2Proof.Machine

/-! # Entering an interrupt and returning (spec/60_exceptions.md) -/

namespace Sys2Proof.Machine

/-! ## What the entry leaves (R230 to R234) -/

theorem map_fst_frameCells (s : State) : (frameCells s).map Prod.fst = frameAddrs s.sp.toNat := rfl

/-- A word that the frame does not cover holds what step (b) left there. -/
theorem readWord_memAfterFrame {s : State} {a : Nat} (h : ¬ wordsBytes (frameAddrs (frameBase s).toNat) a) :
    (memAfterFrame s).readWord a = (memAfterSlots s).readWord a :=
  Memory.readWord_writeWords _ _ fun p hp heq => h ⟨p.1, List.mem_map_of_mem (f := Prod.fst) hp, heq⟩

/-- Step (b) from virtual mode puts `pc` and `sp` into their slots. -/
theorem readWord_memAfterSlots {s : State} (hv : s.isVirtual = true) :
    (memAfterSlots s).readWord virtPcSlot = s.pc ∧ (memAfterSlots s).readWord virtSpSlot = s.sp := by
  have hslots : [(virtPcSlot, s.pc), (virtSpSlot, s.sp)].Pairwise (fun p q => p.1 / 4 ≠ q.1 / 4) := by
    simp [virtPcSlot, virtSpSlot]
  have hsaved := fun p => Memory.readWord_writeWords_of_mem s.mem _ hslots (p := p)
  rw [memAfterSlots, if_pos hv]
  exact ⟨hsaved (virtPcSlot, s.pc) (by simp), hsaved (virtSpSlot, s.sp) (by simp)⟩

theorem entryStep_afterEntry (code : Nat) (s : State) : EntryStep code s (afterEntry code s) := by
  refine ⟨rfl, rfl, rfl, rfl, rfl, rfl, getLsbD_setMode_fr s false, frameAt_memAfterFrame s, ?_, fun hv hframe => ?_,
    fun hv hframe => ?_, fun _ => readByte_memAfterFrame s⟩
  · exact congrArg (memAfterFrame s).readWord (Nat.zero_add (4 * code))
  · exact (readWord_memAfterFrame hframe).trans (readWord_memAfterSlots hv).1
  · exact (readWord_memAfterFrame hframe).trans (readWord_memAfterSlots hv).2

/-! ## The entry sequence (R230, R231) -/

section
variable {code c : Nat} {s t : State}

theorem interruptEntry_of_fits (h : translatePointer code s = .ok (c, t)) (hfits : EntryFits c t) :
    interruptEntry code s = .next (afterEntry c t) := by
  rw [interruptEntry, enterInterrupt, h]
  simp only [deliver_ok.mpr ⟨hfits, rfl⟩]

theorem interruptEntry_of_not_fits (h : translatePointer code s = .ok (c, t)) (hfits : ¬ EntryFits c t) :
    interruptEntry code s = .fault .outOfRange := by
  rw [interruptEntry, enterInterrupt, h]
  simp only [deliver_error.mpr ⟨hfits, rfl⟩]

/-- For code 4, where R0 translates, steps (b) to (e) go on with its address in R0 (R231). -/
theorem translatePointer_four_mapped {pa : Nat} (h : translate s.r0 s = .ok (.mapped pa)) :
    translatePointer 4 s = .ok (4, { s with r0 := pointerWord pa }) := by
  rw [translatePointer_four, h]

/-- For code 4, where R0 does not translate, the entry is the page fault's (R231). -/
theorem interruptEntry_four_pageFault (h : translate s.r0 s = .ok .pageFault) : interruptEntry 4 s = interruptEntry 3 s := by
  rw [interruptEntry, interruptEntry, enterInterrupt, enterInterrupt, translatePointer_four, h,
    translatePointer_of_ne (by decide)]

theorem interruptEntry_four_walk {f : Fault} (h : translate s.r0 s = .error f) : interruptEntry 4 s = .fault f := by
  rw [interruptEntry, enterInterrupt, translatePointer_four, h]

/-- Every code in real mode, and every code but 4 in virtual mode. -/
theorem interruptEntry_of_untranslated (h : code ≠ 4 ∨ s.isVirtual = false) (hfits : EntryFits code s) :
    interruptEntry code s = .next (afterEntry code s) := by
  by_cases h4 : code = 4
  · subst h4
    have hmapped := translate_real (h.resolve_left (not_not.mpr rfl)) s.r0
    rw [interruptEntry_of_fits (translatePointer_four_mapped hmapped) hfits, pointerWord_toNat]
  · exact interruptEntry_of_fits (translatePointer_of_ne h4 s) hfits

end

/-- Settles O12: steps (b) to (e) complete exactly where frame and vector lie in RAM. -/
theorem interruptEntrySequence : Obligations.InterruptEntrySequence := fun code s h4 =>
  ⟨fun hfits => ⟨_, interruptEntry_of_fits (translatePointer_of_ne h4 s) hfits, entryStep_afterEntry code s⟩,
    interruptEntry_of_not_fits (translatePointer_of_ne h4 s)⟩

/-- Settles O13: the translation of R0 decides which entry runs, and with R0 in place of what it was. -/
theorem terminalOutputPointerIsTranslated : Obligations.TerminalOutputPointerIsTranslated := by
  intro s
  refine ⟨fun hv hfits => ⟨_, interruptEntry_of_untranslated (.inr hv) hfits, entryStep_afterEntry 4 s⟩,
    interruptEntry_four_pageFault, fun pa hva hfits => ?_,
    fun pa hva hfits => interruptEntry_of_not_fits (translatePointer_four_mapped hva) hfits, fun f hf => ?_⟩
  · refine ⟨pointerWord pa, _, fun hpa => ?_, interruptEntry_of_fits (translatePointer_four_mapped hva) hfits,
      entryStep_afterEntry 4 _⟩
    rw [pointerWord_of_lt hpa, BitVec.toNat_ofNat, Nat.mod_eq_of_lt hpa]
  · obtain rfl := translate_error hf
    exact interruptEntry_four_walk hf

/-- Settles O37: INT is the entry of its code, whose number the zero extension keeps. -/
theorem intEntersItsCode : Obligations.IntEntersItsCode := by
  intro code s
  have hexec : exec (.int code) s = interruptEntry code.toNat s := by rw [exec, execInt, toNat_zext24]
  refine ⟨encode_of_packImm rfl rfl rfl, hexec, fun hcode hfits => ?_, fun pa hcode hva hpa hfits => ?_⟩ <;> rw [hexec]
  · have hcode : code.toNat ≠ 4 ∨ s.isVirtual = false := hcode.imp_left fun hne heq => hne (BitVec.eq_of_toNat_eq heq)
    exact ⟨_, interruptEntry_of_untranslated hcode hfits, entryStep_afterEntry _ s⟩
  · subst hcode
    exact ⟨_, interruptEntry_of_fits (translatePointer_four_mapped hva) hfits, pointerWord_of_lt hpa ▸ entryStep_afterEntry 4 _⟩

/-! ## The return right after the entry (R236, spec/43_memory_ops.md R184) -/

/-- POPINT right after an entry reads the entry's own frame: R0 to R7, FR and `pc` are those of the state interrupted, and the
saved M says which stack is resumed. -/
theorem exec_popint_afterEntry {code : Nat} {s : State} (hfits : EntryFits code s) :
    ∃ u, exec .popint (afterEntry code s) = .next u ∧ u.gprs = s.gprs ∧ u.fr = s.fr ∧ u.pc = s.pc ∧ u.ptbr = s.ptbr ∧
      u.sp = (if s.isVirtual then (memAfterFrame s).readWord virtSpSlot else frameBase s) ∧
      u.mem = if s.isVirtual then (memAfterFrame s).writeWord realSpSlot (frameBase s) else memAfterFrame s := by
  obtain ⟨hframe, -⟩ := hfits
  obtain ⟨hgprs, hfr, hpc⟩ := frameAt_memAfterFrame s
  have hsp : (afterEntry code s).sp - 40#32 = frameBase s := BitVec.add_sub_cancel _ _
  have hsaved : (afterEntry code s).mem.readWord ((frameBase s).toNat + 4 * 8) = s.fr := hfr
  have haddr : ∀ k, k < 10 → (frameBase s).toNat + 4 * k = ((afterEntry code s).sp - 40#32 + BitVec.ofNat 32 (4 * k)).toNat := by
    intro k hk
    rw [hsp, BitVec.toNat_add, BitVec.toNat_ofNat]
    omega
  have hpop := exec_popint_real (afterEntry_isVirtual code s) haddr fun k hk => by rw [ramSize_eq]; omega
  rw [hsaved, hsp] at hpop
  refine ⟨_, hpop, ?_, rfl, hpc, rfl, rfl, rfl⟩
  rw [gprs_frameReturn _ (by simp)]
  refine List.ext_getElem rfl fun k hk _ => ?_
  rw [List.getElem_map, List.getElem_range]
  exact (hgprs k (by simpa using hk)).trans (List.getElem_eq_getD _).symm

/-- Where R0 to R7 are the same, so is every register of class `GPR`. -/
theorem reg_eq_of_gprs_eq {s u : State} (h : u.gprs = s.gprs) {r : Reg} (hr : r.isGpr = true) : u.reg r = s.reg r := by
  simp only [State.gprs, List.cons.injEq, and_true] at h
  obtain ⟨h0, h1, h2, h3, h4, h5, h6, h7⟩ := h
  cases r with
  | r0 => exact h0
  | r1 => exact h1
  | r2 => exact h2
  | r3 => exact h3
  | r4 => exact h4
  | r5 => exact h5
  | r6 => exact h6
  | r7 => exact h7
  | sp | pc | ptbr | fr => cases hr

/-- Steps (b) to (e) followed at once by POPINT give every register back, and `REAL_SP_SLOT`. -/
theorem popint_restores {code : Nat} {s : State} (hfits : EntryFits code s)
    (hslot : s.isVirtual = true → ¬ wordsBytes (frameAddrs (frameBase s).toNat) virtSpSlot) :
    ∃ u, exec .popint (afterEntry code s) = .next u ∧ (∀ r, u.reg r = s.reg r) ∧
      (s.isVirtual = true ∨ ¬ wordsBytes (frameAddrs (frameBase s).toNat) realSpSlot →
        u.mem.readWord realSpSlot = s.mem.readWord realSpSlot) := by
  obtain ⟨u, hpop, hgprs, hfr, hpc, hptbr, hsp, hmem⟩ := exec_popint_afterEntry hfits
  refine ⟨u, hpop, fun r => ?_, fun hkept => ?_⟩
  · cases r with
    | r0 | r1 | r2 | r3 | r4 | r5 | r6 | r7 => exact reg_eq_of_gprs_eq hgprs rfl
    | pc => exact hpc
    | ptbr => exact hptbr
    | fr => exact hfr
    | sp =>
      refine hsp.trans ?_
      cases hv : s.isVirtual with
      | true => exact (readWord_memAfterFrame (hslot hv)).trans (readWord_memAfterSlots hv).2
      | false => exact (if_neg Bool.false_ne_true).trans (if_neg (by simp [hv]))
  · rw [hmem]
    cases hv : s.isVirtual with
    | true =>
      rw [if_pos rfl, Memory.readWord_writeWord, if_pos rfl]
      exact if_pos hv
    | false =>
      rw [if_neg (by simp), readWord_memAfterFrame (hkept.resolve_left (by simp [hv])), memAfterSlots, if_neg (by simp [hv])]

/-- Settles O14: POPINT gives back the state in which steps (b) to (e) ran, which differs from the one interrupted in R0 alone,
and only where step (a) translated it. -/
theorem entryThenPopintRestores : Obligations.EntryThenPopintRestores := by
  intro code s t h hslot
  obtain ⟨c, w, -, hw, hfits, rfl⟩ := interruptEntry_next_afterEntry h
  obtain ⟨u, hpop, hreg, hkept⟩ := popint_restores (s := { s with r0 := w }) hfits hslot
  exact ⟨u, hpop, fun r hr => (hreg r).trans (State.reg_setReg_ne s w hr), hreg .r0, fun hcode => (hreg .r0).trans (hw hcode),
    hkept⟩

/-! ## Into virtual mode and back (spec/44_machine_state.md R206) -/

/-- EXIT and HALT do the same in virtual mode. -/
theorem exec_exit_or_halt_virtual {i : Instr} (hi : i = .exit ∨ i = .halt) {s : State} (hv : s.isVirtual = true) :
    exec i s = .next ({ s with pc := s.mem.readWord realPcSlot, sp := s.mem.readWord realSpSlot }.setMode false) := by
  obtain rfl | rfl := hi
  · exact exec_exit_virtual hv
  · rw [exec_halt_virtual hv, exec_exit_virtual hv]

/-- Settles O41: ENTER puts `pc` and `sp` where EXIT reads them, and each changes of FR only M, which was 0. -/
theorem modeSwitchIsSymmetric : Obligations.ModeSwitchIsSymmetric := by
  intro s t i hv henter hstep hi hrun
  obtain ⟨-, -, hreal⟩ := enterSwitchesToVirtualMode s.fetched
  obtain ⟨t', hexec, hpcSlot, hspSlot, -, -, hfr, hkeeps, hbytes⟩ := hreal hv
  rw [step_of_aboutToRun henter, hexec] at hstep
  cases hstep
  have hvirt : t.fetched.isVirtual = true := (hfr 2).trans (if_pos rfl)
  obtain ⟨hreg, -⟩ := hkeeps
  refine ⟨_, (step_of_aboutToRun hrun).trans (exec_exit_or_halt_virtual hi hvirt), hpcSlot, hspSlot, ?_, ?_,
    hreg .ptbr (by decide), hpcSlot, hspSlot, hbytes⟩
  · refine BitVec.eq_of_getLsbD_eq fun k _ => ?_
    refine (getLsbD_setMode_fr t false k).trans ?_
    split_ifs with hk
    · exact hk ▸ hv.symm
    · exact (hfr k).trans (if_neg hk)
  · simp only [State.gprs, List.cons.injEq, and_true]
    exact ⟨hreg .r0 (by decide), hreg .r1 (by decide), hreg .r2 (by decide), hreg .r3 (by decide), hreg .r4 (by decide),
      hreg .r5 (by decide), hreg .r6 (by decide), hreg .r7 (by decide)⟩

end Sys2Proof.Machine

/-! # Eight words at once, and unaligned addresses (spec/20_memory.md, spec/43_memory_ops.md) -/

namespace Sys2Proof.Machine

/-! ## The eight addresses (R69) -/

theorem mem_wordsFrom {base va : Word} {n : Nat} : va ∈ wordsFrom base n ↔ ∃ k, k < n ∧ base + BitVec.ofNat 32 (4 * k) = va := by
  simp [wordsFrom]

theorem resolveAll_wordsFrom {base : Word} {n : Nat} {s : State} {pa : Nat → Nat}
    (h : ∀ k, k < n → translate (base + BitVec.ofNat 32 (4 * k)) s = .ok (.mapped (pa k))) :
    resolveAll (wordsFrom base n) s = .ok ((List.range n).map pa) := by
  rw [resolveAll_ok, wordsFrom, List.map_map, List.map_map]
  exact List.map_congr_left fun k hk => h k (List.mem_range.mp hk)

theorem length_of_resolveAll_ok {vas : List Word} {s : State} {pas : List Nat} (h : resolveAll vas s = .ok pas) :
    pas.length = vas.length := by
  simpa using (congrArg List.length (resolveAll_ok.mp h)).symm

/-- Two of the eight addresses never translate into one word, even where two pages of the block are mapped to the same physical
page: translation keeps the offset in the page, and the block is shorter than a page. -/
theorem div_four_ne_of_translate {base : Word} {s : State} {pa : Nat → Nat}
    (h : ∀ k, k < 8 → translate (base + BitVec.ofNat 32 (4 * k)) s = .ok (.mapped (pa k))) {i j : Nat} (hij : i < j)
    (hj : j < 8) : pa i / 4 ≠ pa j / 4 := by
  have offset : ∀ k, k < 8 → pa k % 4096 = (base.toNat + 4 * k) % 4096 := by
    intro k hk
    have hoff : pa k % 4096 = _ % 4096 := translate_offset (h k hk)
    rw [hoff, BitVec.toNat_add, BitVec.toNat_ofNat]
    omega
  have hi := offset i (by omega)
  have hj := offset j hj
  omega

/-- An instruction whose body stops where its eight addresses do not all translate, or not all to RAM, ends as R69 says. -/
theorem blockStops_of_perform {i : Instr} {base : Word} {s : State} {body : State → Except Raise State}
    (hexec : exec i s = perform body s) (hraise : ∀ e, resolveAll (wordsFrom base 8) s = .error e → body s = .error e)
    (hrange : ∀ pas, resolveAll (wordsFrom base 8) s = .ok pas → (∃ pa ∈ pas, ramSize ≤ pa) →
      body s = .error (.machineFault .outOfRange)) : BlockStops i base s := by
  rw [BlockStops, hexec, ← ramSize_eq]
  refine ⟨fun hok ⟨k, hk, hpf⟩ => perform_interrupt (hraise _ (resolveAll_error.mpr (.inr ⟨fun va hva herr => ?_, ?_, rfl⟩))),
    fun pa hpa ⟨k, hk, hout⟩ => perform_fault (hrange _ (resolveAll_wordsFrom hpa) ?_),
    fun ⟨k, f, hk, hf⟩ => perform_fault (hraise _ (resolveAll_error.mpr (.inl ⟨?_, rfl⟩)))⟩
  · obtain ⟨k', hk', rfl⟩ := mem_wordsFrom.mp hva
    obtain ⟨r, hr⟩ := hok k' hk'
    exact nomatch hr.symm.trans herr
  · exact ⟨_, mem_wordsFrom.mpr ⟨k, hk, rfl⟩, hpf⟩
  · exact ⟨pa k, List.mem_map_of_mem (List.mem_range.mpr hk), hout⟩
  · exact ⟨_, mem_wordsFrom.mpr ⟨k, hk, rfl⟩, translate_error hf ▸ hf⟩

/-! ## PUSHALL (R182) -/

/-- What PUSHALL stores: the registers in order, each at its own address. -/
def pushallCells (pa : Nat → Nat) (s : State) : List (Nat × Word) := (List.range 8).map fun k => (pa k, s.gprs.getD k 0#32)

theorem zip_gprs (pa : Nat → Nat) (s : State) : ((List.range 8).map pa).zip s.gprs = pushallCells pa s := rfl

theorem mem_pushallCells {pa : Nat → Nat} {s : State} {p : Nat × Word} :
    p ∈ pushallCells pa s ↔ ∃ k, k < 8 ∧ (pa k, s.gprs.getD k 0#32) = p := by
  simp only [pushallCells, List.mem_map, List.mem_range]

section
variable {s : State} {pas : List Nat}

theorem exec_pushall_ok {pa : Nat → Nat} (hres : resolveAll (wordsFrom s.sp 8) s = .ok ((List.range 8).map pa))
    (hram : ∀ k, k < 8 → pa k < ramSize) :
    exec .pushall s = .next { s with mem := s.mem.writeWords (pushallCells pa s), sp := s.sp + 32#32 } := by
  have hcells : ∀ p ∈ pushallCells pa s, p.1 < ramSize := by
    intro p hp
    obtain ⟨k, hk, rfl⟩ := mem_pushallCells.mp hp
    exact hram k hk
  rw [exec, execPushall]
  refine perform_ok ?_
  rw [hres]
  simp only [zip_gprs, physWriteWords_ok.mpr ⟨hcells, rfl⟩]

theorem physWriteWords_zip_gprs_error (hlen : pas.length = 8) (hout : ∃ pa ∈ pas, ramSize ≤ pa) :
    physWriteWords (pas.zip s.gprs) s = .error .outOfRange := by
  obtain ⟨pa, hpa, hge⟩ := hout
  rw [← List.map_fst_zip (l₁ := pas) (l₂ := s.gprs) (by rw [hlen]; rfl)] at hpa
  obtain ⟨p, hp, rfl⟩ := List.mem_map.mp hpa
  exact physWriteWords_error.mpr ⟨⟨p, hp, hge⟩, rfl⟩

end

/-- Settles O34: the eight cells are different words, so each holds its register's value at the end. -/
theorem pushallWritesEightWords : Obligations.PushallWritesEightWords := by
  intro s
  rw [← ramSize_eq]
  refine ⟨by decide, fun pa h => ?_, blockStops_of_perform (by rw [exec, execPushall]) (fun e he => ?_) fun pas hres hout => ?_⟩
  · have hva := fun k hk => (h k hk).1
    have hpairwise : (pushallCells pa s).Pairwise (fun p q => p.1 / 4 ≠ q.1 / 4) :=
      List.pairwise_map.mpr (List.pairwise_lt_range.imp_of_mem fun _ hj hij =>
        div_four_ne_of_translate hva hij (List.mem_range.mp hj))
    refine ⟨_, exec_pushall_ok (resolveAll_wordsFrom hva) fun k hk => (h k hk).2, fun k hk => ?_, rfl,
      (keeps_withMem s _).trans (keeps_withSp _ _), fun a ha => ?_⟩
    · exact Memory.readWord_writeWords_of_mem (p := (pa k, _)) s.mem _ hpairwise (mem_pushallCells.mpr ⟨k, hk, rfl⟩)
    · refine Memory.readByte_writeWords s.mem _ fun p hp heq => ha ?_
      obtain ⟨k, hk, rfl⟩ := mem_pushallCells.mp hp
      exact ⟨k, hk, heq⟩
  · rw [he]
  · rw [hres]
    simp only [physWriteWords_zip_gprs_error (length_of_resolveAll_ok hres) hout]

/-! ## POPALL (R183) -/

theorem exec_popall_ok {s : State} {pas : List Nat} (hres : resolveAll (wordsFrom (s.sp - 32#32) 8) s = .ok pas)
    (hram : ∀ pa ∈ pas, pa < ramSize) :
    exec .popall s = .next { s.setGprs (pas.map s.mem.readWord) with sp := s.sp - 32#32 } := by
  rw [exec, execPopall]
  refine perform_ok ?_
  rw [hres]
  simp only [physReadWords_ok.mpr ⟨hram, rfl⟩]

theorem setGprs_mem (s : State) {ws : List Word} (h : ws.length = 8) : (s.setGprs ws).mem = s.mem := by
  rw [setGprs_spec s h]

theorem gprs_setGprs_withSp (s : State) {ws : List Word} (h : ws.length = 8) (sp : Word) :
    State.gprs { s.setGprs ws with sp := sp } = ws := by
  match ws, h with
  | [_, _, _, _, _, _, _, _], _ => rfl

/-- Settles O35: the eight words are read before any register is written. -/
theorem popallReadsEightWords : Obligations.PopallReadsEightWords := by
  intro s
  rw [← ramSize_eq]
  refine ⟨by decide, fun pa h => ?_, blockStops_of_perform (by rw [exec, execPopall]) (fun e he => ?_) fun pas hres hout => ?_⟩
  · have hres := resolveAll_wordsFrom fun k hk => (h k hk).1
    refine ⟨_, exec_popall_ok hres (by simpa using fun k hk => (h k hk).2), fun k hk => ?_, rfl,
      (keeps_setGprs s _).trans (keeps_withSp _ _), keepsBytes_of_mem_eq (setGprs_mem s (by simp))⟩
    rw [gprs_setGprs_withSp s (by simp)]
    simp [hk]
  · rw [he]
  · rw [hres]
    simp only [physReadWords_error.mpr ⟨hout, rfl⟩]

/-! ## Unaligned addresses (R33, R55, R73) -/

/-- The address of the word that holds `va`. -/
def alignedAddr (va : Word) : Word := va &&& 0xFFFFFFFC#32

/-- Clearing the two low bits rounds down to a multiple of 4. -/
theorem toNat_alignedAddr (va : Word) : (alignedAddr va).toNat = va.toNat - va.toNat % 4 := by
  have hshift : alignedAddr va = va >>> 2 <<< 2 := by
    refine BitVec.eq_of_getLsbD_eq fun j hj => ?_
    have hmask : 0xFFFFFFFC#32 = BitVec.allOnes 32 <<< 2 := by decide
    rw [alignedAddr, hmask]
    simp only [BitVec.getLsbD_and, BitVec.getLsbD_shiftLeft, BitVec.getLsbD_allOnes, BitVec.getLsbD_ushiftRight, hj]
    by_cases hlow : j < 2
    · simp [hlow]
    · have hback : 2 + (j - 2) = j := by omega
      have hin : j - 2 < 32 := by omega
      simp [hlow, hback, hin]
  rw [hshift, BitVec.toNat_shiftLeft, BitVec.toNat_ushiftRight, Nat.shiftLeft_eq, Nat.shiftRight_eq_div_pow]
  omega

/-- The aligned address lies in the same page. -/
theorem alignedAddr_div_pageSize (va : Word) : (alignedAddr va).toNat / pageSize = va.toNat / pageSize := by
  rw [toNat_alignedAddr, pageSize]
  omega

theorem alignedAddr_mod_pageSize (va : Word) :
    (alignedAddr va).toNat % pageSize = va.toNat % pageSize - va.toNat % pageSize % 4 := by
  rw [toNat_alignedAddr, pageSize]
  omega

/-- The aligned address is walked by the same entry, to the aligned physical address. -/
theorem translate_alignedAddr (va : Word) (s : State) :
    translate (alignedAddr va) s = match translate va s with
      | .error f => .error f
      | .ok .pageFault => .ok .pageFault
      | .ok (.mapped pa) => .ok (.mapped (pa - pa % 4)) := by
  cases hv : s.isVirtual with
  | false => rw [translate_real hv, translate_real hv, toNat_alignedAddr]
  | true =>
    rw [translate_virtual hv, translate_virtual hv, alignedAddr_div_pageSize, alignedAddr_mod_pageSize]
    split_ifs
    · rfl
    · rfl
    · rfl
    · have hpage : ∀ page offset : Nat, page * pageSize + (offset - offset % 4) =
          page * pageSize + offset - (page * pageSize + offset) % 4 := fun page offset => by rw [pageSize]; omega
      simp only [hpage]
    · rfl

theorem wordBase_sub_mod (pa : Nat) : wordBase (pa - pa % 4) = wordBase pa := by
  unfold wordBase
  omega

/-- An access at the aligned address reads or writes the same word, or stops in the same way: RAM ends on a word boundary. -/
theorem physReadWord_sub_mod (pa : Nat) (s : State) : physReadWord (pa - pa % 4) s = physReadWord pa s := by
  have hrange : pa - pa % 4 < ramSize ↔ pa < ramSize := by unfold ramSize; omega
  simp only [physReadWord, hrange, Memory.readWord, wordBase_sub_mod]

theorem physWriteWord_sub_mod (pa : Nat) (v : Word) (s : State) : physWriteWord (pa - pa % 4) v s = physWriteWord pa v s := by
  have hrange : pa - pa % 4 < ramSize ↔ pa < ramSize := by unfold ramSize; omega
  simp only [physWriteWord, hrange, Memory.writeWord, wordBase_sub_mod]

theorem memReadWord_alignedAddr (va : Word) (s : State) : memReadWord (alignedAddr va) s = memReadWord va s := by
  rw [memReadWord, memReadWord, resolve_eq, resolve_eq, translate_alignedAddr]
  cases translate va s with
  | error f => rfl
  | ok r =>
    cases r with
    | pageFault => rfl
    | mapped pa => exact congrArg orFault (physReadWord_sub_mod pa s)

theorem memWriteWord_alignedAddr (va v : Word) (s : State) : memWriteWord (alignedAddr va) v s = memWriteWord va v s := by
  rw [memWriteWord, memWriteWord, resolve_eq, resolve_eq, translate_alignedAddr]
  cases translate va s with
  | error f => rfl
  | ok r =>
    cases r with
    | pageFault => rfl
    | mapped pa => exact congrArg orFault (physWriteWord_sub_mod pa v s)

/-- Settles O43: the aligned address is walked by the same entry to the aligned word, and a fetch is such a read. -/
theorem wordAccessIgnoresLowBits : Obligations.WordAccessIgnoresLowBits := by
  intro va s
  refine ⟨(memReadWord_alignedAddr va s).symm, fun v => (memWriteWord_alignedAddr va v s).symm,
    (memReadWord_alignedAddr va s).symm, fun pa hpa => ?_⟩
  exact (translate_alignedAddr va s).trans (by rw [hpa])

end Sys2Proof.Machine

/-! # Isolation of virtual mode (spec/20_memory.md R70, spec/60_exceptions.md R243) -/

namespace Sys2Proof.Machine

/-! ## What a walk grants -/

theorem entryValid_eq (entry : Word) : entryValid entry = true ↔ entry.toNat % 2 = 1 := by
  rw [entryValid, BitVec.getLsbD, Nat.testBit_zero, decide_eq_true_eq]

theorem entryPage_eq (entry : Word) : entryPage entry = entry.toNat / 2 := by
  rw [entryPage, BitVec.toNat_ushiftRight, Nat.shiftRight_eq_div_pow, Nat.pow_one]

theorem vpage_lt (va : Word) : va.toNat / pageSize < 2 ^ 20 := by
  rw [pageSize]
  omega

/-- What an address of virtual mode translates to lies in a page that a valid entry of the table names. -/
theorem granted_of_translate {s : State} (hv : s.isVirtual = true) {va : Word} {pa : Nat}
    (h : translate va s = .ok (.mapped pa)) : s.Granted pa := by
  rw [translate_virtual hv] at h
  have hdiv : ∀ page offset : Nat, (page * pageSize + offset % pageSize) / 4096 = page := fun page offset => by
    rw [pageSize]; omega
  split_ifs at h with _ hlength _ hvalid
  · cases h
  · simp only [Except.ok.injEq, Translation.mapped.injEq] at h
    subst h
    exact ⟨va.toNat / pageSize, vpage_lt va, Nat.lt_of_not_le hlength, (entryValid_eq _).mp hvalid,
      (hdiv _ _).trans (entryPage_eq _)⟩
  · cases h

/-- A page is granted as a whole, so every byte of a granted byte's word is granted. -/
theorem State.Granted.of_div_eq {s : State} {pa a : Nat} (h : s.Granted pa) (ha : a / 4 = pa / 4) : s.Granted a := by
  have hpage : a / 4096 = pa / 4096 := by omega
  rwa [State.Granted, hpage]

/-! ## What a step from virtual mode writes -/

/-- A byte that an instruction of virtual mode changes is granted. -/
theorem StoresFrom.granted {s : State} {m : Memory} (h : StoresFrom s m) (hv : s.isVirtual = true) {a : Nat}
    (ha : m.readByte a ≠ s.mem.readByte a) : s.Granted a := by
  obtain ⟨cells, rfl, hcells⟩ | ⟨pa, b, rfl, -, va, hva⟩ := h
  · have hmem : ∃ p ∈ cells, a / 4 = p.1 / 4 := by
      by_contra hnone
      push Not at hnone
      exact ha (Memory.readByte_writeWords s.mem cells hnone)
    obtain ⟨p, hp, heq⟩ := hmem
    obtain ⟨-, htranslate⟩ := hcells p hp
    obtain ⟨va, hva⟩ := htranslate hv
    exact (granted_of_translate hv hva).of_div_eq heq
  · have heq : a = pa := by
      by_contra hne
      exact ha ((Memory.readByte_writeByte s.mem pa a b).trans (if_neg hne))
    exact heq ▸ granted_of_translate hv hva

/-- Settles O54: an instruction's own stores go where the walk leads, and an entry writes its own bytes alone. -/
theorem virtualModeWritesOnlyGrantedPages : Obligations.VirtualModeWritesOnlyGrantedPages := by
  intro s t hv h
  obtain ⟨c, htook⟩ | ⟨i, hran⟩ := step_next_took_or_ran h
  · exact ⟨fun hnone => (nomatch htook.raised.symm.trans hnone), fun _ => htook.keepsBytes⟩
  · exact ⟨fun _ a ha => hran.2.stores.granted (s := s.fetched) hv ha, fun hsome => absurd hran.raised hsome⟩

/-! ## What a step in virtual mode reads -/

/-- A byte that a program in `s` can come to know: of the page table or of a granted page. -/
def State.Sees (s : State) (a : Nat) : Prop := s.TableByte a ∨ s.Granted a

/-- Two RAMs that read alike on the bytes of `seen`. -/
def Memory.AlikeOn (seen : Nat → Prop) (m n : Memory) : Prop := ∀ a, seen a → m.readByte a = n.readByte a

namespace Memory.AlikeOn
variable {seen : Nat → Prop} {m n : Memory} (h : AlikeOn seen m n)
include h

theorem readWord_eq {a : Nat} (ha : ∀ k, k / 4 = a / 4 → seen k) : m.readWord a = n.readWord a :=
  Memory.readWord_of_bytes fun k hk => h k (ha k hk)

theorem writeByte (pa : Nat) (b : Byte) : AlikeOn seen (m.writeByte pa b) (n.writeByte pa b) := by
  intro a ha
  rw [Memory.readByte_writeByte, Memory.readByte_writeByte, h a ha]

theorem writeWord (pa : Nat) (v : Word) : AlikeOn seen (m.writeWord pa v) (n.writeWord pa v) := by
  intro a ha
  rw [Memory.readByte_writeWord, Memory.readByte_writeWord, h a ha]

theorem writeWords (cells : List (Nat × Word)) : AlikeOn seen (m.writeWords cells) (n.writeWords cells) := by
  induction cells generalizing m n with
  | nil => exact h
  | cons p cells ih => exact ih (h.writeWord p.1 p.2)

end Memory.AlikeOn

/-- RAM `m` shows a program in `s` what the RAM of `s` does. -/
def State.SeesAlike (s : State) (m : Memory) : Prop := Memory.AlikeOn s.Sees m s.mem

theorem translateAll_congr {s t : State} (h : ∀ va, translate va t = translate va s) (vas : List Word) :
    translateAll vas t = translateAll vas s := by
  induction vas with
  | nil => rfl
  | cons va vas ih => rw [translateAll, translateAll, h, ih]

namespace State.SeesAlike
variable {s : State} {m : Memory} (hsee : s.SeesAlike m) (hv : s.isVirtual = true)
include hsee hv

/-- The walk reads the table's own bytes alone. -/
theorem translate_eq (va : Word) : translate va { s with mem := m } = translate va s := by
  have hlen : m.readWord s.ptbr.toNat = s.mem.readWord s.ptbr.toNat := hsee.readWord_eq fun k hk => .inl (.inl hk)
  rw [translate_virtual (s := { s with mem := m }) hv, translate_virtual hv]
  dsimp only
  rw [hlen]
  by_cases hlength : (s.mem.readWord s.ptbr.toNat).toNat ≤ va.toNat / pageSize
  · rw [if_pos hlength, if_pos hlength]
  · have hentry : m.readWord (entryAddr s.ptbr (va.toNat / pageSize)) = s.mem.readWord (entryAddr s.ptbr (va.toNat / pageSize)) :=
      hsee.readWord_eq fun k hk => .inl (.inr ⟨va.toNat / pageSize, vpage_lt va, Nat.lt_of_not_le hlength, hk⟩)
    rw [hentry]

theorem resolveAll_eq (vas : List Word) : resolveAll vas { s with mem := m } = resolveAll vas s := by
  rw [resolveAll, resolveAll, translateAll_congr (hsee.translate_eq hv)]

theorem readWord_eq {va : Word} {pa : Nat} (h : translate va s = .ok (.mapped pa)) : m.readWord pa = s.mem.readWord pa :=
  Memory.AlikeOn.readWord_eq hsee fun _ hk => .inr ((granted_of_translate hv h).of_div_eq hk)

theorem memReadWord_ok {va w : Word} (h : memReadWord va s = .ok w) : memReadWord va { s with mem := m } = .ok w := by
  obtain ⟨pa, hva, hpa, rfl⟩ := Machine.memReadWord_ok.mp h
  exact Machine.memReadWord_ok.mpr ⟨pa, (hsee.translate_eq hv va).trans hva, hpa, (hsee.readWord_eq hv hva).symm⟩

theorem memReadByte_ok {va : Word} {b : Byte} (h : memReadByte va s = .ok b) : memReadByte va { s with mem := m } = .ok b := by
  obtain ⟨pa, hva, hpa, rfl⟩ := Machine.memReadByte_ok.mp h
  have hbyte : m.readByte pa = s.mem.readByte pa := hsee pa (.inr (granted_of_translate hv hva))
  exact Machine.memReadByte_ok.mpr ⟨pa, (hsee.translate_eq hv va).trans hva, hpa, hbyte.symm⟩

/-- Every address of a block that translates reads the same word. -/
theorem map_readWord_eq {vas : List Word} {pas : List Nat} (h : resolveAll vas s = .ok pas) :
    pas.map m.readWord = pas.map s.mem.readWord := by
  refine List.map_congr_left fun pa hpa => ?_
  have hmem : Except.ok (.mapped pa) ∈ vas.map (fun va => translate va s) := by
    rw [resolveAll_ok.mp h]
    exact List.mem_map_of_mem (f := fun pa => Except.ok (Translation.mapped pa)) hpa
  obtain ⟨va, -, hva⟩ := List.mem_map.mp hmem
  exact hsee.readWord_eq hv hva

end State.SeesAlike

/-! ## Updates that neither read nor write RAM -/

theorem State.setReg_withMem (s : State) (m : Memory) (r : Reg) (v : Word) :
    State.setReg { s with mem := m } r v = { s.setReg r v with mem := m } := by
  cases r <;> rfl

theorem State.gprs_withMem (s : State) (m : Memory) : State.gprs { s with mem := m } = s.gprs := rfl

theorem State.setGprs_withMem (s : State) (m : Memory) (ws : List Word) :
    State.setGprs { s with mem := m } ws = { s.setGprs ws with mem := m } := by
  simp only [State.setGprs]
  generalize [Reg.r0, .r1, .r2, .r3, .r4, .r5, .r6, .r7].zip ws = cells
  induction cells generalizing s with
  | nil => rfl
  | cons p cells ih => rw [List.foldl_cons, List.foldl_cons, State.setReg_withMem, ih]

/-- The update neither reads nor writes RAM. -/
def IgnoresRam (f : State → State) : Prop := ∀ s m, f { s with mem := m } = { f s with mem := m }

theorem IgnoresRam.mem_eq {f : State → State} (h : IgnoresRam f) (s : State) : (f s).mem = s.mem :=
  (congrArg State.mem (h s s.mem) :)

theorem IgnoresRam.comp {f g : State → State} (hf : IgnoresRam f) (hg : IgnoresRam g) : IgnoresRam fun s => f (g s) :=
  fun s m => (congrArg f (hg s m)).trans (hf (g s) m)

theorem ignoresRam_setReg (r : Reg) (v : Word) : IgnoresRam (·.setReg r v) :=
  fun s m => State.setReg_withMem s m r v

theorem ignoresRam_writeArith (rd : Reg) (wide : Int) : IgnoresRam (writeArith rd wide) := by
  intro s m
  simp only [writeArith, State.setReg_withMem]

theorem ignoresRam_writeLogic (rd : Reg) (res : Word) : IgnoresRam (writeLogic rd res) := by
  intro s m
  simp only [writeLogic, State.setReg_withMem]

theorem ignoresRam_jumpIf (taken : Bool) (target : Word) : IgnoresRam (jumpIf taken target) := by
  intro s m
  rw [jumpIf_eq, jumpIf_eq]

/-! ## One instruction over two RAMs -/

/-- The result over RAM `m` is the next state `t` but for RAM, which is alike on what `s` sees. -/
def NextAlike (s t : State) (r : Result) : Prop :=
  ∃ n, r = .next { t with mem := n } ∧ Memory.AlikeOn s.Sees n t.mem

/-- The body runs over RAM `m` as it does over the RAM of `s`, and leaves RAMs that are alike on what `s` sees. -/
def BodyAlike (s : State) (m : Memory) (body : State → Except Raise State) : Prop :=
  ∀ t, body s = .ok t → ∃ n, body { s with mem := m } = .ok { t with mem := n } ∧ Memory.AlikeOn s.Sees n t.mem

theorem isVirtual_of_interruptEntry {code : Nat} {s t : State} (h : interruptEntry code s = .next t) : t.isVirtual = false := by
  obtain ⟨c, w, -, -, -, rfl⟩ := interruptEntry_next_afterEntry h
  exact afterEntry_isVirtual c _

/-- A body that completes in virtual mode raised nothing. -/
theorem BodyAlike.nextAlike {s t : State} {m : Memory} {body : State → Except Raise State} (hbody : BodyAlike s m body)
    (h : perform body s = .next t) (ht : t.isVirtual = true) : NextAlike s t (perform body { s with mem := m }) := by
  obtain hok | ⟨code, -, hentry⟩ := perform_next h
  · obtain ⟨n, hn, halike⟩ := hbody t hok
    exact ⟨n, perform_ok hn, halike⟩
  · exact nomatch (isVirtual_of_interruptEntry hentry).symm.trans ht

namespace State.SeesAlike
variable {s : State} {m : Memory} (hsee : s.SeesAlike m)
include hsee

theorem nextAlike_of_ignoresRam {f : State → State} (hf : IgnoresRam f) : NextAlike s (f s) (.next (f { s with mem := m })) :=
  ⟨m, by rw [hf], by rw [hf.mem_eq]; exact hsee⟩

variable (hv : s.isVirtual = true)
include hv

/-! ### The stores -/

theorem bodyAlike_memWriteWord (va v : Word) : BodyAlike s m (memWriteWord va v) := by
  intro t h
  obtain ⟨pa, hva, hpa, rfl⟩ := memWriteWord_ok.mp h
  exact ⟨_, memWriteWord_ok.mpr ⟨pa, (hsee.translate_eq hv va).trans hva, hpa, rfl⟩, hsee.writeWord pa v⟩

theorem bodyAlike_memWriteByte (va : Word) (b : Byte) : BodyAlike s m (memWriteByte va b) := by
  intro t h
  obtain ⟨pa, hva, hpa, rfl⟩ := memWriteByte_ok.mp h
  exact ⟨_, memWriteByte_ok.mpr ⟨pa, (hsee.translate_eq hv va).trans hva, hpa, rfl⟩, hsee.writeByte pa b⟩

theorem bodyAlike_pushWord (v : Word) : BodyAlike s m (pushWord v) := by
  intro t h
  obtain ⟨pa, hva, hpa, rfl⟩ := pushWord_ok.mp h
  exact ⟨_, pushWord_ok.mpr ⟨pa, (hsee.translate_eq hv s.sp).trans hva, hpa, rfl⟩, hsee.writeWord pa v⟩

end State.SeesAlike

/-! ### The instructions with more than a store -/

section
variable {s : State} {m : Memory} (hsee : s.SeesAlike m)
include hsee

/-- A value read, then an update that takes it. -/
theorem bodyAlike_of_read {α : Type} {read : State → Except Raise α} {f : α → State → State} {body : State → Except Raise State}
    (hok : ∀ u v, read u = .ok v → body u = .ok (f v u)) (herror : ∀ u e, read u = .error e → body u = .error e)
    (hread : ∀ v, read s = .ok v → read { s with mem := m } = .ok v) (hf : ∀ v, IgnoresRam (f v)) : BodyAlike s m body := by
  intro t h
  cases hval : read s with
  | error e => exact nomatch (herror s e hval).symm.trans h
  | ok v =>
    cases (hok s v hval).symm.trans h
    exact ⟨m, (hok _ v (hread v hval)).trans (congrArg Except.ok (hf v s m)), by rw [(hf v).mem_eq]; exact hsee⟩

variable (hv : s.isVirtual = true) {t : State} (ht : t.isVirtual = true)
include hv ht

theorem nextAlike_load {rd ra : Reg} (h : exec (.load rd ra) s = .next t) :
    NextAlike s t (exec (.load rd ra) { s with mem := m }) := by
  rw [exec, execLoad] at h ⊢
  refine BodyAlike.nextAlike (bodyAlike_of_read hsee (read := fun s => memReadWord (s.reg ra) s)
    (fun _ _ h => by simp only [h]) (fun _ _ h => by simp only [h]) (fun v hread => ?_) (ignoresRam_setReg rd)) h ht
  rw [State.reg_withMem]
  exact hsee.memReadWord_ok hv hread

theorem nextAlike_loadb {rd ra : Reg} (h : exec (.loadb rd ra) s = .next t) :
    NextAlike s t (exec (.loadb rd ra) { s with mem := m }) := by
  rw [exec, execLoadb] at h ⊢
  refine BodyAlike.nextAlike (bodyAlike_of_read hsee (read := fun s => memReadByte (s.reg ra) s)
    (fun _ _ h => by simp only [h]) (fun _ _ h => by simp only [h]) (fun b hread => ?_)
    fun b => ignoresRam_setReg rd (b.setWidth 32)) h ht
  rw [State.reg_withMem]
  exact hsee.memReadByte_ok hv hread

theorem nextAlike_pop {rd : Reg} (h : exec (.pop rd) s = .next t) : NextAlike s t (exec (.pop rd) { s with mem := m }) := by
  rw [exec, execPop] at h ⊢
  exact BodyAlike.nextAlike (bodyAlike_of_read hsee (read := fun s => memReadWord (s.sp - 4#32) s)
    (fun _ _ h => by simp only [popWord, h]) (fun _ _ h => by simp only [popWord, h]) (fun _ => hsee.memReadWord_ok hv)
    fun v => (ignoresRam_setReg rd v).comp (g := fun s => { s with sp := s.sp - 4#32 }) fun _ _ => rfl) h ht

theorem nextAlike_ret (h : exec .ret s = .next t) : NextAlike s t (exec .ret { s with mem := m }) := by
  rw [exec, execRet] at h ⊢
  exact BodyAlike.nextAlike (bodyAlike_of_read hsee (read := fun s => memReadWord (s.sp - 4#32) s)
    (f := fun v s => { s with sp := s.sp - 4#32, pc := v }) (fun _ _ h => by simp only [popWord, h])
    (fun _ _ h => by simp only [popWord, h]) (fun _ => hsee.memReadWord_ok hv) fun _ _ _ => rfl) h ht

theorem nextAlike_call {target : BitVec 24} (h : exec (.call target) s = .next t) :
    NextAlike s t (exec (.call target) { s with mem := m }) := by
  rw [exec, execCall] at h ⊢
  refine BodyAlike.nextAlike (fun u hu => ?_) h ht
  cases hpush : pushWord s.pc s with
  | error e => simp only [hpush] at hu; cases hu
  | ok w =>
    simp only [hpush] at hu
    cases hu
    obtain ⟨n, hn, halike⟩ := hsee.bodyAlike_pushWord hv s.pc w hpush
    exact ⟨n, by simp only [hn], halike⟩

theorem nextAlike_pushall (h : exec .pushall s = .next t) : NextAlike s t (exec .pushall { s with mem := m }) := by
  rw [exec, execPushall] at h ⊢
  refine BodyAlike.nextAlike (fun u hu => ?_) h ht
  cases hres : resolveAll (wordsFrom s.sp 8) s with
  | error e => simp only [hres] at hu; cases hu
  | ok pas =>
    simp only [hres] at hu
    cases hwrite : physWriteWords (pas.zip s.gprs) s with
    | error f => simp only [hwrite] at hu; cases hu
    | ok w =>
      simp only [hwrite] at hu
      cases hu
      obtain ⟨hram, rfl⟩ := physWriteWords_ok.mp hwrite
      have hwrite' : physWriteWords (pas.zip s.gprs) { s with mem := m } =
          .ok { s with mem := m.writeWords (pas.zip s.gprs) } := physWriteWords_ok.mpr ⟨hram, rfl⟩
      refine ⟨_, ?_, hsee.writeWords (pas.zip s.gprs)⟩
      simp only [hsee.resolveAll_eq hv, hres, State.gprs_withMem, hwrite']

theorem nextAlike_popall (h : exec .popall s = .next t) : NextAlike s t (exec .popall { s with mem := m }) := by
  rw [exec, execPopall] at h ⊢
  refine BodyAlike.nextAlike (fun u hu => ?_) h ht
  cases hres : resolveAll (wordsFrom (s.sp - 32#32) 8) s with
  | error e => simp only [hres] at hu; cases hu
  | ok pas =>
    simp only [hres] at hu
    cases hread : physReadWords pas s with
    | error f => simp only [hread] at hu; cases hu
    | ok ws =>
      simp only [hread] at hu
      cases hu
      obtain ⟨hram, rfl⟩ := physReadWords_ok.mp hread
      have hread' : physReadWords pas { s with mem := m } = .ok (pas.map s.mem.readWord) :=
        physReadWords_ok.mpr ⟨hram, (hsee.map_readWord_eq hv hres).symm⟩
      refine ⟨m, ?_, ?_⟩
      · simp only [hsee.resolveAll_eq hv, hres, hread', State.setGprs_withMem]
      · rw [setGprs_mem s (by rw [List.length_map, length_of_resolveAll_ok hres]; rfl)]
        exact hsee

end

/-- A virtual-mode instruction that stays in virtual mode runs alike over two RAMs that its program sees alike. -/
theorem exec_nextAlike {i : Instr} {s t : State} {m : Memory} (hsee : s.SeesAlike m) (hv : s.isVirtual = true)
    (h : exec i s = .next t) (ht : t.isVirtual = true) : NextAlike s t (exec i { s with mem := m }) := by
  have entered {code : Nat} {P : Prop} (h : interruptEntry code s = .next t) : P :=
    nomatch (isVirtual_of_interruptEntry h).symm.trans ht
  have left {P : Prop} (h : exec .exit s = .next t) : P := by
    rw [exec_exit_virtual hv] at h
    cases h
    exact nomatch ((getLsbD_setMode_fr _ false 2).trans (if_pos rfl)).symm.trans ht
  cases i with
  | add | sub | mul =>
    cases h
    exact hsee.nextAlike_of_ignoresRam (ignoresRam_writeArith _ _)
  | div rd rs =>
    simp only [exec, execDiv, State.reg_withMem] at h ⊢
    split_ifs at h ⊢
    · exact entered h
    · cases h
      exact hsee.nextAlike_of_ignoresRam (ignoresRam_writeArith _ _)
  | cmp =>
    cases h
    exact ⟨m, rfl, hsee⟩
  | neg | and | or | xor =>
    cases h
    exact hsee.nextAlike_of_ignoresRam (ignoresRam_writeLogic _ _)
  | jmp | jc | je | jne | jnc | jl | jm =>
    cases h
    exact hsee.nextAlike_of_ignoresRam (ignoresRam_jumpIf _ _)
  | loop rc target =>
    cases h
    exact hsee.nextAlike_of_ignoresRam
      ((ignoresRam_jumpIf (s.reg rc - 1#32 != 0#32) (zext19 target)).comp (ignoresRam_setReg rc (s.reg rc - 1#32)))
  | mov | movd =>
    cases h
    exact hsee.nextAlike_of_ignoresRam (ignoresRam_setReg _ _)
  | call => exact nextAlike_call hsee hv ht h
  | ret => exact nextAlike_ret hsee hv ht h
  | load => exact nextAlike_load hsee hv ht h
  | loadb => exact nextAlike_loadb hsee hv ht h
  | store ra rs => exact (hsee.bodyAlike_memWriteWord hv (s.reg ra) (s.reg rs)).nextAlike h ht
  | storeb ra rs => exact (hsee.bodyAlike_memWriteByte hv (s.reg ra) ((s.reg rs).extractLsb' 0 8)).nextAlike h ht
  | push rs => exact (hsee.bodyAlike_pushWord hv (s.reg rs)).nextAlike h ht
  | pop => exact nextAlike_pop hsee hv ht h
  | pushall => exact nextAlike_pushall hsee hv ht h
  | popall => exact nextAlike_popall hsee hv ht h
  | popint => exact entered ((if_pos hv).symm.trans h)
  | int => exact entered h
  | enter => exact entered ((if_pos hv).symm.trans h)
  | exit => exact left h
  | halt => exact left ((exec_halt_virtual hv).symm.trans h)

/-- Running states with the same registers differ in RAM and in the output, which the next step empties. -/
theorem eq_withMem_withRaised {s1 s2 : State} (h1 : s1.Running) (h2 : s2.Running) (hreg : ∀ r, s2.reg r = s1.reg r) :
    s2 = { s1 with mem := s2.mem, raised := s2.raised } := by
  obtain ⟨hh1, hi1⟩ := h1
  obtain ⟨hh2, hi2⟩ := h2
  cases s1
  cases s2
  rw [State.mk.injEq]
  exact ⟨hreg .r0, hreg .r1, hreg .r2, hreg .r3, hreg .r4, hreg .r5, hreg .r6, hreg .r7, hreg .sp, hreg .pc, hreg .ptbr,
    hreg .fr, rfl, hh2.trans hh1.symm, hi2.trans hi1.symm, rfl⟩

/-- Settles O55: the fetch reads alike, and so does the instruction, which raised nothing since the mode is still virtual. -/
theorem virtualModeReadsOnlyGrantedPages : Obligations.VirtualModeReadsOnlyGrantedPages := by
  intro s1 s2 t1 hv hrun1 hrun2 hreg hsee hstep ht
  have hs2 := eq_withMem_withRaised hrun1 hrun2 hreg
  have hsee : s1.SeesAlike s2.mem := hsee
  obtain ⟨c, htook⟩ | ⟨i, ⟨-, w, hfetch, hdecode⟩, -⟩ := step_next_took_or_ran hstep
  · exact nomatch htook.isVirtual.symm.trans ht
  have hfetch2 : fetchWord s2 = .ok w := by
    rw [hs2]
    exact hsee.memReadWord_ok hv hfetch
  have hfetched : s2.fetched = { s1.fetched with mem := s2.mem } := by
    rw [hs2]
    rfl
  rw [step_of_aboutToRun ⟨hrun1, w, hfetch, hdecode⟩] at hstep
  obtain ⟨n, hexec, halike⟩ := exec_nextAlike (s := s1.fetched) hsee hv hstep ht
  rw [step_of_aboutToRun ⟨hrun2, w, hfetch2, hdecode⟩, hfetched]
  exact ⟨_, hexec, State.reg_withMem t1 n, rfl, halike⟩

end Sys2Proof.Machine
